-- ==== Sys2Proof/Word.lean ====
section
/-! DEFINITION. The widths of the values HPQC handles (spec/00_scope.md R11, R12; spec/10_state.md R17, R18). -/

namespace Sys2Proof

/-- A 32-bit word: a command word and every control register (R9 `CMD_W`, R11). -/
abbrev Word := BitVec 32

/-- A byte of `IBUF`, `OBUF` or of the host's view of `BITS` (R11). -/
abbrev Byte := BitVec 8

/-- A Symbol: "one 8-bit code unit" (R17, R9 `SYM_W`). -/
abbrev Sym := BitVec 8

/-- A frequency: unsigned, `FREQ_W` = 32 bits (R18, R9). -/
abbrev Freq := BitVec 32

/-- A bit sequence `b[0], b[1], ...`, first bit first (R12). -/
abbrev Bits := List Bool

/-- A Code: the directions from the root, left = 0 (`false`), right = 1 (`true`) (R12, R76). -/
abbrev Code := List Bool

end Sys2Proof
end

