-- ==== Sys2Proof/Config.lean ====
section
/-! DEFINITION. What is fixed for the machine and is no state of it: the parameters of spec/00_scope.md R9 at
their defaults (R10), and the free values, which the spec leaves unspecified (spec/93_implementation_defined.md
P2-1, P2-4, P2-8): constants with no body, so that nothing can be proved of which value they give. -/

namespace Sys2Proof.Config

/-- `FREQ_W`: the width of every frequency (R9). -/
def freqW : Nat := 32

/-- `SENTINEL`: the reserved end marker, default 0x1F (R9, R77). -/
def sentinel : Sym := 0x1F

/-- `MAGIC`, first byte (R9, R71). -/
def magic0 : Byte := 0x68

/-- `MAGIC`, second byte (R9, R71). -/
def magic1 : Byte := 0x66

/-- `MAX_CODE_LEN`: a code has 0 to 255 bits (R9 `LEN_W`). -/
def maxCodeLen : Nat := 255

/-- The greatest count the container's one-byte N field holds (R9 `COUNT_W`). -/
def maxCount : Nat := 255

/-- `PQ_CAP`: heap slots (R9). -/
def pqCap : Nat := 256

/-- `IBUF_CAP`: bytes of input buffer (R9). -/
def ibufCap : Nat := 65536

/-- `OBUF_CAP`: bytes of output buffer (R9). -/
def obufCap : Nat := 65536

/-- `BIT_CAP`: bits of bit buffer (R9). -/
def bitCap : Nat := 524288

/-- `NODE_CAP`: greatest number of live Nodes (R9, R24). -/
def nodeCap : Nat := 1048576

/-- FREE VALUE: what byte `a` of `IBUF` holds when nothing has been written there since reset, at draw `d`
(R42, R39). -/
opaque freeInput : (d a : Nat) → Byte

/-- FREE VALUE: what a host read of `OBUF[a]` returns at `a >= OLEN` (R43). -/
opaque freeOutput : (d a : Nat) → Byte

/-- FREE VALUE: bit `k` of `BITS` where the rules give it no value (R31, R39, R44). -/
opaque freeBit : (d k : Nat) → Bool

/-- FREE VALUE: what a host read returns out of range (R52) or while `BUSY` is 1 (R56). -/
opaque freePort : (d : Nat) → Word

end Sys2Proof.Config
end

