-- ==== Sys2Proof/Syntax.lean ====
section
/-! DEFINITION. The commands: one constructor per row of spec/opcode_table.json (spec/30_encoding.md R65), and
the six fields a command word is cut into (R60). -/

namespace Sys2Proof

/-- The four node registers `N0` to `N3` (spec/10_state.md R22; R62: only 0 to 3 are legal). -/
inductive NReg where
  | n0
  | n1
  | n2
  | n3
deriving DecidableEq, Repr

/-- The eighteen commands (R65). -/
inductive Instr where
  | clrstat
  | reset
  | pqClear
  | pqInsert (ra : NReg)
  | pqExtractmin (rd : NReg)
  | pqPeekmin
  | pqSize
  | ndLeaf (rd : NReg) (sym : Sym)
  | ndBranch (rd ra rb : NReg)
  | ndInfo (ra : NReg)
  | freq
  | buildtree (rd : NReg)
  | buildcode (ra : NReg)
  | treefromcode (rd : NReg)
  | encode
  | decode
  | compress
  | decompress
deriving DecidableEq, Repr

/-- A command word cut into the fields of R60: `OP[31:24]`, `SYM[23:16]`, `RD[15:12]`, `RA[11:8]`, `RB[7:4]` and
the zero field `[3:0]`. -/
structure Fields where
  op   : BitVec 8
  sym  : BitVec 8
  rd   : BitVec 4
  ra   : BitVec 4
  rb   : BitVec 4
  zero : BitVec 4
deriving DecidableEq, Repr

/-- The five formats (R61). -/
inductive Format where
  | z
  | d
  | a
  | ds
  | dab
deriving DecidableEq, Repr

end Sys2Proof
end

