-- ==== Sys2Proof/WellFormed.lean ====
section
/-! DEFINITION. When the six fields of a command word are well formed for a format: the must-be-zero fields of
spec/30_encoding.md R60 and R61, and the register numbers of R62. -/

namespace Sys2Proof

/-- The format uses `SYM` (R61: only `DS`). -/
def Format.usesSym : Format → Bool
  | .ds => true
  | .z | .d | .a | .dab => false

/-- The format uses `RD` (R61). -/
def Format.usesRd : Format → Bool
  | .d | .ds | .dab => true
  | .z | .a => false

/-- The format uses `RA` (R61). -/
def Format.usesRa : Format → Bool
  | .a | .dab => true
  | .z | .d | .ds => false

/-- The format uses `RB` (R61). -/
def Format.usesRb : Format → Bool
  | .dab => true
  | .z | .d | .a | .ds => false

/-- "Only 0, 1, 2 and 3 are legal" (R62). -/
def legalRegister (r : BitVec 4) : Bool := decide (r.toNat < 4)

/-- A register field is legal where the format uses it. -/
def Fields.registersLegal (fmt : Format) (f : Fields) : Bool :=
  (!fmt.usesRd || legalRegister f.rd) && (!fmt.usesRa || legalRegister f.ra) && (!fmt.usesRb || legalRegister f.rb)

/-- "A field a format does not use must be 0", and `[3:0]` always (R60). -/
def Fields.unusedZero (fmt : Format) (f : Fields) : Bool :=
  f.zero == 0 && (fmt.usesSym || f.sym == 0) && (fmt.usesRd || f.rd == 0) && (fmt.usesRa || f.ra == 0)
    && (fmt.usesRb || f.rb == 0)

/-- The fields spell a word of the format, whatever its opcode (R61, R62). -/
def Fields.wellFormed (fmt : Format) (f : Fields) : Bool := f.unusedZero fmt && f.registersLegal fmt

end Sys2Proof
end

