-- ==== Sys2Proof/Decode.lean ====
section
/-! DEFINITION. Decoding a command word, total on 32-bit words, an illegal word rejected with the reason
spec/30_encoding.md R67 names; and after it the encoder, written from R60 and R65. -/

namespace Sys2Proof

/-- Why a word is illegal: the three reasons R67 lists. All three have the one effect of R155. -/
inductive Illegal where
  /-- "an opcode not in the table" -/
  | unassignedOpcode
  /-- "a non-zero must-be-zero field" -/
  | nonzeroField
  /-- "a register number above 3" -/
  | registerAbove3
deriving DecidableEq, Repr

/-- The fields at the bit positions of R60. -/
def fieldsOf (w : Word) : Fields where
  op := w.extractLsb' 24 8
  sym := w.extractLsb' 16 8
  rd := w.extractLsb' 12 4
  ra := w.extractLsb' 8 4
  rb := w.extractLsb' 4 4
  zero := w.extractLsb' 0 4

/-- A node register by the low two bits of its field; the upper two are must-be-zero bits of the mask (R62). -/
def nregOf (f : BitVec 4) : NReg :=
  if f.extractLsb' 0 2 = 0 then .n0
  else if f.extractLsb' 0 2 = 1 then .n1
  else if f.extractLsb' 0 2 = 2 then .n2
  else .n3

/-- The mask of a format: the bits a decoder compares (R61). -/
def maskOf : Format → Word
  | .z => 0xFFFFFFFF
  | .d => 0xFFFFCFFF
  | .a => 0xFFFFFCFF
  | .ds => 0xFF00CFFF
  | .dab => 0xFFFFCCCF

/-- A row of the opcode map: opcode, format, and the command with its operand fields (R65). -/
structure OpRow where
  op    : BitVec 8
  fmt   : Format
  build : Fields → Instr

/-- The system and queue rows (R65). -/
def queueRows : List OpRow :=
  [ ⟨0x01, .z, fun _ => .clrstat⟩,
    ⟨0x02, .z, fun _ => .reset⟩,
    ⟨0x10, .z, fun _ => .pqClear⟩,
    ⟨0x11, .a, fun f => .pqInsert (nregOf f.ra)⟩,
    ⟨0x12, .d, fun f => .pqExtractmin (nregOf f.rd)⟩,
    ⟨0x13, .z, fun _ => .pqPeekmin⟩,
    ⟨0x14, .z, fun _ => .pqSize⟩ ]

/-- The node, stage and whole-pipeline rows (R65). -/
def stageRows : List OpRow :=
  [ ⟨0x20, .ds, fun f => .ndLeaf (nregOf f.rd) f.sym⟩,
    ⟨0x21, .dab, fun f => .ndBranch (nregOf f.rd) (nregOf f.ra) (nregOf f.rb)⟩,
    ⟨0x22, .a, fun f => .ndInfo (nregOf f.ra)⟩,
    ⟨0x30, .z, fun _ => .freq⟩,
    ⟨0x31, .d, fun f => .buildtree (nregOf f.rd)⟩,
    ⟨0x32, .a, fun f => .buildcode (nregOf f.ra)⟩,
    ⟨0x33, .d, fun f => .treefromcode (nregOf f.rd)⟩,
    ⟨0x40, .z, fun _ => .encode⟩,
    ⟨0x41, .z, fun _ => .decode⟩,
    ⟨0x42, .z, fun _ => .compress⟩,
    ⟨0x43, .z, fun _ => .decompress⟩ ]

/-- The opcode map: eighteen rows (R65). -/
def opcodeRows : List OpRow := queueRows ++ stageRows

/-- "The match value of a command is its opcode shifted left by 24" (R61). -/
def matchOf (op : BitVec 8) : Word := op.setWidth 32 <<< 24

/-- "A word `w` spells command `c` exactly when `(w and mask(c)) = match(c)`" (R61). -/
def spells (w : Word) (row : OpRow) : Bool := w &&& maskOf row.fmt == matchOf row.op

/-- The reason a word that matches no row is illegal (R67). -/
def whyIllegal (w : Word) : Illegal :=
  match opcodeRows.find? (fun row => row.op == (fieldsOf w).op) with
  | none => .unassignedOpcode
  | some row => if (fieldsOf w).unusedZero row.fmt then .registerAbove3 else .nonzeroField

/-- The decoder: "It compares the word with the eighteen (mask, match) pairs"; one that matches none is illegal.
"Decoding reads no state" (R66, R67). -/
def decode (w : Word) : Except Illegal Instr :=
  match opcodeRows.find? (spells w) with
  | some row => .ok (row.build (fieldsOf w))
  | none => .error (whyIllegal w)

/-- The number of a node register in a register field (R62). -/
def NReg.field : NReg → BitVec 4
  | .n0 => 0
  | .n1 => 1
  | .n2 => 2
  | .n3 => 3

/-- The word whose fields stand at the positions of R60. -/
def wordOf (f : Fields) : Word := f.op ++ f.sym ++ f.rd ++ f.ra ++ f.rb ++ f.zero

/-- The format of each command (R65). -/
def formatOf : Instr → Format
  | .clrstat | .reset | .pqClear | .pqPeekmin | .pqSize | .freq | .encode | .decode | .compress | .decompress => .z
  | .pqExtractmin _ | .buildtree _ | .treefromcode _ => .d
  | .pqInsert _ | .ndInfo _ | .buildcode _ => .a
  | .ndLeaf _ _ => .ds
  | .ndBranch _ _ _ => .dab

/-- The fields that spell each command (R60, R65): a field the format does not use is 0. -/
def encodeFields : Instr → Fields
  | .clrstat => ⟨0x01, 0, 0, 0, 0, 0⟩
  | .reset => ⟨0x02, 0, 0, 0, 0, 0⟩
  | .pqClear => ⟨0x10, 0, 0, 0, 0, 0⟩
  | .pqInsert ra => ⟨0x11, 0, 0, ra.field, 0, 0⟩
  | .pqExtractmin rd => ⟨0x12, 0, rd.field, 0, 0, 0⟩
  | .pqPeekmin => ⟨0x13, 0, 0, 0, 0, 0⟩
  | .pqSize => ⟨0x14, 0, 0, 0, 0, 0⟩
  | .ndLeaf rd sym => ⟨0x20, sym, rd.field, 0, 0, 0⟩
  | .ndBranch rd ra rb => ⟨0x21, 0, rd.field, ra.field, rb.field, 0⟩
  | .ndInfo ra => ⟨0x22, 0, 0, ra.field, 0, 0⟩
  | .freq => ⟨0x30, 0, 0, 0, 0, 0⟩
  | .buildtree rd => ⟨0x31, 0, rd.field, 0, 0, 0⟩
  | .buildcode ra => ⟨0x32, 0, 0, ra.field, 0, 0⟩
  | .treefromcode rd => ⟨0x33, 0, rd.field, 0, 0, 0⟩
  | .encode => ⟨0x40, 0, 0, 0, 0, 0⟩
  | .decode => ⟨0x41, 0, 0, 0, 0, 0⟩
  | .compress => ⟨0x42, 0, 0, 0, 0, 0⟩
  | .decompress => ⟨0x43, 0, 0, 0, 0, 0⟩

/-- The encoder. -/
def encode (i : Instr) : Word := wordOf (encodeFields i)

/-- The 32-bit word of the table's numbering: bit 0 is the least significant; a command is one word, "never seen
as bytes" (R47, R60), so no byte order comes in; bits above `nbits` are 0. -/
def tableWord (nbits w : Nat) : Word := BitVec.ofNat 32 (w % 2 ^ nbits)

/-- What the decoder reads from the table's word (`none` where it refuses). -/
def decodeTableWord (nbits w : Nat) : Option Instr :=
  match decode (tableWord nbits w) with
  | .ok i => some i
  | .error _ => none

end Sys2Proof
end

