-- ==== Sys2Proof/Machine/State.lean ====
section
/-! DEFINITION. The state of HPQC as plain data (spec/10_state.md R16: "Nothing else is state"), the model's own
three fields beside it (the host's pending moves, the word its port last delivered, the draw counter of the free
values), the reasons a step can stop, and the state after reset (R39). -/

namespace Sys2Proof.Machine

/-- Sparse data: key and value pairs, keys strictly rising. Memories and tables are held so. -/
abbrev Cells (α : Type) := List (Nat × α)

/-! The Node type of R20, and its "optional Node" (R13): a tree is a value, so sharing and cycles cannot be
written down (R19). -/

mutual

/-- A Node: `Leaf(sym, freq)` or `Branch(freq, left, right)` (R20). -/
inductive Node where
  | leaf (sym : Sym) (freq : Freq)
  | branch (freq : Freq) (left right : Slot)
deriving DecidableEq, Repr

/-- An optional Node: `absent`, or one Node (R13, R20). -/
inductive Slot where
  | absent
  | node (n : Node)
deriving DecidableEq, Repr

end

/-- The node registers `N0` to `N3`: "Each holds `absent` or one Node, which is a whole tree" (R22). -/
structure NodeRegs where
  n0 : Slot
  n1 : Slot
  n2 : Slot
  n3 : Slot
deriving DecidableEq, Repr

/-- The completion codes, in the order of their numbers 0 to 8 (spec/60_exceptions.md R158). "Values 9 to 15 of the
4-bit field never occur." -/
inductive Completion where
  | ok
  | emptyInput
  | formatMismatch
  | malformedBitstream
  | structuralInconsistency
  | queueEmpty
  | unrepresentable
  | capacityExceeded
  | illegalOperation
deriving DecidableEq, Repr

/-- `STATUS` (R36). -/
structure Status where
  code  : Completion
  fatal : Bool
  busy  : Bool
deriving DecidableEq, Repr

/-- `RES.KIND`: 0 no node, 1 Leaf, 2 Branch; "the value 3 never occurs" (R35). -/
inductive Kind where
  | noNode
  | leaf
  | branch
deriving DecidableEq, Repr

/-- The scalar result record `RES` (R35). -/
structure Res where
  kind  : Kind
  sym   : Sym
  freq  : Freq
  count : Word
deriving DecidableEq, Repr

/-- What one `CT` entry stores (spec/20_memory.md R46): `len` is `none` when bit 8 of word 0 is 0 (the entry is
`absent`), else the length; `bits` are the 255 code bits stored in words 1 to 8, by index. What stands there where no
host write has put a bit is notes/assumptions/9.md. -/
structure CtEntry where
  len  : Option Byte
  bits : Bits
deriving DecidableEq, Repr

/-- A place the host's port reaches: a space and an index (R40, R50); a `CT` place is a word of an entry (R46). -/
inductive Loc where
  | reg (r : Nat)
  | ibuf (a : Nat)
  | obuf (a : Nat)
  | bits (a : Nat)
  | ft (s : Nat)
  | ct (s w : Nat)
deriving DecidableEq, Repr

/-- A move from outside: a host access, of which a write of `REG` index 0 (`CMD`) issues a command, or a hardware
reset (spec/70_reset_and_hazards.md R186; spec/20_memory.md R41, R54). -/
inductive Move where
  | write (loc : Loc) (data : Word)
  | read (loc : Loc)
  | hardReset
deriving DecidableEq, Repr

/-- The state. The fields down to `status` are the tuple of R16; `PQN` is the length of `heap` (R25). The last
three are the MODEL'S OWN (notes/assumptions/1.md, 2.md, 3.md). -/
structure State where
  /-- `N[0..3]` (R22) -/
  regs   : NodeRegs
  /-- `H`; its length is `PQN` (R25) -/
  heap   : List Node
  /-- `FT`, the symbols whose count is not 0, with their counts (R28) -/
  ft     : Cells Freq
  /-- `CT`, by symbol number (R29, R46) -/
  ct     : Cells CtEntry
  /-- `BITS`, by bit index: the bits that have a value (R31, R44) -/
  bits   : Cells Bool
  /-- `BITN` (R31) -/
  bitn   : Word
  /-- `IBUF`: the bytes written since reset (R32, R42) -/
  ibuf   : Cells Byte
  /-- `ILEN` (R32) -/
  ilen   : Word
  /-- `OBUF`: the bytes that have a value (R33, R43) -/
  obuf   : Cells Byte
  /-- `OLEN` (R33) -/
  olen   : Word
  /-- `ARG` (R34) -/
  arg    : Freq
  /-- `RES` (R35) -/
  res    : Res
  /-- `STATUS` (R36) -/
  status : Status
  /-- the moves from outside that are still to come, the next one first -/
  host   : List Move
  /-- the word the port delivered at the last host read -/
  port   : Word
  /-- how many moves have been taken: the draw number of the free values -/
  draws  : Nat
deriving DecidableEq, Repr

/-- Why the machine stops with a fault: NEVER. "Stuck states. There are none" (R188); a failing command ends in a
completion code and the hardware goes on (spec/60_exceptions.md R157, spec/47_system.md R156). The type is empty,
so no step can raise one. Safe. -/
inductive Fault where
deriving DecidableEq, Repr

/-- Why an instruction is refused. -/
inductive Refusal where
  /-- raised by `exec` alone, for an instruction whose meaning is not written; no arm of `exec` raises it today.
  Safe: the model stops where the hardware goes on. -/
  | notModelled (mnemonic : String)
deriving DecidableEq, Repr

/-- The state after reset: the table of R39. `IBUF`, `OBUF` and `BITS` are unspecified there: nothing is listed.
The host has no move pending; the port's word and the draw number are the model's own (notes/assumptions/1.md to
3.md). -/
def State.reset : State where
  regs := ⟨.absent, .absent, .absent, .absent⟩
  heap := []
  ft := []
  ct := []
  bits := []
  bitn := 0
  ibuf := []
  ilen := 0
  obuf := []
  olen := 0
  arg := 0
  res := ⟨.noNode, 0, 0, 0⟩
  status := ⟨.ok, false, false⟩
  host := []
  port := 0
  draws := 0

end Sys2Proof.Machine
end

