-- ==== Sys2Proof/Machine/Bits.lean ====
section
/-! DEFINITION. Bit sequences and bytes, most significant bit first (spec/00_scope.md R12; spec/20_memory.md R44,
R47). -/

namespace Sys2Proof.Machine

/-- The number a bit sequence spells, first bit most significant. -/
def natOfBits (b : Bits) : Nat := b.foldl (fun acc x => 2 * acc + x.toNat) 0

/-- The byte whose bit `7 - j` is bit `j` of the sequence; a missing bit is 0 (R12). -/
def byteOfBits (b : Bits) : Byte :=
  BitVec.ofNat 8 (natOfBits ((List.range 8).map fun j => (b[j]?).getD false))

/-- The eight bits of a byte, bit 7 first (R12). -/
def bitsOfByte (x : Byte) : Bits := (List.range 8).map fun j => x.getLsbD (7 - j)

/-- The first `n` bytes of a packed bit sequence, zero bits standing where it has ended. -/
def packBytes : Nat → Bits → List Byte
  | 0, _ => []
  | n + 1, b => byteOfBits (b.take 8) :: packBytes n (b.drop 8)

/-- `Pack(b)`: "zero padding to next byte boundary"; no bit is added to a whole number of bytes (R12). -/
def pack (b : Bits) : List Byte := packBytes ((b.length + 7) / 8) b

/-- `Unpack(B)` (R12). -/
def unpack (bs : List Byte) : Bits := bs.flatMap bitsOfByte

/-- The word whose bit `31 - j` is bit `j` of a sequence of 32 (R46). -/
def wordOfBits (b : Bits) : Word := BitVec.ofNat 32 (natOfBits b)

end Sys2Proof.Machine
end

