-- ==== Sys2Proof/Machine/Node.lean ====
section
/-! DEFINITION. The projections of a Node (spec/10_state.md R20), its size, and the making of a Branch
(spec/41_node_and_tree_builder.md R97). -/

namespace Sys2Proof.Machine

/-- `freq(n)` (R20). -/
def Node.freq : Node → Freq
  | .leaf _ f => f
  | .branch f _ _ => f

/-- `kind(n)` (R20). -/
def Node.kind : Node → Kind
  | .leaf _ _ => .leaf
  | .branch _ _ _ => .branch

/-- `sym(n)`: 0 for a Branch, "reported value only" (R20). -/
def Node.sym : Node → Sym
  | .leaf s _ => s
  | .branch _ _ _ => 0

/-- `child(n, b)`: left for 0, right for 1 (R20, R76); a Leaf has no child. -/
def Node.child : Node → Bool → Slot
  | .leaf _ _, _ => .absent
  | .branch _ l _, false => l
  | .branch _ _ r, true => r

/-- `ofreq` (R21). -/
def Slot.freq : Slot → Freq
  | .absent => 0
  | .node n => n.freq

mutual

/-- `size(n)` (R20). -/
def Node.size : Node → Nat
  | .leaf _ _ => 1
  | .branch _ l r => 1 + l.size + r.size

/-- `osize(n)` (R20). -/
def Slot.size : Slot → Nat
  | .absent => 0
  | .node n => n.size

end

/-- `present(x)` (R13). -/
def Slot.present : Slot → Bool
  | .absent => false
  | .node _ => true

/-- `MkBranch(a, b)`: the frequency is the exact sum; one that needs more than `FREQ_W` bits raises (R97). -/
def mkBranch (a b : Node) : Except Completion Node :=
  if 2 ^ Config.freqW ≤ a.freq.toNat + b.freq.toNat then .error .capacityExceeded
  else .ok (.branch (a.freq + b.freq) (.node a) (.node b))

end Sys2Proof.Machine
end

