-- ==== Sys2Proof/Machine/Flags.lean ====
section
/-! DEFINITION. The flags: the completion codes' numbers, which of them are fatal, and the register words that show
them (spec/60_exceptions.md R158, R159; spec/10_state.md R35 to R37). -/

namespace Sys2Proof.Machine

/-- The number of a completion code (R158). -/
def Completion.number : Completion → BitVec 4
  | .ok => 0
  | .emptyInput => 1
  | .formatMismatch => 2
  | .malformedBitstream => 3
  | .structuralInconsistency => 4
  | .queueEmpty => 5
  | .unrepresentable => 6
  | .capacityExceeded => 7
  | .illegalOperation => 8

/-- "Codes 2, 3, 4, 6, 7 and 8 are fatal; codes 1 and 5 are not" (R159), and 0 is success. -/
def Completion.isFatal : Completion → Bool
  | .ok | .emptyInput | .queueEmpty => false
  | .formatMismatch | .malformedBitstream | .structuralInconsistency | .unrepresentable | .capacityExceeded
  | .illegalOperation => true

/-- `STATUS` after a command that ends with code `x`: the code is overwritten, `FATAL` is sticky, `BUSY` falls
(R36, R163). -/
def Status.ending (x : Completion) (st : Status) : Status :=
  ⟨x, st.fatal || x.isFatal, false⟩

/-- The `STATUS` register word: `[3:0]` CODE, `[4]` FATAL, `[5]` BUSY (R37). -/
def Status.word (st : Status) : Word :=
  (BitVec.ofBool st.busy ++ BitVec.ofBool st.fatal ++ st.code.number).setWidth 32

/-- The number of `RES.KIND` (R35). -/
def Kind.number : Kind → BitVec 8
  | .noNode => 0
  | .leaf => 1
  | .branch => 2

/-- The `RES_NODE` register word: `[1:0]` KIND, `[15:8]` SYM (R37). -/
def Res.nodeWord (r : Res) : Word := (r.sym ++ r.kind.number).setWidth 32

/-- The `NVALID` register word: "bit `i` (0 to 3) is 1 when `N[i]` is present" (R37). -/
def NodeRegs.validWord (n : NodeRegs) : Word :=
  (BitVec.ofBool n.n3.present ++ BitVec.ofBool n.n2.present ++ BitVec.ofBool n.n1.present
    ++ BitVec.ofBool n.n0.present).setWidth 32

end Sys2Proof.Machine
end

