-- ==== Sys2Proof/Machine/Ops.lean ====
section
/-! DEFINITION. The named operations over sparse memory and over the registers; the end of a command, which is this
hardware's whole "trap entry" (spec/60_exceptions.md R157, R163); the live Nodes (spec/10_state.md R24). -/

namespace Sys2Proof.Machine

/-! Sparse memory. A key that is not listed has no value of its own. -/

/-- The value listed at a key. -/
def Cells.get {α : Type} : Cells α → Nat → Option α
  | [], _ => none
  | (a, x) :: c, k => if a = k then some x else Cells.get c k

/-- Store a value at a key, the keys staying in rising order. -/
def Cells.put {α : Type} : Cells α → Nat → α → Cells α
  | [], k, v => [(k, v)]
  | (a, x) :: c, k, v =>
    if k < a then (k, v) :: (a, x) :: c
    else if k = a then (k, v) :: c
    else (a, x) :: Cells.put c k v

/-- Drop what is listed at a key. -/
def Cells.erase {α : Type} : Cells α → Nat → Cells α
  | [], _ => []
  | (a, x) :: c, k => if a = k then Cells.erase c k else (a, x) :: Cells.erase c k

/-- Store a run of values from a key upward, in order. -/
def Cells.putRun {α : Type} : Cells α → Nat → List α → Cells α
  | c, _, [] => c
  | c, k, v :: vs => Cells.putRun (Cells.put c k v) (k + 1) vs

/-- The memory that holds a sequence from a key upward and nothing else. -/
def Cells.run {α : Type} : Nat → List α → Cells α
  | _, [] => []
  | k, v :: vs => (k, v) :: Cells.run (k + 1) vs

/-- The `n` values from key `k` upward of a memory with rising keys from `k` on; where nothing is listed, the free
value of that key. -/
def Cells.window {α : Type} (free : Nat → α) : Nat → Nat → Cells α → List α
  | 0, _, _ => []
  | n + 1, k, [] => free k :: Cells.window free n (k + 1) []
  | n + 1, k, (a, x) :: c =>
    if a = k then x :: Cells.window free n (k + 1) c
    else free k :: Cells.window free n (k + 1) ((a, x) :: c)

/-- Keys strictly rise from `lo` on and stay below `hi`. -/
def Cells.rising {α : Type} (hi : Nat) : Nat → Cells α → Bool
  | _, [] => true
  | lo, (a, _) :: c => decide (lo ≤ a) && decide (a < hi) && Cells.rising hi (a + 1) c

/-- A `CT` entry that is `absent` and whose stored code bits are all 0: what an unlisted symbol reads as (R46, R39). -/
def CtEntry.empty : CtEntry := ⟨none, List.replicate Config.maxCodeLen false⟩

/-- A `CT` entry stores code bits 0 to 254 (R46). -/
def CtEntry.wf (e : CtEntry) : Bool := e.bits.length == Config.maxCodeLen

/-- The canonical form of all the memories and tables: keys strictly rise and stay in the space, and no entry
equals what an unlisted key reads as (a count of 0, an empty `CT` entry; an unlisted byte or bit has no value, so
there no entry can equal it). -/
def Memory.wf (s : State) : Bool :=
  Cells.rising Config.ibufCap 0 s.ibuf && Cells.rising Config.obufCap 0 s.obuf
    && Cells.rising Config.bitCap 0 s.bits
    && Cells.rising 256 0 s.ft && s.ft.all (fun e => e.2 != 0)
    && Cells.rising 256 0 s.ct && s.ct.all (fun e => e.2 != CtEntry.empty && e.2.wf)

/-! Registers. -/

/-- Read a node register's place. -/
def NodeRegs.get (n : NodeRegs) : NReg → Slot
  | .n0 => n.n0
  | .n1 => n.n1
  | .n2 => n.n2
  | .n3 => n.n3

/-- Write a node register's place. -/
def NodeRegs.set (n : NodeRegs) (r : NReg) (v : Slot) : NodeRegs :=
  match r with
  | .n0 => { n with n0 := v }
  | .n1 => { n with n1 := v }
  | .n2 => { n with n2 := v }
  | .n3 => { n with n3 := v }

/-- `N[r]` (R14, R22). -/
def State.reg (s : State) (r : NReg) : Slot := s.regs.get r

/-- `N[r] <- v`: "Writing a node register discards the Node it held" (R23). -/
def State.setReg (s : State) (r : NReg) (v : Slot) : State := { s with regs := s.regs.set r v }

/-- `H <- h`, and with it `PQN` (R25). -/
def State.setHeap (s : State) (h : List Node) : State := { s with heap := h }

/-- `FT <- t` as a whole (R28). -/
def State.setFt (s : State) (t : Cells Freq) : State := { s with ft := t }

/-- `CT <- c` as stored (R29, R46). -/
def State.setCt (s : State) (c : Cells CtEntry) : State := { s with ct := c }

/-- `BITS` and `BITN` written by the host (R44). -/
def State.setBits (s : State) (b : Cells Bool) : State := { s with bits := b }

/-- `BITN <- n` (R31). -/
def State.setBitn (s : State) (n : Word) : State := { s with bitn := n }

/-- `IBUF` as stored (R42). -/
def State.setIbuf (s : State) (b : Cells Byte) : State := { s with ibuf := b }

/-- `ILEN <- n` (R32). -/
def State.setIlen (s : State) (n : Word) : State := { s with ilen := n }

/-- `OBUF` as stored (R33). -/
def State.setObuf (s : State) (b : Cells Byte) : State := { s with obuf := b }

/-- `OLEN <- n` (R33). -/
def State.setOlen (s : State) (n : Word) : State := { s with olen := n }

/-- `ARG <- v` (R34). -/
def State.setArg (s : State) (v : Freq) : State := { s with arg := v }

/-- `RES.KIND`, `RES.SYM`, `RES.FREQ`, written together (R35). -/
def State.setRes (s : State) (k : Kind) (y : Sym) (f : Freq) : State :=
  { s with res := { s.res with kind := k, sym := y, freq := f } }

/-- `RES.COUNT <- n` (R35). -/
def State.setCount (s : State) (n : Word) : State := { s with res := { s.res with count := n } }

/-- `STATUS <- st`. -/
def State.setStatus (s : State) (st : Status) : State := { s with status := st }

/-- The word the port delivers to the host. -/
def State.setPort (s : State) (w : Word) : State := { s with port := w }

/-- `STATUS.BUSY` rises at the write of `CMD` (R36). -/
def State.startCommand (s : State) : State := { s with status := { s.status with busy := true } }

/-- The next move is taken off the host's list, and with it a new draw of the free values. -/
def State.takeMove (s : State) (rest : List Move) : State := { s with host := rest, draws := s.draws + 1 }

/-- `RES` reports the Node in a slot: kind, symbol, frequency, or (0, 0, 0) when it is `absent` (R35, R99). -/
def State.report (s : State) : Slot → State
  | .absent => s.setRes .noNode 0 0
  | .node n => s.setRes n.kind n.sym n.freq

/-! What a command writes into the tables and buffers. -/

/-- What an entry stores after a command writes the code `c` there (R29, R46): the bits past the code are 0, as they
read (notes/assumptions/9.md). -/
def CtEntry.ofCode (c : Code) : CtEntry :=
  ⟨some (BitVec.ofNat 8 c.length), c ++ List.replicate (Config.maxCodeLen - c.length) false⟩

/-- A command writes `CT` as a whole (R29). -/
def State.writeCodes (s : State) (c : Cells Code) : State :=
  s.setCt (c.map fun e => (e.1, CtEntry.ofCode e.2))

/-- A command writes `BITS[0 ..]` and then `BITN`; past `BITN` no bit has a value (R31, R51). -/
def State.writeBits (s : State) (b : Bits) : State :=
  (s.setBits (Cells.run 0 b)).setBitn (BitVec.ofNat 32 b.length)

/-- A command writes `OBUF[0 ..]` and then `OLEN`; past `OLEN` no byte has a value (R33, R51). -/
def State.writeOut (s : State) (b : List Byte) : State :=
  (s.setObuf (Cells.run 0 b)).setOlen (BitVec.ofNat 32 b.length)

/-! Live Nodes. -/

/-- The Nodes in the four registers. -/
def NodeRegs.live (n : NodeRegs) : Nat := n.n0.size + n.n1.size + n.n2.size + n.n3.size

/-- The Nodes in the heap. -/
def heapLive (h : List Node) : Nat := (h.map Node.size).sum

/-- `Live(S)` (R24). -/
def State.live (s : State) : Nat := s.regs.live + heapLive s.heap

/-- The `NODE_CAP` test, made on the result state: it stands, or `CapacityExceeded` is raised (R24). -/
def State.checkLive (s : State) : Except Completion State :=
  if Config.nodeCap < s.live then .error .capacityExceeded else .ok s

/-! The end of a command. -/

/-- The end of a command with code `x`: `STATUS.CODE <- x`, `FATAL` set if `x` is fatal, and nothing else (R163).
This is the whole of taking an exception on this hardware: "no other state is saved or changed, control goes
nowhere". There is no return from one: the host goes on with the next command (R166). -/
def State.endWith (x : Completion) (s : State) : State := s.setStatus (s.status.ending x)

/-- How a command ends (R163, R164): a body that reaches its end gives its result with code 0; a raise `x` drops
whatever was half built and leaves the failure state `cleared` with code `x`. -/
def State.conclude (cleared : State) : Except Completion State → State
  | .ok t => t.endWith .ok
  | .error x => cleared.endWith x

/-- The illegal word: `STATUS.CODE <- IllegalOperation`, `STATUS.FATAL <- 1`, nothing else (spec/47_system.md
R155). -/
def State.illegalWord (s : State) : State := s.endWith .illegalOperation

/-- Both resets: everything at its reset value; "Nothing survives a reset" (R154, R176, R177). The host's pending
moves, the port's word and the draw number are no state of the hardware and stay. -/
def State.toReset (s : State) : State :=
  { State.reset with host := s.host, port := s.port, draws := s.draws }

end Sys2Proof.Machine
end

