-- ==== Sys2Proof/Machine/Operands.lean ====
section
/-! DEFINITION. The operands of the commands. "Commands have no address operands and no addressing modes": the
input bytes, the input bits, the code table and the frequency table are implicit, from index 0 up to the length
register (spec/20_memory.md R51); node registers are named in the word; `ARG` is the one scalar operand (R64). -/

namespace Sys2Proof.Machine

/-- The 256 Symbols in increasing numeric order (R14). -/
def allSyms : List Sym := (List.range 256).map (BitVec.ofNat 8)

/-- A CodeTable: `C[s]` is `absent` where `s` is not listed (spec/10_state.md R29). -/
abbrev CodeTable := Cells Code

/-- `C[s]`. -/
def codeAt (c : CodeTable) (s : Sym) : Option Code := Cells.get c s.toNat

/-- The present entries in increasing order of symbol value (spec/44_tree_reconstructor.md R124). -/
def entriesOf (c : CodeTable) : List (Sym × Code) := allSyms.filterMap fun s => (codeAt c s).map fun b => (s, b)

/-- `T[s]`: 0 where `s` is not listed (R28). -/
def countAt (t : Cells Freq) (s : Sym) : Freq := (Cells.get t s.toNat).getD 0

/-- The symbols present in a frequency table, in increasing order (R28). -/
def keysOf (t : Cells Freq) : List Sym := allSyms.filter fun s => countAt t s != 0

/-- The input bytes `IBUF[0 .. ILEN-1]` (R32, R51). A byte nothing has written is a free value (R42). -/
def State.inputBytes (s : State) : List Byte :=
  Cells.window (Config.freeInput s.draws) s.ilen.toNat 0 s.ibuf

/-- The input bits `BITS[0 .. BITN-1]` (R31, R51). A bit that has no value is a free value. -/
def State.inputBits (s : State) : Bits :=
  Cells.window (Config.freeBit s.draws) s.bitn.toNat 0 s.bits

/-- "The value of the entry when a command reads it is: `absent` if bit 8 is 0, else the first `len` stored code
bits" (R46). -/
def CtEntry.code (e : CtEntry) : Option Code := e.len.map fun n => e.bits.take n.toNat

/-- What `CT` stores for symbol number `k`. -/
def State.ctEntry (s : State) (k : Nat) : CtEntry := (Cells.get s.ct k).getD CtEntry.empty

/-- `CT[k]` as a command reads it (R46). -/
def State.codeOf (s : State) (k : Nat) : Option Code := (s.ctEntry k).code

/-- The CodeTable operand: the present entries of `CT` (R29). -/
def State.codes (s : State) : CodeTable :=
  (List.range 256).filterMap fun k => (s.codeOf k).map fun c => (k, c)

/-- The input length is acceptable: `CapacityExceeded` for `ILEN > IBUF_CAP`, then `EmptyInput` for `ILEN = 0`
(R32; spec/60_exceptions.md R168), else the input bytes. -/
def State.textOperand (s : State) : Except Completion (List Byte) :=
  if Config.ibufCap < s.ilen.toNat then .error .capacityExceeded
  else if s.ilen = 0 then .error .emptyInput
  else .ok s.inputBytes

end Sys2Proof.Machine
end

