-- ==== Sys2Proof/Machine/Reconstructor.lean ====
section
/-! DEFINITION. The tree reconstructor (spec/44_tree_reconstructor.md). -/

namespace Sys2Proof.Machine

/-- `Ins(slot, s, c)`: walk down the code, making an empty Branch where the place is absent, and put the Leaf in
the last place; a place that is taken, or a Leaf on the way, raises (R124, R125). Every frequency is 0. -/
def insertCode (y : Sym) : Code → Slot → Except Completion Node
  | [], .absent => .ok (.leaf y 0)
  | [], .node _ => .error .structuralInconsistency
  | _ :: _, .node (.leaf _ _) => .error .structuralInconsistency
  | d :: c, .node (.branch _ l r) =>
    match insertCode y c (if d then r else l) with
    | .error x => .error x
    | .ok n => .ok (if d then .branch 0 l (.node n) else .branch 0 (.node n) r)
  | d :: c, .absent =>
    match insertCode y c .absent with
    | .error x => .error x
    | .ok n => .ok (if d then .branch 0 .absent (.node n) else .branch 0 (.node n) .absent)

/-- `for (s, c) in E in order`: the empty code among several entries raises (R124). -/
def insertCodes : List (Sym × Code) → Node → Except Completion Node
  | [], root => .ok root
  | (y, c) :: es, root =>
    if c = [] then .error .structuralInconsistency
    else match insertCode y c (.node root) with
      | .error x => .error x
      | .ok root' => insertCodes es root'

/-- `TreeFromCode(C)`, on the present entries in increasing order; one entry whose code is empty is "the explicit
single-symbol case" (R123, R124). -/
def treeFromEntries : List (Sym × Code) → Except Completion Node
  | [(y, [])] => .ok (.leaf y 0)
  | es => insertCodes es (.branch 0 .absent .absent)

/-- `TreeFromCode(C)` (R124). -/
def treeFromCode (c : CodeTable) : Except Completion Node := treeFromEntries (entriesOf c)

/-- `TREEFROMCODE rd`: `N[rd]` is cleared first; an all-absent `CT` is `EmptyInput` (R126). -/
def execTreefromcode (rd : NReg) (s : State) : Host.Outcome State Fault Refusal :=
  let cleared := s.setReg rd .absent
  .next (cleared.conclude (
    if entriesOf s.codes = [] then .error .emptyInput
    else match treeFromCode s.codes with
      | .error x => .error x
      | .ok t => (cleared.setReg rd (.node t)).checkLive))

end Sys2Proof.Machine
end

