-- ==== Sys2Proof/Machine/Decoder.lean ====
section
/-! DEFINITION. The decoder (spec/45_decoder.md). -/

namespace Sys2Proof.Machine

/-- The loop of `DecodeWalk` (R131) on a tree whose root is a Branch: `cur` is the place, `atRoot` whether it is
the root, `out` the symbols so far, the last first. On arriving at a Leaf that is `SENTINEL` the walk stops without
appending it and looks at no further bit (R132). -/
def walkBits (root : Node) (require : Bool) : Node → Bool → Bits → List Sym → Except Completion (List Sym)
  | _, atRoot, [], out =>
    if !atRoot then .error .malformedBitstream
    else if require then .error .malformedBitstream
    else .ok out.reverse
  | cur, _, b :: bs, out =>
    match cur.child b with
    | .absent => .error .malformedBitstream
    | .node (.branch f l r) => walkBits root require (.branch f l r) false bs out
    | .node (.leaf y _) =>
      if y = Config.sentinel then .ok out.reverse
      else walkBits root require root true bs (y :: out)

/-- `DecodeWalk(t, b, require)`; on a single Leaf, any bit and a required sentinel raise (R131, R133). -/
def decodeWalk (t : Node) (b : Bits) (require : Bool) : Except Completion (List Sym) :=
  match t with
  | .leaf _ _ =>
    if 0 < b.length then .error .malformedBitstream
    else if require then .error .malformedBitstream
    else .ok []
  | .branch f l r => walkBits (.branch f l r) require (.branch f l r) true b []

/-- The destinations of `DECODE` cleared: `N0`, `OLEN` (R134). -/
def State.clearDecoding (s : State) : State := ((s.setReg .n0 .absent).setObuf []).setOlen 0

/-- The stages `DECODE` and `DECOMPRESS` share, for a code table and a bit sequence: the tree with its node-limit
test, the walk, the output with its limit; the tree goes to `N0` and the output to `OBUF` (R134, R148). -/
def State.decodeStages (s : State) (c : CodeTable) (b : Bits) (require : Bool) : Except Completion State :=
  match treeFromCode c with
  | .error x => .error x
  | .ok t =>
    match (s.clearDecoding.setReg .n0 (.node t)).checkLive with
    | .error x => .error x
    | .ok s1 =>
      match decodeWalk t b require with
      | .error x => .error x
      | .ok out => if Config.obufCap < out.length then .error .capacityExceeded else .ok (s1.writeOut out)

/-- `DECODE` (R134): the tests in the order written. -/
def execDecode (s : State) : Host.Outcome State Fault Refusal :=
  .next (s.clearDecoding.conclude (
    if entriesOf s.codes = [] then .error .emptyInput
    else if Config.bitCap < s.bitn.toNat then .error .capacityExceeded
    else s.decodeStages s.codes s.inputBits false))

end Sys2Proof.Machine
end

