-- ==== Sys2Proof/Machine/CodeExtractor.lean ====
section
/-! DEFINITION. The code table extractor (spec/42_code_extractor.md). -/

namespace Sys2Proof.Machine

mutual

/-- `Walk(n, path)`: a Leaf's code is the path to it; "left first" (R111). -/
def walkNode : Node → Code → CodeTable → Except Completion CodeTable
  | .leaf y _, path, c =>
    if (codeAt c y).isSome then .error .illegalOperation
    else if Config.maxCodeLen < path.length then .error .capacityExceeded
    else .ok (Cells.put c y.toNat path)
  | .branch _ l r, path, c =>
    match walkSlot l (path ++ [false]) c with
    | .error x => .error x
    | .ok c' => walkSlot r (path ++ [true]) c'

/-- "An absent child contributes the empty partial table" (R111). -/
def walkSlot : Slot → Code → CodeTable → Except Completion CodeTable
  | .absent, _, c => .ok c
  | .node n, path, c => walkNode n path c

end

/-- `BuildCode(t)` (R111). -/
def buildCode (t : Node) : Except Completion CodeTable := walkNode t [] []

/-- `BUILDCODE ra`: `CT` is cleared first; "absence propagates" as `EmptyInput`; the tree is inspected, not
consumed (R112). -/
def execBuildcode (ra : NReg) (s : State) : Host.Outcome State Fault Refusal :=
  .next ((s.setCt []).conclude (match s.reg ra with
    | .absent => .error .emptyInput
    | .node t =>
      match buildCode t with
      | .error x => .error x
      | .ok c => .ok (s.writeCodes c)))

end Sys2Proof.Machine
end

