-- ==== Sys2Proof/Machine/Queue.lean ====
section
/-! DEFINITION. The priority queue: the 0-based array binary min-heap of spec/40_priority_queue.md R82, R84, R86,
taken literally, and the five `PQ` commands. -/

namespace Sys2Proof.Machine

/-- `HeapLess(H[i], H[j])`: unsigned, strict; false where a slot holds nothing (R82). -/
def lessAt (h : List Node) (i j : Nat) : Bool :=
  match h[i]?, h[j]? with
  | some a, some b => decide (a.freq.toNat < b.freq.toNat)
  | _, _ => false

/-- `swap H[i] and H[j]` (R82). -/
def swapAt (h : List Node) (i j : Nat) : List Node :=
  match h[i]?, h[j]? with
  | some a, some b => (h.set i b).set j a
  | _, _ => h

/-- `SiftUp(i)` (R82). The first argument bounds the rounds; `i` strictly decreases, so `i` rounds are enough. -/
def siftUp : Nat → List Node → Nat → List Node
  | 0, h, _ => h
  | fuel + 1, h, i =>
    if 0 < i && lessAt h i ((i - 1) / 2) then siftUp fuel (swapAt h i ((i - 1) / 2)) ((i - 1) / 2) else h

/-- The child `SiftDown` goes to, or `i` itself (R82): "`s` becomes `r` only when `freq(H[r])` is strictly less
than both". A slot at `PQN` or above is lighter than nothing. -/
def downTo (h : List Node) (i : Nat) : Nat :=
  let s := if lessAt h (2 * i + 1) i then 2 * i + 1 else i
  if lessAt h (2 * i + 2) s then 2 * i + 2 else s

/-- `SiftDown(i)` (R82). `i` strictly increases below `PQN`, so `PQN` rounds are enough. -/
def siftDown : Nat → List Node → Nat → List Node
  | 0, h, _ => h
  | fuel + 1, h, i => if downTo h i = i then h else siftDown fuel (swapAt h i (downTo h i)) (downTo h i)

/-- `PQInsert(n)`: into the first free slot, then up (R84). -/
def pqInsert (h : List Node) (n : Node) : List Node := siftUp h.length (h ++ [n]) h.length

/-- `PQExtract()`: the root, and the heap after the last element has become "the displaced root" and gone down
(R86); nothing on an empty queue. -/
def pqExtract : List Node → Option (Node × List Node)
  | [] => none
  | m :: rest =>
    match rest.getLast? with
    | none => some (m, [])
    | some d => some (m, siftDown rest.length (d :: rest.dropLast) 0)

/-- The root of the heap as an optional Node. -/
def heapTop : List Node → Slot
  | [] => .absent
  | m :: _ => .node m

/-- `PQ.CLEAR` (R83). -/
def execPqClear (s : State) : Host.Outcome State Fault Refusal := .next ((s.setHeap []).endWith .ok)

/-- `PQ.INSERT ra` (R85): an absent register first, then a full queue; on either nothing but `STATUS` changes. -/
def execPqInsert (ra : NReg) (s : State) : Host.Outcome State Fault Refusal :=
  .next (s.conclude (match s.reg ra with
    | .absent => .error .illegalOperation
    | .node n =>
      if Config.pqCap ≤ s.heap.length then .error .capacityExceeded
      else .ok ((s.setHeap (pqInsert s.heap n)).setReg ra .absent)))

/-- `PQ.EXTRACTMIN rd` (R87): `N[rd]` is cleared first; on `QueueEmpty` `RES` is zeroed too. -/
def execPqExtractmin (rd : NReg) (s : State) : Host.Outcome State Fault Refusal :=
  .next (((s.setReg rd .absent).report .absent).conclude (match pqExtract s.heap with
    | none => .error .queueEmpty
    | some (m, h) => .ok (((s.setHeap h).setReg rd (.node m)).report (.node m))))

/-- `PQ.PEEKMIN` (R88). -/
def execPqPeekmin (s : State) : Host.Outcome State Fault Refusal :=
  .next ((s.report .absent).conclude (match heapTop s.heap with
    | .absent => .error .queueEmpty
    | .node m => .ok (s.report (.node m))))

/-- `PQ.SIZE`: `RES.COUNT <- PQN` (R89). -/
def execPqSize (s : State) : Host.Outcome State Fault Refusal :=
  .next ((s.setCount (BitVec.ofNat 32 s.heap.length)).endWith .ok)

end Sys2Proof.Machine
end

