-- ==== Sys2Proof/Machine/TreeBuilder.lean ====
section
/-! DEFINITION. Making and inspecting Nodes, the frequency table, and the tree builder
(spec/41_node_and_tree_builder.md). -/

namespace Sys2Proof.Machine

/-- `FreqTable(B)`: the symbols present at least once, each with its count (R100). -/
def freqTable (b : List Byte) : Cells Freq :=
  allSyms.filterMap fun y => if b.count y = 0 then none else some (y.toNat, BitVec.ofNat 32 (b.count y))

/-- The Leaves of a frequency table, in increasing order of symbol value (R103). -/
def leavesOf (t : Cells Freq) : List Node := (keysOf t).map fun y => .leaf y (countAt t y)

/-- `MergeStep()`: "A strictly first", "B second", left = A, right = B; defined when `PQN >= 2` (R106). -/
def mergeStep (h : List Node) : Except Completion (List Node) :=
  match pqExtract h with
  | none => .ok h
  | some (a, h1) =>
    match pqExtract h1 with
    | none => .ok h
    | some (b, h2) =>
      match mkBranch a b with
      | .error x => .error x
      | .ok n => .ok (pqInsert h2 n)

/-- `while PQN > 1: MergeStep()` (R105). Each round lowers `PQN` by one, so `PQN` rounds are enough. -/
def mergeLoop : Nat → List Node → Except Completion (List Node)
  | 0, h => .ok h
  | fuel + 1, h =>
    if 1 < h.length then
      match mergeStep h with
      | .error x => .error x
      | .ok h' => mergeLoop fuel h'
    else .ok h

/-- `BuildTree(T)` (R105). It "Fails (returns empty/absent) only when the frequency table is empty" (R102). -/
def buildTree (t : Cells Freq) : Except Completion Node :=
  let h := (leavesOf t).foldl pqInsert []
  match mergeLoop h.length h with
  | .error x => .error x
  | .ok h' =>
    match pqExtract h' with
    | none => .error .emptyInput
    | some (n, _) => .ok n

/-- `ND.LEAF rd, sym`: the frequency is `ARG`; over the node limit nothing but `STATUS` changes (R96). -/
def execNdLeaf (rd : NReg) (sym : Sym) (s : State) : Host.Outcome State Fault Refusal :=
  .next (s.conclude (s.setReg rd (.node (.leaf sym s.arg))).checkLive)

/-- `ND.BRANCH rd, ra, rb`: the tests in the order R98 writes them; `N[rd]` is written last. -/
def execNdBranch (rd ra rb : NReg) (s : State) : Host.Outcome State Fault Refusal :=
  .next (s.conclude (
    if ra = rb then .error .illegalOperation
    else match s.reg ra, s.reg rb with
      | .node a, .node b =>
        match mkBranch a b with
        | .error x => .error x
        | .ok t => (((s.setReg ra .absent).setReg rb .absent).setReg rd (.node t)).checkLive
      | _, _ => .error .illegalOperation))

/-- `ND.INFO ra`: "no node" is an answer, not an error (R99). -/
def execNdInfo (ra : NReg) (s : State) : Host.Outcome State Fault Refusal :=
  .next ((s.report (s.reg ra)).endWith .ok)

/-- `FREQ` (R101). -/
def execFreq (s : State) : Host.Outcome State Fault Refusal :=
  .next ((s.setFt []).conclude (match s.textOperand with
    | .error x => .error x
    | .ok b => .ok (s.setFt (freqTable b))))

/-- `BUILDTREE rd`: `N[rd]` and the queue are cleared first, and the queue is left empty (R107). -/
def execBuildtree (rd : NReg) (s : State) : Host.Outcome State Fault Refusal :=
  let cleared := (s.setReg rd .absent).setHeap []
  .next (cleared.conclude (
    if keysOf s.ft = [] then .error .emptyInput
    else match buildTree s.ft with
      | .error x => .error x
      | .ok t => (cleared.setReg rd (.node t)).checkLive))

end Sys2Proof.Machine
end

