-- ==== Sys2Proof/Machine/Encoder.lean ====
section
/-! DEFINITION. The encoder (spec/43_encoder.md). -/

namespace Sys2Proof.Machine

/-- `EncodeBits(C, B)`: "It is only ever applied to a table built from the frequency table of the same `B`, so every
lookup finds an entry" (R117). -/
def encodeBits (c : CodeTable) (b : List Byte) : Bits := b.flatMap fun y => (codeAt c y).getD []

/-- The destinations `ENCODE` and `COMPRESS` share, cleared: `FT`, `N0`, `PQN`, `CT`, `BITN` (R118, R142). -/
def State.clearEncoding (s : State) : State :=
  (((((s.setFt []).setReg .n0 .absent).setHeap []).setCt []).setBits []).setBitn 0

/-- The stages `ENCODE` and `COMPRESS` share, for the symbol list `b`: `FT`, the tree in `N0` with its node-limit
test, `CT`, then `BITS` with the bit limit; the code table and the bits come with the state (R118, R142). -/
def State.encodeStages (s : State) (b : List Byte) : Except Completion (State × CodeTable × Bits) :=
  match buildTree (freqTable b) with
  | .error x => .error x
  | .ok t =>
    match ((s.clearEncoding.setFt (freqTable b)).setReg .n0 (.node t)).checkLive with
    | .error x => .error x
    | .ok s1 =>
      match buildCode t with
      | .error x => .error x
      | .ok c =>
        if Config.bitCap < (encodeBits c b).length then .error .capacityExceeded
        else .ok ((s1.writeCodes c).writeBits (encodeBits c b), c, encodeBits c b)

/-- `ENCODE` (R118). -/
def execEncode (s : State) : Host.Outcome State Fault Refusal :=
  .next (s.clearEncoding.conclude (match s.textOperand with
    | .error x => .error x
    | .ok b =>
      match s.encodeStages b with
      | .error x => .error x
      | .ok (s1, _, _) => .ok s1))

end Sys2Proof.Machine
end

