-- ==== Sys2Proof/Machine/Container.lean ====
section
/-! DEFINITION. The binary container codec (spec/46_container_codec.md; the layout is spec/30_encoding.md R71 to
R78). -/

namespace Sys2Proof.Machine

/-- The header: magic, count, and a (symbol, length) pair for each entry, in header order (R72, R140). -/
def containerHeader (es : List (Sym × Code)) : List Byte :=
  [Config.magic0, Config.magic1, BitVec.ofNat 8 es.length]
    ++ es.flatMap fun e => [e.1, BitVec.ofNat 8 e.2.length]

/-- `Container(C, content)`: the header, then the code bits in header order and the content as one packed bit
stream (R140, R143). -/
def container (c : CodeTable) (content : Bits) : List Byte :=
  containerHeader (entriesOf c) ++ pack ((entriesOf c).flatMap (·.2) ++ content)

/-- The destinations of `COMPRESS` cleared (R142). -/
def State.clearCompress (s : State) : State := (s.clearEncoding.setObuf []).setOlen 0

/-- `COMPRESS` (R142): the sentinel in the text, then 256 symbols, are `Unrepresentable` (R141); `S` is the text with
the sentinel appended (R139). -/
def execCompress (s : State) : Host.Outcome State Fault Refusal :=
  .next (s.clearCompress.conclude (match s.textOperand with
    | .error x => .error x
    | .ok b =>
      if b.contains Config.sentinel then .error .unrepresentable
      else if Config.maxCount < (keysOf (freqTable (b ++ [Config.sentinel]))).length then .error .unrepresentable
      else match s.clearCompress.encodeStages (b ++ [Config.sentinel]) with
        | .error x => .error x
        | .ok (s1, c, bits) =>
          if Config.obufCap < (container c bits).length then .error .capacityExceeded
          else .ok (s1.writeOut (container c bits))))

/-- The first `n` (symbol, length) pairs of a header (R145). -/
def readPairs : Nat → List Byte → List (Sym × Nat)
  | n + 1, y :: len :: rest => (y, len.toNat) :: readPairs n rest
  | _, _ => []

/-- No symbol is listed twice (R145). -/
def allDistinct : List Sym → Bool
  | [] => true
  | y :: ys => !ys.contains y && allDistinct ys

/-- "slicing that many bits per symbol, in the same symbol order as the header" (R73, R145). -/
def sliceCodes : List (Sym × Nat) → Bits → CodeTable
  | [], _ => []
  | (y, n) :: ps, stream => Cells.put (sliceCodes ps (stream.drop n)) y.toNat (stream.take n)

/-- The part of `ParseContainer` after the count byte `n`, on the bytes that follow it (R145). -/
def parseBody (n : Nat) (body : List Byte) : Except Completion (CodeTable × Bits) :=
  let pairs := readPairs n body
  let stream := unpack (body.drop (2 * n))
  let total := (pairs.map (·.2)).sum
  if n = 0 then .error .malformedBitstream
  else if body.length < 2 * n then .error .malformedBitstream
  else if pairs.any (fun p => p.2 == 0) then .error .malformedBitstream
  else if !allDistinct (pairs.map (·.1)) then .error .malformedBitstream
  else if stream.length < total then .error .malformedBitstream
  else .ok (sliceCodes pairs stream, stream.drop total)

/-- `ParseContainer(X)`: the magic is tested before any other look at the buffer (R145, R147). -/
def parseContainer : List Byte → Except Completion (CodeTable × Bits)
  | m0 :: m1 :: rest =>
    if m0 ≠ Config.magic0 || m1 ≠ Config.magic1 then .error .formatMismatch
    else match rest with
      | [] => .error .malformedBitstream
      | n :: body => parseBody n.toNat body
  | _ => .error .formatMismatch

/-- The destinations of `DECOMPRESS` cleared: `CT`, `BITN`, `N0`, `OLEN` (R148). -/
def State.clearDecompress (s : State) : State :=
  (((s.setCt []).setBits []).setBitn 0).clearDecoding

/-- `DECOMPRESS` (R148): the tests in the order written; results are written only at the end. -/
def execDecompress (s : State) : Host.Outcome State Fault Refusal :=
  .next (s.clearDecompress.conclude (
    if Config.ibufCap < s.ilen.toNat then .error .capacityExceeded
    else match parseContainer s.inputBytes with
      | .error x => .error x
      | .ok (c, rest) =>
        if Config.bitCap < rest.length then .error .capacityExceeded
        else match s.clearDecompress.decodeStages c rest true with
          | .error x => .error x
          | .ok s1 => .ok ((s1.writeCodes c).writeBits rest)))

end Sys2Proof.Machine
end

