-- ==== Sys2Proof/Machine/System.lean ====
section
/-! DEFINITION. The system commands (spec/47_system.md). -/

namespace Sys2Proof.Machine

/-- `CLRSTAT`: `STATUS.CODE <- 0`, `STATUS.FATAL <- 0`; "Nothing else changes" (R153). -/
def execClrstat (s : State) : Host.Outcome State Fault Refusal :=
  .next (s.setStatus ⟨.ok, false, false⟩)

/-- `RESET`: the reset state of R39 (R154). -/
def execReset (s : State) : Host.Outcome State Fault Refusal := .next s.toReset

end Sys2Proof.Machine
end

