-- ==== Sys2Proof/Machine/Dispatch.lean ====
section
/-! DEFINITION. The effect of each command: one arm per constructor of Instr. -/

namespace Sys2Proof.Machine

def exec (i : Instr) (s : State) : Host.Outcome State Fault Refusal :=
  match i with
  | .clrstat => Sys2Proof.Machine.execClrstat s
  | .reset => Sys2Proof.Machine.execReset s
  | .pqClear => Sys2Proof.Machine.execPqClear s
  | .pqInsert ra => Sys2Proof.Machine.execPqInsert ra s
  | .pqExtractmin rd => Sys2Proof.Machine.execPqExtractmin rd s
  | .pqPeekmin => Sys2Proof.Machine.execPqPeekmin s
  | .pqSize => Sys2Proof.Machine.execPqSize s
  | .ndLeaf rd sym => Sys2Proof.Machine.execNdLeaf rd sym s
  | .ndBranch rd ra rb => Sys2Proof.Machine.execNdBranch rd ra rb s
  | .ndInfo ra => Sys2Proof.Machine.execNdInfo ra s
  | .freq => Sys2Proof.Machine.execFreq s
  | .buildtree rd => Sys2Proof.Machine.execBuildtree rd s
  | .buildcode ra => Sys2Proof.Machine.execBuildcode ra s
  | .treefromcode rd => Sys2Proof.Machine.execTreefromcode rd s
  | .encode => Sys2Proof.Machine.execEncode s
  | .decode => Sys2Proof.Machine.execDecode s
  | .compress => Sys2Proof.Machine.execCompress s
  | .decompress => Sys2Proof.Machine.execDecompress s

end Sys2Proof.Machine
end

