-- ==== Sys2Proof/Machine/Port.lean ====
section
/-! DEFINITION. The host's port: reads and writes of the six address spaces (spec/20_memory.md R40 to R46, R50,
R52, R54; spec/10_state.md R37). The write of `CMD` is Sequencer.lean's. -/

namespace Sys2Proof.Machine

/-! Control registers by number (R37). -/

/-- A host read of control register `r`: `CMD` is write-only and reads 0, and so does a register that does not
exist (R37). -/
def State.readReg (s : State) : Nat → Word
  | 1 => s.status.word
  | 2 => s.arg
  | 3 => s.ilen
  | 4 => s.olen
  | 5 => s.bitn
  | 6 => BitVec.ofNat 32 s.heap.length
  | 7 => s.res.nodeWord
  | 8 => s.res.freq
  | 9 => s.res.count
  | 10 => s.regs.validWord
  | _ => 0

/-- A host write of control register `r` other than `CMD`: `ARG`, `ILEN` and `BITN` take it, a read-only register
or one that does not exist ignores it (R37). -/
def State.writeReg (s : State) (r : Nat) (w : Word) : State :=
  match r with
  | 2 => s.setArg w
  | 3 => s.setIlen w
  | 5 => s.setBitn w
  | _ => s

/-! The buffers. -/

/-- Bit `k` of the bit sequence as a host read shows it: unspecified at `BITN` and above (R31, R44). -/
def State.readBit (s : State) (k : Nat) : Bool :=
  if k < s.bitn.toNat then (Cells.get s.bits k).getD (Config.freeBit s.draws k) else Config.freeBit s.draws k

/-- Byte `a` of the `BITS` space: bits `8a` to `8a + 7`, most significant first (R44). -/
def State.readBitsByte (s : State) (a : Nat) : Byte :=
  byteOfBits ((List.range 8).map fun j => s.readBit (8 * a + j))

/-- A host write of byte `a` of the `BITS` space: "all eight bit positions are stored" (R44). -/
def State.writeBitsByte (s : State) (a : Nat) (x : Byte) : State :=
  s.setBits (Cells.putRun s.bits (8 * a) (bitsOfByte x))

/-! The `CT` space (R46). -/

/-- Code bit `j` belongs to the entry's code: the entry is present and `j < len` (R46). -/
def CtEntry.inCode (e : CtEntry) (j : Nat) : Bool :=
  match e.len with
  | none => false
  | some n => decide (j < n.toNat)

/-- Code bit `j` of an entry as a host read shows it: bit positions at `len` and above read as 0, and all of them
in an `absent` entry (R46). -/
def CtEntry.readBit (e : CtEntry) (j : Nat) : Bool := e.inCode j && (e.bits[j]?).getD false

/-- Word 0 of an entry: bit 8 presence, bits 7 to 0 the length (R46). That bits 31 to 9, which R46 does not name, read
as 0 is the model's choice: DESIGN CHOICE, notes/assumptions/18.md. -/
def CtEntry.word0 (e : CtEntry) : Word :=
  match e.len with
  | none => 0
  | some n => 0x100 + n.setWidth 32

/-- Word `1 + v` of an entry: code bit `32v + i` is bit `31 - i` (R46). -/
def CtEntry.codeWord (e : CtEntry) (v : Nat) : Word :=
  wordOfBits ((List.range 32).map fun i => e.readBit (32 * v + i))

/-- A host write of word 0: with bit 8 = 0 the entry is `absent`; with bit 8 = 1 it is present with the given
length; the stored code bits stay (R46). That bits 31 to 9, which R46 does not name, are ignored is the model's choice:
DESIGN CHOICE, notes/assumptions/18.md. -/
def CtEntry.setWord0 (e : CtEntry) (w : Word) : CtEntry :=
  { e with len := if w.getLsbD 8 then some (w.extractLsb' 0 8) else none }

/-- A host write of word `1 + v` is taken: a word "beyond the code's length" is "ignored on write"
(spec/93_implementation_defined.md P2-2), one the code fills in part or whole is not; an absent entry has no code and no
length, so there R46's "stores the bits" stands alone. How the two are read together is DEDUCED,
notes/assumptions/9.md. -/
def CtEntry.takesWord (e : CtEntry) (v : Nat) : Bool := e.len.isNone || e.inCode (32 * v)

/-- A host write of word `1 + v`, where it is taken, "stores the bits", all 32 of the word whatever the length; there are
255 in all, so the last bit of word 8 is none (R46). -/
def CtEntry.setCodeWord (e : CtEntry) (v : Nat) (w : Word) : CtEntry :=
  { e with bits := (List.range Config.maxCodeLen).map fun j =>
      if j / 32 = v && e.takesWord v then w.getLsbD (31 - j % 32) else (e.bits[j]?).getD false }

/-- The entry of symbol number `k`, in canonical form. -/
def State.putEntry (s : State) (k : Nat) (e : CtEntry) : State :=
  s.setCt (if e = CtEntry.empty then Cells.erase s.ct k else Cells.put s.ct k e)

/-- A host read of word `w` of `CT` entry `k` (R46). -/
def State.readCt (s : State) (k w : Nat) : Word :=
  if w = 0 then (s.ctEntry k).word0 else (s.ctEntry k).codeWord (w - 1)

/-- A host write of word `w` of `CT` entry `k` (R46). -/
def State.writeCt (s : State) (k w : Nat) (x : Word) : State :=
  s.putEntry k (if w = 0 then (s.ctEntry k).setWord0 x else (s.ctEntry k).setCodeWord (w - 1) x)

/-! The port. -/

/-- What a host read of a place returns while `BUSY` is 0; a byte comes in the low bits of the word, and an index
past the end of a space other than `REG` returns an unspecified value (R41 to R46, R52). -/
def State.readPlace (s : State) : Loc → Word
  | .reg r => s.readReg r
  | .ibuf a =>
    if a < Config.ibufCap then ((Cells.get s.ibuf a).getD (Config.freeInput s.draws a)).setWidth 32
    else Config.freePort s.draws
  | .obuf a =>
    if a < Config.obufCap then
      (if a < s.olen.toNat then (Cells.get s.obuf a).getD (Config.freeOutput s.draws a)
       else Config.freeOutput s.draws a).setWidth 32
    else Config.freePort s.draws
  | .bits a => if a < Config.bitCap / 8 then (s.readBitsByte a).setWidth 32 else Config.freePort s.draws
  | .ft k => if k < 256 then countAt s.ft (BitVec.ofNat 8 k) else Config.freePort s.draws
  | .ct k w => if k < 256 && w < 9 then s.readCt k w else Config.freePort s.draws

/-- What a host read returns: while `BUSY` is 1, anything but `STATUS` is unspecified (R56). -/
def State.hostRead (s : State) (loc : Loc) : Word :=
  if s.status.busy && loc != .reg 1 then Config.freePort s.draws else s.readPlace loc

/-- What a host write of a place does while `BUSY` is 0: `OBUF` and `FT` ignore it, and so does an index out of
range (R42 to R46, R52, R54). -/
def State.writePlace (s : State) (loc : Loc) (x : Word) : State :=
  match loc with
  | .reg r => s.writeReg r x
  | .ibuf a => if a < Config.ibufCap then s.setIbuf (Cells.put s.ibuf a (x.setWidth 8)) else s
  | .obuf _ => s
  | .bits a => if a < Config.bitCap / 8 then s.writeBitsByte a (x.setWidth 8) else s
  | .ft _ => s
  | .ct k w => if k < 256 && w < 9 then s.writeCt k w x else s

/-- A host write: "A host write to any space while `STATUS.BUSY = 1` is ignored" (R56). -/
def State.hostWrite (s : State) (loc : Loc) (x : Word) : State :=
  if s.status.busy then s else s.writePlace loc x

end Sys2Proof.Machine
end

