-- ==== Sys2Proof/Machine/Sequencer.lean ====
section
/-! DEFINITION. The sequencer and the moves from outside: a write of `CMD` issues a command, which runs whole; every
other host access is a move of its own; so is a hardware reset (spec/00_scope.md R8; spec/20_memory.md R41, R53;
spec/70_reset_and_hazards.md R178, R186). -/

namespace Sys2Proof.Machine

/-- The word written to `CMD` is executed: `BUSY` rises, and the command runs to its end, where `BUSY` falls; an
illegal word is one step like any command (R36, R66, R67, R155). -/
def issue (w : Word) (s : State) : Host.Outcome State Fault Refusal :=
  match decode w with
  | .ok i => exec i s.startCommand
  | .error _ => .next s.startCommand.illegalWord

/-- One move from outside (R186). -/
def takeStep (m : Move) (s : State) : Host.Outcome State Fault Refusal :=
  match m with
  | .write (.reg 0) w => if s.status.busy then .next s else issue w s
  | .write loc x => .next (s.hostWrite loc x)
  | .read loc => .next (s.setPort (s.hostRead loc))
  | .hardReset => .next s.toReset

/-- One step: the next move of the host's list; with none pending "the hardware is idle with all state held"
(R174, R186). -/
def stepHost (s : State) : Host.Outcome State Fault Refusal :=
  match s.host with
  | [] => .next s
  | m :: rest => takeStep m (s.takeMove rest)

/-- The state in which the very next move writes the word to `CMD` while `BUSY` is 0: there "fetching" is taking
the host's next write (spec/10_state.md R27). -/
def placeWord (s : State) (w : Word) : State :=
  { s with host := .write (.reg 0) w :: s.host, status := { s.status with busy := false } }

end Sys2Proof.Machine
end

