-- ==== Sys2Proof/Machine/Step.lean ====
section
/-! DEFINITION. One step of the machine, and how a command word comes to run. -/

namespace Sys2Proof.Machine

/-- One step (spec/70_reset_and_hazards.md R186). -/
def step (s : State) : Host.Outcome State Fault Refusal := stepHost s

/-- The table's word placed where the next step takes its command from: the head of the host's moves. -/
def State.withFetchWord (s : State) (nbits w : Nat) : State := placeWord s (tableWord nbits w)

end Sys2Proof.Machine
end

