-- ==== Sys2Proof/Safety.lean ====
section
/-! DEFINITION. What claims about HPQC are stated in: the invariants the spec names, the paths of a tree, and when a
host may take a result for valid. -/

namespace Sys2Proof.Machine

/-! The Branch frequency invariant (spec/10_state.md R21) and completeness (R20). -/

mutual

/-- Every Branch's frequency is the sum of its children's, an absent child counting 0 (R21). -/
def Node.sumOk : Node → Bool
  | .leaf _ _ => true
  | .branch f l r => (f.toNat == l.freq.toNat + r.freq.toNat) && l.sumOk && r.sumOk

/-- The same of an optional Node. -/
def Slot.sumOk : Slot → Bool
  | .absent => true
  | .node n => n.sumOk

end

mutual

/-- "A tree is complete when no Branch in it has an absent child" (R20). -/
def Node.complete : Node → Bool
  | .leaf _ _ => true
  | .branch _ l r => l.present && r.present && l.complete && r.complete

/-- The same of the Nodes in an optional Node. -/
def Slot.complete : Slot → Bool
  | .absent => true
  | .node n => n.complete

end

mutual

/-- The Leaves of a tree, left before right: each one's path from the root, symbol and frequency (R76, R110). -/
def Node.leaves : Node → List (Code × Sym × Freq)
  | .leaf y f => [([], y, f)]
  | .branch _ l r => l.leaves.map (fun p => (false :: p.1, p.2)) ++ r.leaves.map (fun p => (true :: p.1, p.2))

/-- The Leaves of an optional Node. -/
def Slot.leaves : Slot → List (Code × Sym × Freq)
  | .absent => []
  | .node n => n.leaves

end

mutual

/-- How many Branches a tree has. -/
def Node.branches : Node → Nat
  | .leaf _ _ => 0
  | .branch _ l r => 1 + l.branches + r.branches

/-- How many Branches an optional Node has. -/
def Slot.branches : Slot → Nat
  | .absent => 0
  | .node n => n.branches

end

mutual

/-- Every frequency in the tree is 0: a decode-time tree (R18, spec/44_tree_reconstructor.md R127 (d)). -/
def Node.zeroFreq : Node → Bool
  | .leaf _ f => f == 0
  | .branch f l r => f == 0 && l.zeroFreq && r.zeroFreq

/-- The same of an optional Node. -/
def Slot.zeroFreq : Slot → Bool
  | .absent => true
  | .node n => n.zeroFreq

end

mutual

/-- In every Branch the left child is no heavier than the right: "The lighter subtree is always the left child"
(spec/41_node_and_tree_builder.md R106). -/
def Node.lighterLeft : Node → Bool
  | .leaf _ _ => true
  | .branch _ l r => decide (l.freq.toNat ≤ r.freq.toNat) && l.lighterLeft && r.lighterLeft

/-- The same of an optional Node. -/
def Slot.lighterLeft : Slot → Bool
  | .absent => true
  | .node n => n.lighterLeft

end

mutual

/-- "every Branch has at least one present child" (spec/44_tree_reconstructor.md R127 (b)). -/
def Node.noEmptyBranch : Node → Bool
  | .leaf _ _ => true
  | .branch _ l r => (l.present || r.present) && l.noEmptyBranch && r.noEmptyBranch

/-- The same of an optional Node. -/
def Slot.noEmptyBranch : Slot → Bool
  | .absent => true
  | .node n => n.noEmptyBranch

end

/-- Where a run of bits leads from a place in a tree, left for 0 and right for 1 (R76, R110); no stop at a Leaf. -/
def Slot.follow : Slot → Bits → Slot
  | v, [] => v
  | .absent, _ :: _ => .absent
  | .node n, d :: b => (n.child d).follow b

/-! The heap invariant (R26). -/

/-- The key of heap slot `i`. -/
def keyAt (h : List Node) (i : Nat) : Nat :=
  match h[i]? with
  | some n => n.freq.toNat
  | none => 0

/-- "for every `i` with `1 <= i < PQN`: `freq(H[parent(i)]) <= freq(H[i])`" (R26). -/
abbrev heapOrdered (h : List Node) : Prop := ∀ i < h.length, 0 < i → keyAt h ((i - 1) / 2) ≤ keyAt h i

/-- The place `k` levels above heap slot `i`, `parent(i)` being `(i - 1) div 2` (R26). -/
def ancestor : Nat → Nat → Nat
  | 0, i => i
  | k + 1, i => ancestor k ((i - 1) / 2)

/-- A step down the heap (spec/40_priority_queue.md R82): to the left child when it is no heavier than the right one, to
the right child when that is strictly lighter. -/
def stepsDown (h : List Node) (i j : Nat) : Prop :=
  (j = 2 * i + 1 ∧ (2 * i + 2 < h.length → keyAt h (2 * i + 1) ≤ keyAt h (2 * i + 2))) ∨
  (j = 2 * i + 2 ∧ keyAt h (2 * i + 2) < keyAt h (2 * i + 1))

/-! Code tables. -/

/-- No code in the table is a prefix of the code of another symbol, equal codes counting as prefixes of each other
(spec/42_code_extractor.md R114, spec/44_tree_reconstructor.md R125). -/
def prefixFree (c : CodeTable) : Prop :=
  ∀ x y : Sym, ∀ b d : Code, x ≠ y → codeAt c x = some b → codeAt c y = some d → ¬ b <+: d

/-! The queue drained. -/

/-- The Nodes that `PQExtract` gives one after the other, at most `k` of them (spec/40_priority_queue.md R92). -/
def drain : Nat → List Node → List Node
  | 0, _ => []
  | k + 1, h =>
    match pqExtract h with
    | none => []
    | some (m, h') => m :: drain k h'

/-! What each command writes: the "writes" column of spec/70_reset_and_hazards.md R183, kind of state by kind of
state. `STATUS` is left out there, since every command writes it. -/

/-- The node registers a command writes (R183). -/
def writesReg : Instr → NReg → Bool
  | .reset, _ => true
  | .pqInsert ra, r => r == ra
  | .pqExtractmin rd, r | .ndLeaf rd _, r | .buildtree rd, r | .treefromcode rd, r => r == rd
  | .ndBranch rd ra rb, r => r == rd || r == ra || r == rb
  | .encode, r | .decode, r | .compress, r | .decompress, r => r == .n0
  | .clrstat, _ | .pqClear, _ | .pqPeekmin, _ | .pqSize, _ | .ndInfo _, _ | .freq, _ | .buildcode _, _ => false

/-- The commands that write `H` and `PQN` (R183). -/
def writesQueue : Instr → Bool
  | .reset | .pqClear | .pqInsert _ | .pqExtractmin _ | .buildtree _ | .encode | .compress => true
  | .clrstat | .pqPeekmin | .pqSize | .ndLeaf _ _ | .ndBranch _ _ _ | .ndInfo _ | .freq | .buildcode _
  | .treefromcode _ | .decode | .decompress => false

/-- The commands that write `FT` (R183, spec/10_state.md R28). -/
def writesFt : Instr → Bool
  | .reset | .freq | .encode | .compress => true
  | .clrstat | .pqClear | .pqInsert _ | .pqExtractmin _ | .pqPeekmin | .pqSize | .ndLeaf _ _ | .ndBranch _ _ _
  | .ndInfo _ | .buildtree _ | .buildcode _ | .treefromcode _ | .decode | .decompress => false

/-- The commands that write `CT` (R183, R29). -/
def writesCt : Instr → Bool
  | .reset | .buildcode _ | .encode | .compress | .decompress => true
  | .clrstat | .pqClear | .pqInsert _ | .pqExtractmin _ | .pqPeekmin | .pqSize | .ndLeaf _ _ | .ndBranch _ _ _
  | .ndInfo _ | .freq | .buildtree _ | .treefromcode _ | .decode => false

/-- The commands that write `BITS` and `BITN` (R183, R31). -/
def writesBits : Instr → Bool
  | .reset | .encode | .compress | .decompress => true
  | .clrstat | .pqClear | .pqInsert _ | .pqExtractmin _ | .pqPeekmin | .pqSize | .ndLeaf _ _ | .ndBranch _ _ _
  | .ndInfo _ | .freq | .buildtree _ | .buildcode _ | .treefromcode _ | .decode => false

/-- The commands that write `OBUF` and `OLEN` (R183, R33). -/
def writesOut : Instr → Bool
  | .reset | .decode | .compress | .decompress => true
  | .clrstat | .pqClear | .pqInsert _ | .pqExtractmin _ | .pqPeekmin | .pqSize | .ndLeaf _ _ | .ndBranch _ _ _
  | .ndInfo _ | .freq | .buildtree _ | .buildcode _ | .treefromcode _ | .encode => false

/-- The commands that write `RES.KIND`, `RES.SYM`, `RES.FREQ` (R183, R35). -/
def writesReport : Instr → Bool
  | .reset | .pqExtractmin _ | .pqPeekmin | .ndInfo _ => true
  | .clrstat | .pqClear | .pqInsert _ | .pqSize | .ndLeaf _ _ | .ndBranch _ _ _ | .freq | .buildtree _
  | .buildcode _ | .treefromcode _ | .encode | .decode | .compress | .decompress => false

/-- The state a command leaves when it raises, before `STATUS` is written: its destinations in their cleared state
(spec/60_exceptions.md R164). A buffer whose length is cleared has no defined content (R31, R33). -/
def failureState : Instr → State → State
  | .pqExtractmin rd, s =>
    { s with regs := s.regs.set rd .absent, res := ⟨.noNode, 0, 0, s.res.count⟩ }
  | .pqPeekmin, s => { s with res := ⟨.noNode, 0, 0, s.res.count⟩ }
  | .freq, s => { s with ft := [] }
  | .buildtree rd, s => { s with regs := s.regs.set rd .absent, heap := [] }
  | .buildcode _, s => { s with ct := [] }
  | .treefromcode rd, s => { s with regs := s.regs.set rd .absent }
  | .encode, s =>
    { s with ft := [], regs := s.regs.set .n0 .absent, heap := [], ct := [], bits := [], bitn := 0 }
  | .decode, s => { s with regs := s.regs.set .n0 .absent, obuf := [], olen := 0 }
  | .compress, s =>
    { s with ft := [], regs := s.regs.set .n0 .absent, heap := [], ct := [], bits := [], bitn := 0, obuf := [], olen := 0 }
  | .decompress, s =>
    { s with ct := [], bits := [], bitn := 0, regs := s.regs.set .n0 .absent, obuf := [], olen := 0 }
  | .ndLeaf _ _, s | .ndBranch _ _ _, s | .pqInsert _, s => s
  | .clrstat, s | .reset, s | .pqClear, s | .pqSize, s | .ndInfo _, s => s

/-- The codes a command can raise: the "raised by" column of R158. -/
def raises : Instr → List Completion
  | .clrstat | .reset | .pqClear | .pqSize | .ndInfo _ => []
  | .pqInsert _ => [.illegalOperation, .capacityExceeded]
  | .pqExtractmin _ | .pqPeekmin => [.queueEmpty]
  | .ndLeaf _ _ => [.capacityExceeded]
  | .ndBranch _ _ _ => [.illegalOperation, .capacityExceeded]
  | .freq | .buildtree _ | .encode => [.emptyInput, .capacityExceeded]
  | .buildcode _ => [.emptyInput, .illegalOperation, .capacityExceeded]
  | .treefromcode _ => [.emptyInput, .structuralInconsistency, .capacityExceeded]
  | .decode => [.emptyInput, .capacityExceeded, .structuralInconsistency, .malformedBitstream]
  | .compress => [.emptyInput, .unrepresentable, .capacityExceeded]
  | .decompress => [.formatMismatch, .malformedBitstream, .structuralInconsistency, .capacityExceeded]

/-- The output a host reads after a command, `OBUF[0 .. OLEN-1]` (R33). -/
def State.output (s : State) : List Byte :=
  Cells.window (Config.freeOutput s.draws) s.olen.toNat 0 s.obuf

/-! When a result may be used. -/

/-- "treats a result as present only when the code is 0" (spec/20_memory.md R55, spec/60_exceptions.md R165). -/
def State.resultValid (s : State) : Bool := s.status.code == .ok

/-- `RES` as R35 says it reads: the symbol is 0 unless the reported node is a Leaf, the frequency 0 when there is
none. -/
def Res.legal (r : Res) : Bool :=
  (r.kind == .leaf || r.sym == 0) && (r.kind != .noNode || r.freq == 0) && decide (r.count.toNat ≤ Config.pqCap)

/-- The invariant of the machine. -/
structure State.Inv (s : State) : Prop where
  /-- the memories and tables are in canonical form and inside their spaces -/
  wf : Memory.wf s = true
  /-- `0 <= PQN <= PQ_CAP` (R25) -/
  queueFits : s.heap.length ≤ Config.pqCap
  /-- the heap invariant (R26) -/
  ordered : heapOrdered s.heap
  /-- `Live(S) <= NODE_CAP` (R24) -/
  liveFits : s.live ≤ Config.nodeCap
  /-- the Branch frequency invariant of every Node in the queue (R21) -/
  heapSums : ∀ n ∈ s.heap, n.sumOk = true
  /-- the Branch frequency invariant of every Node in a register (R21) -/
  regSums : ∀ r : NReg, (s.reg r).sumOk = true
  /-- the counts of `FT` add up to at most `IBUF_CAP + 1` (spec/41_node_and_tree_builder.md R100) -/
  countsFit : (s.ft.map (·.2.toNat)).sum ≤ Config.ibufCap + 1
  /-- `OLEN` is 0 to `OBUF_CAP` (R37) -/
  outFits : s.olen.toNat ≤ Config.obufCap
  /-- exactly the bytes `OBUF[0 .. OLEN-1]` have a value (R33) -/
  outDefined : s.obuf.map (·.1) = List.range s.olen.toNat
  /-- `RES` reads as R35 says -/
  resLegal : s.res.legal = true
  /-- between steps `STATUS.BUSY` reads 0 (R36) -/
  notBusy : s.status.busy = false

end Sys2Proof.Machine
end

