-- ==== Sys2Proof/Certificates/Slice0/Obligations.lean ====
section
/-! DEFINITION. The statements for the provers. -/

open Sys2Proof Sys2Proof.Machine

/-! ### Encoding -/

/-- Words of spec/95_test_vectors.md E1 and E2, written out from the encodings of R60, R61 and R65. -/
def Obligations.DecoderReadsTheSpecsWords : Prop :=
  decode 0x01000000 = .ok .clrstat ∧ decode 0x02000000 = .ok .reset ∧
  decode 0x11000200 = .ok (.pqInsert .n2) ∧ decode 0x12003000 = .ok (.pqExtractmin .n3) ∧
  decode 0x20611000 = .ok (.ndLeaf .n1 0x61) ∧ decode 0x21003210 = .ok (.ndBranch .n3 .n2 .n1) ∧
  decode 0x32000300 = .ok (.buildcode .n3) ∧ decode 0x31001000 = .ok (.buildtree .n1) ∧
  decode 0x40000000 = .ok .encode ∧ decode 0x43000000 = .ok .decompress ∧
  decode 0x00000000 = .error .unassignedOpcode ∧ decode 0xFFFFFFFF = .error .unassignedOpcode ∧
  decode 0x11000400 = .error .registerAbove3 ∧ decode 0x20611001 = .error .nonzeroField

/-- Decoding the encoding of a command gives the command, with every operand at every value (R60, R65, R66). -/
def Obligations.DecodeOfEncodeIsTheCommand : Prop := ∀ i : Instr, decode (encode i) = .ok i

/-- The other direction: a word that decodes is the encoding of what it decodes to, so no bit is dropped (R66:
"the word is that command with the operand fields read from the positions of rule R60"). -/
def Obligations.EncodeOfDecodedWordIsTheWord : Prop :=
  ∀ (w : Word) (i : Instr), decode w = .ok i → encode i = w

/-- "the masks are such that at most one matches" (R66). -/
def Obligations.AtMostOneRowMatches : Prop := ∀ w : Word, (opcodeRows.filter (spells w)).length ≤ 1

/-- The words that are not illegal are those whose opcode is assigned and whose fields are well formed for its
format: every unassigned opcode, non-zero must-be-zero field and register number above 3 is refused (R61, R62,
R67). -/
def Obligations.DecodableWordsAreTheWellFormedOnes : Prop :=
  ∀ w : Word, (∃ i, decode w = .ok i) ↔
    ∃ row ∈ opcodeRows, row.op = (fieldsOf w).op ∧ (fieldsOf w).wellFormed row.fmt = true

/-! ### Steps and the host -/

/-- A write of `CMD` while `BUSY` is 0 runs the decoded command: the step is `exec` of it, in the state in which `BUSY` is
1 (R27, R36, R41, R186). That the host's move has been taken off the list and a draw of the free values with it is the
model's own (notes/assumptions/1.md, 3.md). -/
def Obligations.StepRunsTheDecodedCommand : Prop :=
  ∀ (s : State) (w : Word) (rest : List Move) (i : Instr),
    s.host = .write (.reg 0) w :: rest → s.status.busy = false → decode w = .ok i →
    step s = exec i { s with host := rest, draws := s.draws + 1, status := { s.status with busy := true } }

/-- An illegal word written to `CMD` changes nothing but `STATUS.CODE` (8) and `STATUS.FATAL` (1), and is one step
like any command (R67, R155). The move taken off the list and the draw are the model's choice (DESIGN CHOICE,
notes/assumptions/1.md and 3.md). -/
def Obligations.IllegalWordChangesOnlyStatus : Prop :=
  ∀ (s : State) (w : Word) (rest : List Move) (why : Illegal),
    s.host = .write (.reg 0) w :: rest → s.status.busy = false → decode w = .error why →
    step s = .next { s with host := rest, draws := s.draws + 1, status := ⟨.illegalOperation, true, false⟩ }

/-- Every step gives a next state, from every state: no command stops the hardware and there are no stuck states
(R156, R185, R188). -/
def Obligations.EveryStepGivesANextState : Prop := ∀ s : State, ∃ t, step s = .next t

/-- A host read has no side effect: every piece of the hardware's state is as before (R41, R49). The list of moves, the
port's word (the value read) and the draw, which do change, are the model's own (notes/assumptions/1.md, 2.md, 3.md). -/
def Obligations.HostReadChangesNothing : Prop :=
  ∀ (s : State) (loc : Loc) (rest : List Move), s.host = .read loc :: rest →
    step s = .next { s with host := rest, draws := s.draws + 1,
                            port := State.hostRead { s with host := rest, draws := s.draws + 1 } loc }

/-- A hardware reset, from any state, gives the reset state (R175, R176, R177). That the coming moves, the port's word
and the draw number are kept over it is the model's choice, since they are no state of the hardware (DESIGN CHOICE,
notes/assumptions/1.md, 2.md, 3.md). With no move pending a step keeps the state: DEDUCED from R174,
notes/assumptions/5.md. -/
def Obligations.HardResetAndIdleSteps : Prop :=
  (∀ (s : State) (rest : List Move), s.host = .hardReset :: rest →
    step s = .next { State.reset with host := rest, draws := s.draws + 1, port := s.port }) ∧
  ∀ s : State, s.host = [] → step s = .next s

/-- The host sees through the `REG` space what R37 lays out: `STATUS` as `CODE + 16 * FATAL`, `ARG`, `ILEN`, `OLEN`,
`BITN`, `PQN`, `RES_NODE`, `RES_FREQ`, `RES_COUNT`, the presence bits of `NVALID`; `CMD` and numbers above 10 read
0. -/
def Obligations.ControlRegistersReadAsLaidOut : Prop :=
  ∀ s : State, s.status.busy = false →
    (s.hostRead (.reg 1)).toNat = s.status.code.number.toNat + 16 * s.status.fatal.toNat ∧
    s.hostRead (.reg 2) = s.arg ∧ s.hostRead (.reg 3) = s.ilen ∧ s.hostRead (.reg 4) = s.olen ∧
    s.hostRead (.reg 5) = s.bitn ∧ (s.hostRead (.reg 6)).toNat = s.heap.length % 2 ^ 32 ∧
    (s.hostRead (.reg 7)).toNat = s.res.kind.number.toNat + 256 * s.res.sym.toNat ∧
    s.hostRead (.reg 8) = s.res.freq ∧ s.hostRead (.reg 9) = s.res.count ∧
    (s.hostRead (.reg 10)).toNat = s.regs.n0.present.toNat + 2 * s.regs.n1.present.toNat
      + 4 * s.regs.n2.present.toNat + 8 * s.regs.n3.present.toNat ∧
    s.hostRead (.reg 0) = 0 ∧ ∀ r, 10 < r → s.hostRead (.reg r) = 0

/-- Host writes. A step whose move is a write of a place other than `CMD` does that write and nothing else (R54, R57,
R186); while `BUSY` is 1 every host write is ignored, one of `CMD` included (R56). Of the control registers `ARG`, `ILEN`
and `BITN` take the word, and it changes nothing else; every other number but 0 (`CMD`) ignores it (R37). A host write of
any place changes at most the one piece of state the place belongs to: node registers, queue, `FT`, `OBUF`, `OLEN`, `RES`
and `STATUS` stay whatever is written, and so does every other space and register (R54). The move taken off the list and
the draw are the model's choice (notes/assumptions/1.md, 3.md), and so is that a state with `BUSY` = 1 is looked at
between steps (notes/assumptions/10.md). -/
def Obligations.ControlRegisterWrites : Prop :=
  (∀ (s : State) (loc : Loc) (x : Word) (rest : List Move), s.host = .write loc x :: rest → loc ≠ .reg 0 →
    step s = .next (State.hostWrite { s with host := rest, draws := s.draws + 1 } loc x)) ∧
  (∀ (s : State) (x : Word) (rest : List Move), s.host = .write (.reg 0) x :: rest → s.status.busy = true →
    step s = .next { s with host := rest, draws := s.draws + 1 }) ∧
  (∀ (s : State) (loc : Loc) (x : Word), s.status.busy = true → s.hostWrite loc x = s) ∧
  (∀ (s : State) (x : Word), s.status.busy = false →
    s.hostWrite (.reg 2) x = { s with arg := x } ∧ s.hostWrite (.reg 3) x = { s with ilen := x } ∧
    s.hostWrite (.reg 5) x = { s with bitn := x } ∧
    ∀ r, r ≠ 0 → r ≠ 2 → r ≠ 3 → r ≠ 5 → s.hostWrite (.reg r) x = s) ∧
  ∀ (s : State) (loc : Loc) (x : Word),
    s.hostWrite loc x = match loc with
      | .reg 2 => { s with arg := (s.hostWrite loc x).arg }
      | .reg 3 => { s with ilen := (s.hostWrite loc x).ilen }
      | .reg 5 => { s with bitn := (s.hostWrite loc x).bitn }
      | .ibuf _ => { s with ibuf := (s.hostWrite loc x).ibuf }
      | .bits _ => { s with bits := (s.hostWrite loc x).bits }
      | .ct _ _ => { s with ct := (s.hostWrite loc x).ct }
      | .reg _ | .obuf _ | .ft _ => s

/-- A host write of a byte of `IBUF` is what the next read of that place returns and what the next command reads there
(R42, R57), and every other byte of `IBUF` reads as before; at an index past the end it is ignored (R52). What a command
reads as its input is `IBUF[0 .. ILEN-1]`, byte by byte what the host reads there (R32, R51). That a byte goes in and out
in the low eight bits of a 32-bit word whose upper bits are ignored and read 0 is the model's choice (DESIGN CHOICE,
unsafe, notes/assumptions/4.md). -/
def Obligations.InputBufferReadAfterWrite : Prop :=
  ∀ (s : State) (a : Nat) (x : Word), s.status.busy = false →
    (a < Config.ibufCap →
      ((s.hostWrite (.ibuf a) x).hostRead (.ibuf a)).toNat = x.toNat % 256 ∧
      (∀ b, b ≠ a → (s.hostWrite (.ibuf a) x).hostRead (.ibuf b) = s.hostRead (.ibuf b)) ∧
      (Memory.wf s = true → ∀ u : State, u.ibuf = (s.hostWrite (.ibuf a) x).ibuf → a < u.ilen.toNat →
        u.inputBytes[a]? = some (x.setWidth 8))) ∧
    (Config.ibufCap ≤ a → s.hostWrite (.ibuf a) x = s) ∧
    (Memory.wf s = true →
      s.inputBytes.length = s.ilen.toNat ∧
      ∀ b, b < s.ilen.toNat → b < Config.ibufCap → s.inputBytes[b]? = some ((s.hostRead (.ibuf b)).setWidth 8))

/-- `BITS` is packed most significant bit first both ways (R44): a host write of a byte stores all eight positions, bit
`k` of the sequence being bit `7 - (k mod 8)` of byte `k div 8`, and leaves the other bits and `BITN`; the next command
reads the bits so written, as far as `BITN` goes (R57); and what a command reads as its bits is `BITS[0 .. BITN-1]`, bit
by bit what the host reads there (R31, R51). That the byte is the low eight bits of a 32-bit word is notes/assumptions/4.md
(DESIGN CHOICE); that it is stored wherever `BITN` stands, to count when `BITN` is raised, is notes/assumptions/7.md
(DEDUCED, unsafe). -/
def Obligations.BitBufferWriteIsMsbFirst : Prop :=
  ∀ (s : State) (a k : Nat) (x : Word), s.status.busy = false →
    (a < Config.bitCap / 8 →
      (s.hostWrite (.bits a) x).bitn = s.bitn ∧
      (Cells.get (s.hostWrite (.bits a) x).bits k =
        if k / 8 = a then some (x.getLsbD (7 - k % 8)) else Cells.get s.bits k) ∧
      (Memory.wf s = true → ∀ u : State, u.bits = (s.hostWrite (.bits a) x).bits → k / 8 = a → k < u.bitn.toNat →
        u.inputBits[k]? = some (x.getLsbD (7 - k % 8)))) ∧
    (Memory.wf s = true →
      s.inputBits.length = s.bitn.toNat ∧
      (k < s.bitn.toNat → k < Config.bitCap →
        s.inputBits[k]? = some ((s.hostRead (.bits (k / 8))).getLsbD (7 - k % 8))))

/-- The `CT` space (R46), in a state whose memories are in canonical form. WRITES: after the host has made an entry
present with word 0 and then written the eight code words, a command reads the entry with the length of bits 7 to 0 and
code bit `j` = bit `31 - (j mod 32)` of word `1 + j div 32`; where the entry was absent the code words may come first; a
word 0 with bit 8 = 0 makes it absent; in a present entry a code word wholly beyond the code is ignored (P2-2), and one the
code reaches stores all its bits, those past the length too, which count when a later word 0 is longer, while the bits of
the other words stay; every other entry stays. READS: word 0 gives presence and length, the code words the bits of the code and 0 past
its length and in an absent entry. The (entry, word) address is notes/assumptions/4.md (DESIGN CHOICE); the writes to an
absent entry and past the length are the model's reading of R46 with P2-2 (DEDUCED, unsafe, notes/assumptions/9.md); bits 31 to 9 of
word 0 are notes/assumptions/18.md (DESIGN CHOICE). -/
def Obligations.CodeTableEntryWrites : Prop :=
  ∀ (s : State) (k : Nat) (ws : Nat → Word) (x : Word), Memory.wf s = true → s.status.busy = false → k < 256 →
    let words (t : State) := (List.range 8).foldl (fun t v => t.hostWrite (.ct k (v + 1)) (ws v)) t
    let c := (List.range (x.toNat % 256)).map fun j => (ws (j / 32)).getLsbD (31 - j % 32)
    let b := (s.codeOf k).getD []
    (x.getLsbD 8 = true →
      (words (s.hostWrite (.ct k 0) x)).codeOf k = some c ∧
      (s.codeOf k = none → ((words s).hostWrite (.ct k 0) x).codeOf k = some c)) ∧
    (x.getLsbD 8 = false → (s.hostWrite (.ct k 0) x).codeOf k = none) ∧
    (∀ (v : Nat) (y : Word), s.codeOf k ≠ none →
      (b.length ≤ 32 * v → (s.hostWrite (.ct k (v + 1)) y).ctEntry k = s.ctEntry k) ∧
      (32 * v < b.length → ∀ j,
        (((s.hostWrite (.ct k (v + 1)) y).hostWrite (.ct k 0) x).codeOf k).bind (·[j]?) =
          ((s.hostWrite (.ct k 0) x).codeOf k).bind fun d =>
            if j / 32 = v ∧ j < d.length then some (y.getLsbD (31 - j % 32)) else d[j]?)) ∧
    (∀ j, j ≠ k → (words (s.hostWrite (.ct k 0) x)).ctEntry j = s.ctEntry j ∧
      ((words s).hostWrite (.ct k 0) x).ctEntry j = s.ctEntry j ∧
      ∀ (w : Nat) (y : Word), (s.hostWrite (.ct k w) y).ctEntry j = s.ctEntry j) ∧
    (s.hostRead (.ct k 0)).toNat = (if (s.codeOf k).isSome then 256 + b.length else 0) ∧
    ∀ j < 256, (s.hostRead (.ct k (1 + j / 32))).getLsbD (31 - j % 32) = (b[j]?).getD false

/-- `FT[s]` reads at index `s` of the `FT` space (R45); `OBUF[a]` reads, for `a < OLEN`, the byte of the output a command
left there (R43); a host write of `OBUF` or `FT` is ignored, and so is a write of a space at an index out of range (R43,
R45, R52). That a byte comes in the low eight bits of the port's word, and that a word number of `CT` above 8 is out of
range, is the model's choice (DESIGN CHOICE, notes/assumptions/4.md). -/
def Obligations.ReadOnlySpacesIgnoreWrites : Prop :=
  ∀ (s : State) (x : Word) (a w : Nat),
    s.hostWrite (.obuf a) x = s ∧ s.hostWrite (.ft a) x = s ∧
    (s.status.busy = false → ∀ y : Sym, s.hostRead (.ft y.toNat) = countAt s.ft y) ∧
    (s.status.busy = false → Memory.wf s = true →
      s.output.length = s.olen.toNat ∧
      (a < s.olen.toNat → a < Config.obufCap → s.output[a]? = some ((s.hostRead (.obuf a)).setWidth 8))) ∧
    (Config.bitCap / 8 ≤ a → s.hostWrite (.bits a) x = s) ∧
    (256 ≤ a ∨ 9 ≤ w → s.hostWrite (.ct a w) x = s)

/-! ### Reset -/

/-- The `RESET` command, from any state, leaves the reset state of R39 (R154): every register, table and length, and no
live Node. That the host's list, the port's word and the draw number are kept is the model's choice, since they are no
state of the hardware (DESIGN CHOICE, notes/assumptions/1.md, 2.md, 3.md). -/
def Obligations.ResetLeavesTheResetState : Prop :=
  decode 0x02000000 = .ok .reset ∧ ∀ s : State, ∃ t, exec .reset s = .next t ∧
    (∀ r, t.reg r = .absent) ∧ t.heap = [] ∧ (∀ y, countAt t.ft y = 0) ∧ (∀ k, t.codeOf k = none) ∧
    t.bitn = 0 ∧ t.ilen = 0 ∧ t.olen = 0 ∧ t.arg = 0 ∧ t.res = ⟨.noNode, 0, 0, 0⟩ ∧
    t.status = ⟨.ok, false, false⟩ ∧ t.live = 0 ∧ t.host = s.host ∧ t.port = s.port ∧ t.draws = s.draws

/-- `CLRSTAT` writes 0 to `CODE` and `FATAL`; "Nothing else changes"; no other command but `RESET` clears `FATAL`
(R153). -/
def Obligations.ClrstatClearsOnlyStatus : Prop :=
  decode 0x01000000 = .ok .clrstat ∧
  (∀ s : State, exec .clrstat s = .next { s with status := ⟨.ok, false, false⟩ }) ∧
  ∀ (i : Instr) (s t : State), i ≠ .clrstat → i ≠ .reset → s.status.fatal = true → exec i s = .next t →
    t.status.fatal = true

/-! ### Whole-machine rules -/

/-- The invariant holds after reset. -/
def Obligations.ResetStateMeetsInvariant : Prop := State.reset.Inv

/-- Every step keeps the invariant: canonical memories, the heap order and `PQN <= PQ_CAP` (R25, R26), the node limit
(R24), the Branch frequency invariant (R21), the counts' bound (R100), `OLEN` and the bytes it covers (R33, R37),
`RES` (R35), `BUSY` = 0 (R36). -/
def Obligations.EveryStepKeepsInvariant : Prop := ∀ s t : State, s.Inv → step s = .next t → t.Inv

/-- How every command ends (R163, R36, R159): `FATAL` is set by a fatal code and otherwise as it was, except for
`CLRSTAT` and `RESET`, which clear it; `BUSY` is 0. -/
def Obligations.FatalFlagIsSticky : Prop :=
  ∀ (i : Instr) (s t : State), exec i s = .next t →
    t.status.busy = false ∧
    (i = .clrstat ∨ i = .reset → t.status = ⟨.ok, false, false⟩) ∧
    (i ≠ .clrstat → i ≠ .reset → t.status.fatal = (s.status.fatal || t.status.code.isFatal))

/-- A failed command leaves no partial result: its state is the failure state of R164's table with the code in
`STATUS`, and nothing that is no destination changes. (That a cleared buffer's content is undefined, and is dropped,
is notes/assumptions/6.md.) -/
def Obligations.FailedCommandsLeaveDestinationsCleared : Prop :=
  ∀ (i : Instr) (s t : State), exec i s = .next t → t.status.code ≠ .ok →
    t = { failureState i s with
      status := ⟨t.status.code, s.status.fatal || t.status.code.isFatal, false⟩ }

/-- A command ends with success or with one of the codes R158 lists it under. -/
def Obligations.CommandsRaiseOnlyTheirCodes : Prop :=
  ∀ (i : Instr) (s t : State), exec i s = .next t → t.status.code = .ok ∨ t.status.code ∈ raises i

/-- The frame of every command over node registers, queue, `RES` and `ARG`, whatever code it ends with: what R183's
row does not name is unchanged. The last clause, on the host's list, the port's word and the draw number, `RESET` included,
is the model's own and no rule's (DESIGN CHOICE, notes/assumptions/1.md, 2.md, 3.md). -/
def Obligations.RegistersAndQueueFrame : Prop :=
  ∀ (i : Instr) (s t : State), exec i s = .next t →
    (∀ r, writesReg i r = false → t.reg r = s.reg r) ∧
    (writesQueue i = false → t.heap = s.heap) ∧
    (writesReport i = false → t.res.kind = s.res.kind ∧ t.res.sym = s.res.sym ∧ t.res.freq = s.res.freq) ∧
    (i ≠ .pqSize → i ≠ .reset → t.res.count = s.res.count) ∧
    (i ≠ .reset → t.arg = s.arg) ∧
    t.host = s.host ∧ t.port = s.port ∧ t.draws = s.draws

/-- The frame of every command over the tables and buffers, in every state and whatever code it ends with: what R183's
row does not name is unchanged, every byte and word of it as the port shows it between commands included; "No command
writes `IBUF` or `ILEN`" but the reset. -/
def Obligations.TablesAndBuffersFrame : Prop :=
  ∀ (i : Instr) (s t : State), exec i s = .next t →
    (i ≠ .reset → t.ilen = s.ilen ∧ t.ibuf = s.ibuf ∧ ∀ a, t.readPlace (.ibuf a) = s.readPlace (.ibuf a)) ∧
    (writesOut i = false → t.olen = s.olen ∧ t.obuf = s.obuf ∧ ∀ a, t.readPlace (.obuf a) = s.readPlace (.obuf a)) ∧
    (writesBits i = false → t.bitn = s.bitn ∧ t.bits = s.bits ∧ ∀ a, t.readPlace (.bits a) = s.readPlace (.bits a)) ∧
    (writesFt i = false → t.ft = s.ft ∧ ∀ y, t.readPlace (.ft y) = s.readPlace (.ft y)) ∧
    (writesCt i = false → t.ct = s.ct ∧ ∀ y w, t.readPlace (.ct y w) = s.readPlace (.ct y w))

/-! ### The priority queue -/

/-- `PQ.CLEAR` (R83) and `PQ.SIZE` (R89), from every state: the queue becomes empty; `RES.COUNT` takes `PQN`, the
number control register 6 reads; nothing else but `STATUS.CODE` changes. -/
def Obligations.QueueClearAndSize : Prop :=
  decode 0x10000000 = .ok .pqClear ∧ decode 0x14000000 = .ok .pqSize ∧ ∀ s : State,
    (s.status.busy = false → s.hostRead (.reg 6) = BitVec.ofNat 32 s.heap.length) ∧
    exec .pqClear s = .next { s with heap := [], status := ⟨.ok, s.status.fatal, false⟩ } ∧
    exec .pqSize s = .next { s with res := { s.res with count := BitVec.ofNat 32 s.heap.length },
                                    status := ⟨.ok, s.status.fatal, false⟩ }

/-- `PQ.INSERT ra` (R85). On a present register and a queue that is not full the Node moves into the heap, by
`PQInsert`, which as a multiset is then the old one and the Node (R92), and is in heap order if it was (R91). The Node goes
into slot `PQN` and rises `d` levels towards the root: each ancestor it passes is strictly heavier and moves one level down
the path, the parent where it comes to rest is not heavier, and every slot off the path stays (R82, R84). An absent
register is tested first, then a full queue; on either nothing but `STATUS` changes and the register keeps what it
held. `Live` is unchanged by a successful insert. R85 has a full queue at `PQN = PQ_CAP`; that a queue above it, which no
run reaches, counts as full is notes/assumptions/12.md (DEDUCED). -/
def Obligations.QueueInsertMovesTheNode : Prop :=
  ∀ (s : State) (ra : NReg),
    decode (0x11000000 + (ra.field.setWidth 32 <<< 8)) = .ok (.pqInsert ra) ∧
    (∀ n, s.reg ra = .node n → s.heap.length < Config.pqCap →
      exec (.pqInsert ra) s = .next { s with heap := pqInsert s.heap n, regs := s.regs.set ra .absent,
                                             status := ⟨.ok, s.status.fatal, false⟩ } ∧
      (s.regs.set ra .absent).live + heapLive (pqInsert s.heap n) = s.live ∧
      (pqInsert s.heap n).Perm (n :: s.heap) ∧ (heapOrdered s.heap → heapOrdered (pqInsert s.heap n)) ∧
      let place (k : Nat) := ancestor k s.heap.length
      ∃ d,
        (∀ k < d, 0 < place k ∧ ∃ m, s.heap[place (k + 1)]? = some m ∧ n.freq.toNat < m.freq.toNat ∧
          (pqInsert s.heap n)[place k]? = some m) ∧
        (pqInsert s.heap n)[place d]? = some n ∧
        (0 < place d → ∃ m, s.heap[place (d + 1)]? = some m ∧ m.freq.toNat ≤ n.freq.toNat) ∧
        ∀ j, (∀ k ≤ d, j ≠ place k) → (pqInsert s.heap n)[j]? = s.heap[j]?) ∧
    (s.reg ra = .absent →
      exec (.pqInsert ra) s = .next { s with status := ⟨.illegalOperation, true, false⟩ }) ∧
    (s.reg ra ≠ .absent → Config.pqCap ≤ s.heap.length →
      exec (.pqInsert ra) s = .next { s with status := ⟨.capacityExceeded, true, false⟩ })

/-- `PQ.EXTRACTMIN rd` (R87). On a queue that is not empty the root leaves the heap and goes to `N[rd]`, `RES` reports
it; as a multiset the heap loses exactly it; if the heap was in order, it is a Node of least frequency and the heap
stays in order (R26, R91, R92). On an empty queue `N[rd]` is cleared, `RES` zeroed and the code is `QueueEmpty`, not
fatal. Nothing else changes. -/
def Obligations.QueueExtractTakesTheMinimum : Prop :=
  ∀ (s : State) (rd : NReg),
    decode (0x12000000 + (rd.field.setWidth 32 <<< 12)) = .ok (.pqExtractmin rd) ∧
    (s.heap ≠ [] →
      ∃ m h,
        exec (.pqExtractmin rd) s = .next { s with heap := h, regs := s.regs.set rd (.node m),
                                                   res := ⟨m.kind, m.sym, m.freq, s.res.count⟩,
                                                   status := ⟨.ok, s.status.fatal, false⟩ } ∧
        pqExtract s.heap = some (m, h) ∧ s.heap.head? = some m ∧ s.heap.Perm (m :: h) ∧
        (heapOrdered s.heap → heapOrdered h ∧ ∀ n ∈ s.heap, m.freq.toNat ≤ n.freq.toNat)) ∧
    (s.heap = [] →
      exec (.pqExtractmin rd) s = .next { s with regs := s.regs.set rd .absent,
                                                 res := ⟨.noNode, 0, 0, s.res.count⟩,
                                                 status := ⟨.queueEmpty, s.status.fatal, false⟩ })

/-- `PQ.PEEKMIN` (R88): on a queue that is not empty `RES` reports the root, which is the Node the next extract
returns, and nothing is removed; on an empty one `RES` is zeroed and the code is `QueueEmpty`, not fatal. Nothing else
changes. -/
def Obligations.QueuePeekReportsTheRoot : Prop :=
  decode 0x13000000 = .ok .pqPeekmin ∧ ∀ s : State,
    (∀ m h, s.heap = m :: h → (pqExtract s.heap).map (·.1) = some m ∧
      exec .pqPeekmin s = .next { s with res := ⟨m.kind, m.sym, m.freq, s.res.count⟩,
                                         status := ⟨.ok, s.status.fatal, false⟩ }) ∧
    (s.heap = [] →
      exec .pqPeekmin s = .next { s with res := ⟨.noNode, 0, 0, s.res.count⟩,
                                         status := ⟨.queueEmpty, s.status.fatal, false⟩ })

/-- "extracting all nodes yields a non-decreasing frequency sequence" (R92), and gives every Node of the heap once. -/
def Obligations.DrainingTheQueueIsSorted : Prop :=
  ∀ h : List Node, heapOrdered h →
    (drain h.length h).Perm h ∧ (drain h.length h).Pairwise (fun a b => a.freq.toNat ≤ b.freq.toNat)

/-- The tie-break is not first-in first-out: three Nodes of one frequency inserted as X, Y, Z stand in that order, the
first extract leaves `[Z, Y]`, and they come out X, Z, Y (R94). A displaced root heavier than its two children of one
frequency changes places with the left one (R82), and at every place of a heap the way down is to the left child when that
is lighter than the element and no heavier than the right one, to the right child when that is lighter than both, and
nowhere when neither child is lighter (R82). An extract puts the last element in the root's place and lets it sink along
that way (R86): each Node it passes is strictly lighter and moves one level up, no child where it comes to rest is lighter,
and every slot off the path stays. -/
def Obligations.EqualFrequenciesComeOutXZY : Prop :=
  (∀ x y z : Node, x.freq = y.freq → y.freq = z.freq →
    pqInsert (pqInsert (pqInsert [] x) y) z = [x, y, z] ∧ pqExtract [x, y, z] = some (x, [z, y]) ∧
    pqExtract [z, y] = some (z, [y]) ∧ drain 3 [x, y, z] = [x, z, y]) ∧
  (∀ m x y z : Node, x.freq = y.freq → y.freq.toNat < z.freq.toNat →
    pqExtract [m, x, y, z] = some (m, [x, z, y])) ∧
  (∀ (h : List Node) (i : Nat),
    let l := 2 * i + 1
    let r := 2 * i + 2
    (l < h.length → keyAt h l < keyAt h i → (r < h.length → keyAt h l ≤ keyAt h r) → downTo h i = l) ∧
    (r < h.length → keyAt h r < keyAt h i → keyAt h r < keyAt h l → downTo h i = r) ∧
    ((l < h.length → keyAt h i ≤ keyAt h l) → (r < h.length → keyAt h i ≤ keyAt h r) → downTo h i = i)) ∧
  ∀ (root last : Node) (others : List Node),
    let g := last :: others
    ∃ (h : List Node) (place : Nat → Nat) (e : Nat), pqExtract (root :: (others ++ [last])) = some (root, h) ∧
      place 0 = 0 ∧
      (∀ k < e, stepsDown g (place k) (place (k + 1)) ∧ ∃ m, g[place (k + 1)]? = some m ∧
        m.freq.toNat < last.freq.toNat ∧ h[place k]? = some m) ∧
      h[place e]? = some last ∧
      (∀ j, j = 2 * place e + 1 ∨ j = 2 * place e + 2 → ∀ m, g[j]? = some m → last.freq.toNat ≤ m.freq.toNat) ∧
      ∀ j, (∀ k ≤ e, j ≠ place k) → h[j]? = g[j]?

/-! ### Nodes -/

/-- `ND.LEAF rd, sym` (R96): `N[rd]` becomes `Leaf(sym, ARG)` while the result state keeps within the node limit, and
nothing else changes; past the limit `CapacityExceeded`, and nothing but `STATUS` changes. -/
def Obligations.LeafTakesSymbolAndArg : Prop :=
  ∀ (s : State) (rd : NReg) (sym : Sym),
    let r := { s with regs := s.regs.set rd (.node (.leaf sym s.arg)) }
    decode (0x20000000 + (sym.setWidth 32 <<< 16) + (rd.field.setWidth 32 <<< 12)) = .ok (.ndLeaf rd sym) ∧
    (r.live ≤ Config.nodeCap →
      exec (.ndLeaf rd sym) s = .next { r with status := ⟨.ok, s.status.fatal, false⟩ }) ∧
    (Config.nodeCap < r.live →
      exec (.ndLeaf rd sym) s = .next { s with status := ⟨.capacityExceeded, true, false⟩ })

/-- `ND.BRANCH rd, ra, rb` (R97, R98). Of two present registers whose frequencies' sum fits, both Nodes move into a
Branch of exactly that sum, `N[ra]` left and `N[rb]` right, and `N[rd]` is written last; nothing else changes. The
tests come in the order written: the same register twice, an absent source, the sum, the node limit; on each nothing
but `STATUS` changes. -/
def Obligations.BranchJoinsTwoNodes : Prop :=
  ∀ (s : State) (rd ra rb : NReg),
    decode (0x21000000 + (rd.field.setWidth 32 <<< 12) + (ra.field.setWidth 32 <<< 8) + (rb.field.setWidth 32 <<< 4))
      = .ok (.ndBranch rd ra rb) ∧
    (ra = rb ∨ s.reg ra = .absent ∨ s.reg rb = .absent →
      exec (.ndBranch rd ra rb) s = .next { s with status := ⟨.illegalOperation, true, false⟩ }) ∧
    ∀ a b : Node, ra ≠ rb → s.reg ra = .node a → s.reg rb = .node b →
      (2 ^ 32 ≤ a.freq.toNat + b.freq.toNat →
        exec (.ndBranch rd ra rb) s = .next { s with status := ⟨.capacityExceeded, true, false⟩ }) ∧
      (a.freq.toNat + b.freq.toNat < 2 ^ 32 →
        ∃ f : Freq, f.toNat = a.freq.toNat + b.freq.toNat ∧
          let r := { s with regs :=
            ((s.regs.set ra .absent).set rb .absent).set rd (.node (.branch f (.node a) (.node b))) }
          (r.live ≤ Config.nodeCap →
            exec (.ndBranch rd ra rb) s = .next { r with status := ⟨.ok, s.status.fatal, false⟩ }) ∧
          (Config.nodeCap < r.live →
            exec (.ndBranch rd ra rb) s = .next { s with status := ⟨.capacityExceeded, true, false⟩ }))

/-- `ND.INFO ra` (R99): `RES` reports the root of `N[ra]`, or "no node" as (0, 0, 0) with code 0; nothing else
changes. -/
def Obligations.InfoReportsARegister : Prop :=
  ∀ (s : State) (ra : NReg),
    decode (0x22000000 + (ra.field.setWidth 32 <<< 8)) = .ok (.ndInfo ra) ∧
    (s.reg ra = .absent →
      exec (.ndInfo ra) s = .next { s with res := ⟨.noNode, 0, 0, s.res.count⟩,
                                           status := ⟨.ok, s.status.fatal, false⟩ }) ∧
    ∀ n, s.reg ra = .node n →
      exec (.ndInfo ra) s = .next { s with res := ⟨n.kind, n.sym, n.freq, s.res.count⟩,
                                           status := ⟨.ok, s.status.fatal, false⟩ }

/-! ### The frequency table and the tree builder -/

/-- `FREQ` (R100, R101): for `1 <= ILEN <= IBUF_CAP`, `FT[s]` becomes the number of input bytes equal to `s`, for
every `s`, and nothing else changes; past the capacity and on an empty input `FT` is cleared and the code says
which. -/
def Obligations.FreqCountsTheInput : Prop :=
  decode 0x30000000 = .ok .freq ∧ ∀ s : State,
    (s.ilen ≠ 0 → s.ilen.toNat ≤ Config.ibufCap →
      ∃ t, exec .freq s = .next { s with ft := t, status := ⟨.ok, s.status.fatal, false⟩ } ∧
        ∀ y, (countAt t y).toNat = s.inputBytes.count y) ∧
    (Config.ibufCap < s.ilen.toNat →
      exec .freq s = .next { s with ft := [], status := ⟨.capacityExceeded, true, false⟩ }) ∧
    (s.ilen = 0 →
      exec .freq s = .next { s with ft := [], status := ⟨.emptyInput, s.status.fatal, false⟩ })

/-- The merge step takes the root of the heap as the left child and the root of what remains as the right one, puts the
Branch of their exact sum back into the queue, and raises where the sum does not fit; on a heap in order the left child is
the lighter and neither is heavier than any Node left (R106). The tree builder, on a frequency table that is not all zero
and whose counts' sum fits, puts the Leaves of the keys into an empty queue one after the other in increasing order of
symbol (R103), makes as many merge steps as there are keys less one, and gives the Node that is then left (R105): a tree with one Leaf for each key, of that key's count, one Branch fewer than Leaves,
complete, every Branch's frequency the sum of its children's, in every Branch the left child no heavier than the right
(R106), the root's frequency the sum of all counts, and no Leaf deeper than the number of keys less one (R108). -/
def Obligations.BuiltTreeProperties : Prop :=
  (∀ (h h1 h2 : List Node) (a b : Node), pqExtract h = some (a, h1) → pqExtract h1 = some (b, h2) →
    (a.freq.toNat + b.freq.toNat < 2 ^ 32 → ∃ f : Freq, f.toNat = a.freq.toNat + b.freq.toNat ∧
      mergeStep h = .ok (pqInsert h2 (.branch f (.node a) (.node b)))) ∧
    (2 ^ 32 ≤ a.freq.toNat + b.freq.toNat → mergeStep h = .error .capacityExceeded) ∧
    (heapOrdered h → a.freq.toNat ≤ b.freq.toNat ∧ ∀ n ∈ h2, b.freq.toNat ≤ n.freq.toNat)) ∧
  ∀ t : Cells Freq, keysOf t ≠ [] → (allSyms.map fun y => (countAt t y).toNat).sum < 2 ^ 32 →
    let first := ((List.range 256).map (BitVec.ofNat 8)).foldl
      (fun h y => if countAt t y = 0 then h else pqInsert h (.leaf y (countAt t y))) []
    ∃ n, buildTree t = .ok n ∧
      (∃ q : Nat → List Node, q 0 = first ∧ (∀ i, i + 1 < (keysOf t).length → mergeStep (q i) = .ok (q (i + 1))) ∧
        q ((keysOf t).length - 1) = [n]) ∧
      (n.leaves.map (·.2)).Perm ((keysOf t).map fun y => (y, countAt t y)) ∧
      n.leaves.length = (keysOf t).length ∧ n.branches + 1 = (keysOf t).length ∧ n.size + 1 = 2 * (keysOf t).length ∧
      n.complete = true ∧ n.sumOk = true ∧ n.lighterLeft = true ∧
      n.freq.toNat = (allSyms.map fun y => (countAt t y).toNat).sum ∧
      (∀ p ∈ n.leaves, p.1.length + 1 ≤ (keysOf t).length) ∧ ∀ p ∈ n.leaves, p.1.length ≤ 255

/-- `BUILDTREE rd` (R107). On a table that is not all zero and whose counts' sum fits, `N[rd]` becomes the tree, of
`2n - 1` Nodes for `n` keys, and the queue is empty, while the result keeps within the node limit; past it
`CapacityExceeded`, and on an all-zero table `EmptyInput`: then `N[rd]` is absent and the queue empty. Nothing else
changes. That a table whose counts' sum does not fit raises `CapacityExceeded` is what R97 gives for a state no run
reaches (R100): DEDUCED, notes/assumptions/12.md. -/
def Obligations.BuildtreeLeavesTheTree : Prop :=
  ∀ (s : State) (rd : NReg),
    let total := (allSyms.map fun y => (countAt s.ft y).toNat).sum
    let room := (s.regs.set rd .absent).live + (2 * (keysOf s.ft).length - 1)
    (keysOf s.ft ≠ [] → total < 2 ^ 32 → room ≤ Config.nodeCap →
      ∃ n, buildTree s.ft = .ok n ∧
        exec (.buildtree rd) s = .next { s with regs := s.regs.set rd (.node n), heap := [],
                                                status := ⟨.ok, s.status.fatal, false⟩ }) ∧
    (keysOf s.ft ≠ [] → (2 ^ 32 ≤ total ∨ Config.nodeCap < room) →
      exec (.buildtree rd) s = .next { s with regs := s.regs.set rd .absent, heap := [],
                                              status := ⟨.capacityExceeded, true, false⟩ }) ∧
    ((∀ y, countAt s.ft y = 0) →
      exec (.buildtree rd) s = .next { s with regs := s.regs.set rd .absent, heap := [],
                                              status := ⟨.emptyInput, s.status.fatal, false⟩ })

/-! ### The code table extractor -/

/-- `BUILDCODE ra` on a tree whose Leaves have distinct symbols and lie no deeper than 255 (R111, R112, R114 (a)): a
symbol's code is the path to its Leaf, and a symbol with no Leaf has none; commands read the table so; nothing but
`CT` and `STATUS` changes. -/
def Obligations.BuildcodeRecordsThePaths : Prop :=
  ∀ (s : State) (ra : NReg) (n : Node), s.reg ra = .node n → (n.leaves.map (·.2.1)).Nodup →
    (∀ p ∈ n.leaves, p.1.length ≤ 255) →
    ∃ t, exec (.buildcode ra) s = .next t ∧
      t = { s with ct := t.ct, status := ⟨.ok, s.status.fatal, false⟩ } ∧
      ∀ (y : Sym) (c : Code), t.codeOf y.toNat = some c ↔ ∃ f, (c, y, f) ∈ n.leaves

/-- When `BUILDCODE ra` raises (R112): `EmptyInput` on an absent register; `IllegalOperation` when two Leaves carry one
symbol and none is too deep; `CapacityExceeded` when a Leaf is deeper than 255 and the symbols are distinct; and where both
happen, the fault of the first Leaf in left-first order that has one, a symbol seen before tested ahead of the depth
(R168). `CT` is then all absent. -/
def Obligations.BuildcodeRaises : Prop :=
  ∀ (s : State) (ra : NReg),
    (s.reg ra = .absent →
      exec (.buildcode ra) s = .next { s with ct := [], status := ⟨.emptyInput, s.status.fatal, false⟩ }) ∧
    ∀ n, s.reg ra = .node n →
      (¬ (n.leaves.map (·.2.1)).Nodup → (∀ p ∈ n.leaves, p.1.length ≤ 255) →
        exec (.buildcode ra) s = .next { s with ct := [], status := ⟨.illegalOperation, true, false⟩ }) ∧
      ((n.leaves.map (·.2.1)).Nodup → (∃ p ∈ n.leaves, 255 < p.1.length) →
        exec (.buildcode ra) s = .next { s with ct := [], status := ⟨.capacityExceeded, true, false⟩ }) ∧
      ∀ (before after : List (Code × Sym × Freq)) (p : Code × Sym × Freq), n.leaves = before ++ p :: after →
        (before.map (·.2.1)).Nodup → (∀ q ∈ before, q.1.length ≤ 255) →
        (p.2.1 ∈ before.map (·.2.1) →
          exec (.buildcode ra) s = .next { s with ct := [], status := ⟨.illegalOperation, true, false⟩ }) ∧
        (p.2.1 ∉ before.map (·.2.1) → 255 < p.1.length →
          exec (.buildcode ra) s = .next { s with ct := [], status := ⟨.capacityExceeded, true, false⟩ })

/-- What the extractor gives when it does not raise (R114): (a) the Leaves' symbols are distinct and a symbol's code is
the path to its Leaf, (b) "no code is a prefix of another", (c) in a tree of two or more Nodes every code has a bit, (d)
no code is longer than 255; and in the tree of "abracadabra" every code has a bit and those of 'c' and 'd' are no
shorter than that of 'a'. -/
def Obligations.ExtractedCodesArePrefixFree : Prop :=
  (∀ (n : Node) (c : CodeTable), buildCode n = .ok c →
    (n.leaves.map (·.2.1)).Nodup ∧ (∀ y b, codeAt c y = some b ↔ ∃ f, (b, y, f) ∈ n.leaves) ∧
    prefixFree c ∧ (2 ≤ n.size → ∀ y b, codeAt c y = some b → 1 ≤ b.length) ∧
    ∀ y b, codeAt c y = some b → b.length ≤ 255) ∧
  ∃ n c ca cc cd, buildTree [(0x61, 5), (0x62, 2), (0x63, 1), (0x64, 1), (0x72, 2)] = .ok n ∧
    buildCode n = .ok c ∧ (∀ y b, codeAt c y = some b → 1 ≤ b.length) ∧
    codeAt c 0x61 = some ca ∧ codeAt c 0x63 = some cc ∧ codeAt c 0x64 = some cd ∧
    ca.length ≤ cc.length ∧ ca.length ≤ cd.length

/-! ### The tree reconstructor -/

/-- The reconstructor raises, and then `StructuralInconsistency`, exactly when the present entries are not prefix-free
(R125). -/
def Obligations.ReconstructorRaisesExactlyWhenNotPrefixFree : Prop :=
  ∀ c : CodeTable, entriesOf c ≠ [] →
    (prefixFree c → ∃ n, treeFromCode c = .ok n) ∧
    (¬ prefixFree c → treeFromCode c = .error .structuralInconsistency)

/-- What the reconstructed tree is (R127 (a), (b), (d), R128): its Leaves are the entries of the table at their codes and
no others, every Branch has a present child where the table has an entry, every frequency is 0, and it has at most 65281 Nodes when no code is longer than 255. -/
def Obligations.ReconstructedTreeProperties : Prop :=
  ∀ (c : CodeTable) (n : Node), treeFromCode c = .ok n →
    (∀ (b : Code) (y : Sym) (f : Freq), (b, y, f) ∈ n.leaves ↔ f = 0 ∧ codeAt c y = some b) ∧
    (entriesOf c ≠ [] → n.noEmptyBranch = true) ∧ n.zeroFreq = true ∧
    ((∀ y b, codeAt c y = some b → b.length ≤ 255) → n.size ≤ 65281)

/-- `TREEFROMCODE rd` on a prefix-free table that is not all absent (R126): `N[rd]` becomes the tree while the result
state keeps within the node limit; nothing else changes. The tree has at most 65281 Nodes (R128). -/
def Obligations.TreefromcodeLeavesTheTree : Prop :=
  ∀ (s : State) (rd : NReg), entriesOf s.codes ≠ [] → prefixFree s.codes →
    ∃ n, treeFromCode s.codes = .ok n ∧ n.size ≤ 65281 ∧
      ((s.regs.set rd .absent).live + heapLive s.heap + n.size ≤ Config.nodeCap →
        exec (.treefromcode rd) s = .next { s with regs := s.regs.set rd (.node n),
                                                   status := ⟨.ok, s.status.fatal, false⟩ })

/-- When `TREEFROMCODE rd` raises (R126): `EmptyInput` when every entry is absent, then `StructuralInconsistency` when
the codes are not prefix-free, then `CapacityExceeded` when the result state would pass the node limit; `N[rd]` is then
absent and nothing else but `STATUS` changes. -/
def Obligations.TreefromcodeRaises : Prop :=
  ∀ (s : State) (rd : NReg),
    let failed (st : Status) : Host.Outcome State Fault Refusal :=
      .next { s with regs := s.regs.set rd .absent, status := st }
    ((∀ y : Sym, s.codeOf y.toNat = none) →
      exec (.treefromcode rd) s = failed ⟨.emptyInput, s.status.fatal, false⟩) ∧
    (¬ prefixFree s.codes → exec (.treefromcode rd) s = failed ⟨.structuralInconsistency, true, false⟩) ∧
    ∀ n, entriesOf s.codes ≠ [] → treeFromCode s.codes = .ok n →
      Config.nodeCap < (s.regs.set rd .absent).live + heapLive s.heap + n.size →
      exec (.treefromcode rd) s = failed ⟨.capacityExceeded, true, false⟩

/-- `BuildCode(TreeFromCode(C)) = C` for every table on which `TreeFromCode` succeeds (R115). -/
def Obligations.ExtractorInvertsReconstructor : Prop :=
  ∀ (c : CodeTable) (n : Node), treeFromCode c = .ok n → (∀ y b, codeAt c y = some b → b.length ≤ 255) →
    ∃ d, buildCode n = .ok d ∧ ∀ y, codeAt d y = codeAt c y

/-! ### The encoder and the decoder -/

/-- `ENCODE` (R118). For `1 <= ILEN <= IBUF_CAP` the tree and the code table of the input always exist; while the
result state keeps within the node limit and the bits within `BIT_CAP`, `FT`, `N0`, `CT`, `BITS` and `BITN` hold the
table, the tree, the codes and the concatenated codes, and the queue is empty; past a limit, `CapacityExceeded` with
every destination cleared. Past the input's capacity `CapacityExceeded`, on an empty input `EmptyInput`, every
destination cleared. -/
def Obligations.EncodeLeavesThePayload : Prop :=
  ∀ s : State,
    (Config.ibufCap < s.ilen.toNat →
      exec .encode s = .next { failureState .encode s with status := ⟨.capacityExceeded, true, false⟩ }) ∧
    (s.ilen = 0 →
      exec .encode s = .next { failureState .encode s with status := ⟨.emptyInput, s.status.fatal, false⟩ }) ∧
    (s.ilen ≠ 0 → s.ilen.toNat ≤ Config.ibufCap →
    ∃ n c, buildTree (freqTable s.inputBytes) = .ok n ∧ buildCode n = .ok c ∧
      let b := s.inputBytes.flatMap fun y => (codeAt c y).getD []
      let r := { s with ft := freqTable s.inputBytes, regs := s.regs.set .n0 (.node n), heap := [],
                        ct := c.map (fun (e : Nat × Code) => (e.1, CtEntry.ofCode e.2)), bits := Cells.run 0 b,
                        bitn := BitVec.ofNat 32 b.length }
      exec .encode s = .next (
        if r.live ≤ Config.nodeCap ∧ b.length ≤ Config.bitCap then { r with status := ⟨.ok, s.status.fatal, false⟩ }
        else { failureState .encode s with status := ⟨.capacityExceeded, true, false⟩ }))

/-- When it succeeds, `ENCODE` leaves exactly the state that `FREQ`, `BUILDTREE N0`, `BUILDCODE N0` leave, and then
writes `BITS` and `BITN` (R119). -/
def Obligations.EncodeIsItsThreeStages : Prop :=
  ∀ s t : State, exec .encode s = .next t → t.status.code = .ok →
    ∃ s1 s2 s3, exec .freq s = .next s1 ∧ exec (.buildtree .n0) s1 = .next s2 ∧
      exec (.buildcode .n0) s2 = .next s3 ∧ s3.status.code = .ok ∧
      t = { s3 with bits := t.bits, bitn := t.bitn }

/-- The length of a successful `ENCODE` (R120 (a)): the sum over the symbols of count times code length. -/
def Obligations.EncodedLengthIsTheWeightedSum : Prop :=
  ∀ s t : State, exec .encode s = .next t → t.status.code = .ok →
    t.bitn.toNat =
      (allSyms.map fun y => (countAt t.ft y).toNat * ((t.codeOf y.toNat).getD []).length).sum

/-- `DECODE` (R134), its tests in the order written: a table all absent is `EmptyInput`; `BITN` past `BIT_CAP` is
`CapacityExceeded`; codes that are not prefix-free are `StructuralInconsistency`; past the node limit `CapacityExceeded`;
a walk that raises is `MalformedBitstream`; an output past `OBUF_CAP` is `CapacityExceeded`: each with the destinations
cleared. Otherwise `N0` becomes the tree and `OBUF[0 .. OLEN-1]` the output; nothing else changes. And what the walk gives
(R131 to R133, R136): on a single Leaf the empty output without bits and without a required sentinel, else
`MalformedBitstream`; on a Branch, after any codes of Leaves that are not the sentinel, a move to an absent child, bits
that end away from the root, and bits that end at the root with the sentinel required are `MalformedBitstream`; bits that
end at the root with no sentinel required, and the sentinel's code, whatever follows, give the symbols so far. -/
def Obligations.DecodeLeavesTheOutput : Prop :=
  (∀ s : State,
    let failed (st : Status) : Host.Outcome State Fault Refusal := .next { failureState .decode s with status := st }
    ((∀ y : Sym, s.codeOf y.toNat = none) → exec .decode s = failed ⟨.emptyInput, s.status.fatal, false⟩) ∧
    (entriesOf s.codes ≠ [] →
      (Config.bitCap < s.bitn.toNat → exec .decode s = failed ⟨.capacityExceeded, true, false⟩) ∧
      (s.bitn.toNat ≤ Config.bitCap →
        (¬ prefixFree s.codes → exec .decode s = failed ⟨.structuralInconsistency, true, false⟩) ∧
        ∀ n, treeFromCode s.codes = .ok n →
          (Config.nodeCap < (s.regs.set .n0 (.node n)).live + heapLive s.heap →
            exec .decode s = failed ⟨.capacityExceeded, true, false⟩) ∧
          ((s.regs.set .n0 (.node n)).live + heapLive s.heap ≤ Config.nodeCap →
            (∀ x, decodeWalk n s.inputBits false = .error x →
              exec .decode s = failed ⟨.malformedBitstream, true, false⟩) ∧
            ∀ out, decodeWalk n s.inputBits false = .ok out →
              (Config.obufCap < out.length → exec .decode s = failed ⟨.capacityExceeded, true, false⟩) ∧
              (out.length ≤ Config.obufCap →
                ∃ t, exec .decode s = .next t ∧
                  t = { s with regs := s.regs.set .n0 (.node n), obuf := t.obuf, olen := BitVec.ofNat 32 out.length,
                               status := ⟨.ok, s.status.fatal, false⟩ } ∧
                  t.output = out))))) ∧
  (∀ (y : Sym) (f : Freq) (b : Bits) (require : Bool), decodeWalk (.leaf y f) b require =
    if b = [] ∧ require = false then .ok [] else .error .malformedBitstream) ∧
  ∀ (g : Freq) (l r : Slot) (ps : List (Code × Sym)) (tail : Bits) (require : Bool),
    let n := Node.branch g l r
    (∀ p ∈ ps, p.2 ≠ Config.sentinel ∧ ∃ f, (p.1, p.2, f) ∈ n.leaves) →
    let walk := decodeWalk n (ps.flatMap (·.1) ++ tail) require
    (∀ (q rest : Bits) (d : Bool) (m : Node), m.kind = .branch → Slot.follow (.node n) q = .node m →
      m.child d = .absent → tail = q ++ d :: rest → walk = .error .malformedBitstream) ∧
    (∀ m : Node, m.kind = .branch → tail ≠ [] → Slot.follow (.node n) tail = .node m →
      walk = .error .malformedBitstream) ∧
    (tail = [] → walk = if require then .error .malformedBitstream else .ok (ps.map (·.2))) ∧
    ∀ (q rest : Bits) (f : Freq), (q, Config.sentinel, f) ∈ n.leaves → tail = q ++ rest → walk = .ok (ps.map (·.2))

/-- What the walk returns on well-formed input (R135): for a table with two or more entries on which `TreeFromCode`
succeeds, and a symbol list that has codes, (a) if it has no sentinel, decoding its encoding gives the list back; (b)
where the sentinel has a code too, decoding the list's encoding and the sentinel's gives the list whatever bits follow,
and whether or not the sentinel is required; (c) in general the result is the part before the first sentinel. -/
def Obligations.DecodeWalkInvertsEncodeBits : Prop :=
  ∀ (c : CodeTable) (n : Node) (l : List Sym), treeFromCode c = .ok n → 2 ≤ (entriesOf c).length →
    (∀ y ∈ l, (codeAt c y).isSome) →
    (Config.sentinel ∉ l → decodeWalk n (encodeBits c l) false = .ok l) ∧
    ((codeAt c Config.sentinel).isSome → Config.sentinel ∉ l → ∀ (x : Bits) (r : Bool),
      decodeWalk n (encodeBits c (l ++ [Config.sentinel]) ++ x) r = .ok l) ∧
    decodeWalk n (encodeBits c l) false = .ok (l.takeWhile fun y => y ≠ Config.sentinel)

/-- Round trip through `ENCODE` and `DECODE` (R121): a text with at least two distinct symbols and no sentinel comes
back. -/
def Obligations.EncodeThenDecodeReturnsTheText : Prop :=
  ∀ s t : State, exec .encode s = .next t → t.status.code = .ok → Config.sentinel ∉ s.inputBytes →
    2 ≤ (keysOf t.ft).length →
    ∃ u, exec .decode t = .next u ∧ u.status.code = .ok ∧ u.output = s.inputBytes

/-! ### The container codec -/

/-- `Pack` and `Unpack` (R12): bit `k` of a sequence is bit `7 - (k mod 8)` of byte `k div 8`, both ways, and the bits
`Pack` adds to reach a whole number of bytes are 0; unpacking a packed sequence gives the sequence and fewer than eight
zero bits. -/
def Obligations.UnpackOfPackAddsZeroPadding : Prop :=
  (∀ (b : Bits) (k : Nat), k < 8 * (pack b).length →
    ((pack b)[k / 8]?).map (fun x => x.getLsbD (7 - k % 8)) = some ((b[k]?).getD false)) ∧
  (∀ (l : List Byte) (k : Nat), (unpack l)[k]? = (l[k / 8]?).map fun x => x.getLsbD (7 - k % 8)) ∧
  ∀ b : Bits, ∃ k, k < 8 ∧ unpack (pack b) = b ++ List.replicate k false ∧
    8 * (pack b).length = b.length + k

/-- `COMPRESS` for `1 <= ILEN <= IBUF_CAP`, no sentinel in the text and at most 255 symbols with the sentinel (R142):
the tree and the codes of the text with the sentinel exist; within the limits `FT`, `N0`, `CT`, `BITS` hold what
`ENCODE` would leave for that list and `OBUF` the container of R72; past a limit, `CapacityExceeded` with every
destination cleared. -/
def Obligations.CompressLeavesTheContainer : Prop :=
  ∀ s : State, s.ilen ≠ 0 → s.ilen.toNat ≤ Config.ibufCap → Config.sentinel ∉ s.inputBytes →
    (keysOf (freqTable (s.inputBytes ++ [Config.sentinel]))).length ≤ 255 →
    ∃ n c, buildTree (freqTable (s.inputBytes ++ [Config.sentinel])) = .ok n ∧ buildCode n = .ok c ∧
      let l := s.inputBytes ++ [Config.sentinel]
      let b := l.flatMap fun y => (codeAt c y).getD []
      let out := [0x68, 0x66, BitVec.ofNat 8 (entriesOf c).length]
        ++ ((entriesOf c).flatMap fun e => [e.1, BitVec.ofNat 8 e.2.length])
        ++ pack (((entriesOf c).flatMap fun e => e.2) ++ b)
      let r := { s with ft := freqTable l, regs := s.regs.set .n0 (.node n), heap := [],
                        ct := c.map (fun (e : Nat × Code) => (e.1, CtEntry.ofCode e.2)), bits := Cells.run 0 b,
                        bitn := BitVec.ofNat 32 b.length, obuf := Cells.run 0 out,
                        olen := BitVec.ofNat 32 out.length }
      exec .compress s = .next (
        if r.live ≤ Config.nodeCap ∧ b.length ≤ Config.bitCap ∧ out.length ≤ Config.obufCap then
          { r with status := ⟨.ok, s.status.fatal, false⟩ }
        else { failureState .compress s with status := ⟨.capacityExceeded, true, false⟩ })

/-- The refusals of `COMPRESS` (R141): a text too long for the buffer, an empty text, a text with the sentinel in it,
and a text whose alphabet with the sentinel has 256 members; every destination is cleared. -/
def Obligations.CompressRefusals : Prop :=
  ∀ s : State,
    (Config.ibufCap < s.ilen.toNat →
      exec .compress s = .next { failureState .compress s with status := ⟨.capacityExceeded, true, false⟩ }) ∧
    (s.ilen = 0 →
      exec .compress s = .next { failureState .compress s with status := ⟨.emptyInput, s.status.fatal, false⟩ }) ∧
    (s.ilen ≠ 0 → s.ilen.toNat ≤ Config.ibufCap →
      Config.sentinel ∈ s.inputBytes ∨ 255 < (keysOf (freqTable (s.inputBytes ++ [Config.sentinel]))).length →
      exec .compress s = .next { failureState .compress s with status := ⟨.unrepresentable, true, false⟩ })

/-- A container `COMPRESS` wrote (R144 (a), (f), R74): it begins 0x68 0x66 N, with N the number of symbols with the
sentinel, and is `3 + 2N + ceil((P + M) / 8)` bytes long, P the lengths of the codes together and M = `BITN`. -/
def Obligations.ContainerStartAndLength : Prop :=
  ∀ s t : State, exec .compress s = .next t → t.status.code = .ok →
    t.output.take 3 = [0x68, 0x66, BitVec.ofNat 8 (keysOf t.ft).length] ∧
    t.olen.toNat = 3 + 2 * (keysOf t.ft).length +
      ((allSyms.map fun y => ((t.codeOf y.toNat).getD []).length).sum + t.bitn.toNat + 7) / 8

/-- `DECOMPRESS` (R148): where the input parses as a container, its bits fit, its codes give a tree within the node
limit, and the walk reaches the sentinel with an output that fits, `CT`, `BITS`, `N0` and `OBUF` hold the table, the
bits after the codes, the tree and the text; nothing else changes. -/
def Obligations.DecompressLeavesTheText : Prop :=
  ∀ (s : State) (c : CodeTable) (rest : Bits) (n : Node) (out : List Sym), s.ilen.toNat ≤ Config.ibufCap →
    parseContainer s.inputBytes = .ok (c, rest) → rest.length ≤ Config.bitCap → treeFromCode c = .ok n →
    (s.regs.set .n0 (.node n)).live + heapLive s.heap ≤ Config.nodeCap →
    decodeWalk n rest true = .ok out → out.length ≤ Config.obufCap →
    ∃ t, exec .decompress s = .next t ∧
      t = { s with ct := c.map (fun (e : Nat × Code) => (e.1, CtEntry.ofCode e.2)), bits := Cells.run 0 rest,
                   bitn := BitVec.ofNat 32 rest.length, regs := s.regs.set .n0 (.node n), obuf := t.obuf,
                   olen := BitVec.ofNat 32 out.length, status := ⟨.ok, s.status.fatal, false⟩ } ∧
      t.output = out

/-- When `DECOMPRESS` raises, its tests in the order written (R148), each with the destinations cleared. Past the input's
capacity it is `CapacityExceeded`. The magic is tested before any other look at the buffer (R147): fewer than two bytes,
or another first or second byte, are `FormatMismatch`, whatever follows. A fault of parsing is the code the parse raises.
On a parsed container, whose bits always fit: codes that are not prefix-free are `StructuralInconsistency`; past the node
limit `CapacityExceeded`; a walk that raises, a missing sentinel included, is `MalformedBitstream`; an output past
`OBUF_CAP` is `CapacityExceeded`. -/
def Obligations.DecompressTestsTheMagicFirst : Prop :=
  ∀ s : State,
    let failed (x : Completion) : Host.Outcome State Fault Refusal :=
      .next { failureState .decompress s with status := ⟨x, true, false⟩ }
    (Config.ibufCap < s.ilen.toNat → exec .decompress s = failed .capacityExceeded) ∧
    (s.ilen.toNat ≤ Config.ibufCap →
      ((s.inputBytes.length < 2 ∨ s.inputBytes[0]? ≠ some 0x68 ∨ s.inputBytes[1]? ≠ some 0x66) →
        exec .decompress s = failed .formatMismatch) ∧
      (∀ x, parseContainer s.inputBytes = .error x → exec .decompress s = failed x) ∧
      ∀ (c : CodeTable) (rest : Bits), parseContainer s.inputBytes = .ok (c, rest) →
        rest.length ≤ Config.bitCap ∧
        (¬ prefixFree c → exec .decompress s = failed .structuralInconsistency) ∧
        ∀ n, treeFromCode c = .ok n →
          (Config.nodeCap < (s.regs.set .n0 (.node n)).live + heapLive s.heap →
            exec .decompress s = failed .capacityExceeded) ∧
          ((s.regs.set .n0 (.node n)).live + heapLive s.heap ≤ Config.nodeCap →
            (∀ x, decodeWalk n rest true = .error x → exec .decompress s = failed .malformedBitstream) ∧
            ∀ out, decodeWalk n rest true = .ok out → Config.obufCap < out.length →
              exec .decompress s = failed .capacityExceeded))

/-- The header faults (R145): after the magic, no count byte, a count of 0, a header cut short, a code length of 0, a
symbol listed twice, or code lengths exceeding the bits present make the parse raise `MalformedBitstream`, and
`DECOMPRESS` of such an input ends so, its destinations cleared (R148). With none of these faults the parse gives a table
and the bits left (R145): the bits after the header are cut, in the order in which the header lists the symbols, whatever
order that is (R73), into a code of the listed length for each; no other symbol has one. -/
def Obligations.HeaderFaultsAreMalformed : Prop :=
  ∀ x : List Byte,
    let n := match x with | nb :: _ => nb.toNat | [] => 0
    let syms := (List.range n).map fun i => x[1 + 2 * i]?
    let lens := (List.range n).map fun i => ((x[2 + 2 * i]?).getD 0).toNat
    let stream := unpack (x.drop (1 + 2 * n))
    let faulty :=
      x = [] ∨ n = 0 ∨ x.length < 1 + 2 * n ∨ 0 ∈ lens ∨ ¬ syms.Nodup ∨ 8 * (x.length - (1 + 2 * n)) < lens.sum
    (faulty →
      parseContainer (0x68 :: 0x66 :: x) = .error .malformedBitstream ∧
      ∀ s : State, s.ilen.toNat ≤ Config.ibufCap → s.inputBytes = 0x68 :: 0x66 :: x →
        exec .decompress s = .next { failureState .decompress s with status := ⟨.malformedBitstream, true, false⟩ }) ∧
    (¬ faulty →
      ∃ c, parseContainer (0x68 :: 0x66 :: x) = .ok (c, stream.drop lens.sum) ∧
        (∀ i < n, ∃ y len, x[1 + 2 * i]? = some y ∧ x[2 + 2 * i]? = some len ∧
          codeAt c y = some ((stream.drop (lens.take i).sum).take len.toNat)) ∧
        ∀ y, some y ∉ syms → codeAt c y = none)

/-- Round trip through the container (R151): what `COMPRESS` wrote, given to `DECOMPRESS` as its input, gives the text
back, in any state with room for one tree. -/
def Obligations.CompressThenDecompressReturnsTheText : Prop :=
  ∀ s t u : State, exec .compress s = .next t → t.status.code = .ok →
    u.ilen = t.olen → u.inputBytes = t.output →
    (u.regs.set .n0 .absent).live + heapLive u.heap + 511 ≤ Config.nodeCap →
    ∃ v, exec .decompress u = .next v ∧ v.status.code = .ok ∧ v.output = s.inputBytes

/-- The whole-pipeline commands complete, under conditions on the state alone: `ENCODE` and `COMPRESS` on a text of 1
to 1024 bytes with room for one tree, `COMPRESS` where the text has no sentinel and its alphabet with the sentinel at
most 255 members (R118, R142). That `DECODE` and `DECOMPRESS` complete on what they wrote is R121's and R151's round
trip. -/
def Obligations.PipelineCommandsComplete : Prop :=
  ∀ s : State, s.ilen ≠ 0 → s.ilen.toNat ≤ 1024 → s.regs.live + 511 ≤ Config.nodeCap →
    (∃ t, exec .encode s = .next t ∧ t.status.code = .ok) ∧
    (Config.sentinel ∉ s.inputBytes → (keysOf (freqTable (s.inputBytes ++ [Config.sentinel]))).length ≤ 255 →
      ∃ t, exec .compress s = .next t ∧ t.status.code = .ok)
end

