-- ==== Sys2Proof/Laws/State.lean ====
section
/-! SUPPORT. What each named update of State does to each field: one lemma a field, true by rfl, in the simp set, so
that no proof unfolds a record update. -/

namespace Sys2Proof.Machine

/-- Two states with the same fields are the same state. -/
theorem State.ext_fields {s t : State} (h0 : s.regs = t.regs) (h1 : s.heap = t.heap) (h2 : s.ft = t.ft) (h3 : s.ct = t.ct)
    (h4 : s.bits = t.bits) (h5 : s.bitn = t.bitn) (h6 : s.ibuf = t.ibuf) (h7 : s.ilen = t.ilen)
    (h8 : s.obuf = t.obuf) (h9 : s.olen = t.olen) (h10 : s.arg = t.arg) (h11 : s.res = t.res)
    (h12 : s.status = t.status) (h13 : s.host = t.host) (h14 : s.port = t.port) (h15 : s.draws = t.draws) : s = t := by
  cases s; cases t; simp_all

/-! `setReg` -/

@[simp] theorem State.setReg_regs (s : State) (r : NReg) (v : Slot) : (s.setReg r v).regs = s.regs.set r v := rfl
@[simp] theorem State.setReg_heap (s : State) (r : NReg) (v : Slot) : (s.setReg r v).heap = s.heap := rfl
@[simp] theorem State.setReg_ft (s : State) (r : NReg) (v : Slot) : (s.setReg r v).ft = s.ft := rfl
@[simp] theorem State.setReg_ct (s : State) (r : NReg) (v : Slot) : (s.setReg r v).ct = s.ct := rfl
@[simp] theorem State.setReg_bits (s : State) (r : NReg) (v : Slot) : (s.setReg r v).bits = s.bits := rfl
@[simp] theorem State.setReg_bitn (s : State) (r : NReg) (v : Slot) : (s.setReg r v).bitn = s.bitn := rfl
@[simp] theorem State.setReg_ibuf (s : State) (r : NReg) (v : Slot) : (s.setReg r v).ibuf = s.ibuf := rfl
@[simp] theorem State.setReg_ilen (s : State) (r : NReg) (v : Slot) : (s.setReg r v).ilen = s.ilen := rfl
@[simp] theorem State.setReg_obuf (s : State) (r : NReg) (v : Slot) : (s.setReg r v).obuf = s.obuf := rfl
@[simp] theorem State.setReg_olen (s : State) (r : NReg) (v : Slot) : (s.setReg r v).olen = s.olen := rfl
@[simp] theorem State.setReg_arg (s : State) (r : NReg) (v : Slot) : (s.setReg r v).arg = s.arg := rfl
@[simp] theorem State.setReg_res (s : State) (r : NReg) (v : Slot) : (s.setReg r v).res = s.res := rfl
@[simp] theorem State.setReg_status (s : State) (r : NReg) (v : Slot) : (s.setReg r v).status = s.status := rfl
@[simp] theorem State.setReg_host (s : State) (r : NReg) (v : Slot) : (s.setReg r v).host = s.host := rfl
@[simp] theorem State.setReg_port (s : State) (r : NReg) (v : Slot) : (s.setReg r v).port = s.port := rfl
@[simp] theorem State.setReg_draws (s : State) (r : NReg) (v : Slot) : (s.setReg r v).draws = s.draws := rfl

/-! `setHeap` -/

@[simp] theorem State.setHeap_regs (s : State) (h : List Node) : (s.setHeap h).regs = s.regs := rfl
@[simp] theorem State.setHeap_heap (s : State) (h : List Node) : (s.setHeap h).heap = h := rfl
@[simp] theorem State.setHeap_ft (s : State) (h : List Node) : (s.setHeap h).ft = s.ft := rfl
@[simp] theorem State.setHeap_ct (s : State) (h : List Node) : (s.setHeap h).ct = s.ct := rfl
@[simp] theorem State.setHeap_bits (s : State) (h : List Node) : (s.setHeap h).bits = s.bits := rfl
@[simp] theorem State.setHeap_bitn (s : State) (h : List Node) : (s.setHeap h).bitn = s.bitn := rfl
@[simp] theorem State.setHeap_ibuf (s : State) (h : List Node) : (s.setHeap h).ibuf = s.ibuf := rfl
@[simp] theorem State.setHeap_ilen (s : State) (h : List Node) : (s.setHeap h).ilen = s.ilen := rfl
@[simp] theorem State.setHeap_obuf (s : State) (h : List Node) : (s.setHeap h).obuf = s.obuf := rfl
@[simp] theorem State.setHeap_olen (s : State) (h : List Node) : (s.setHeap h).olen = s.olen := rfl
@[simp] theorem State.setHeap_arg (s : State) (h : List Node) : (s.setHeap h).arg = s.arg := rfl
@[simp] theorem State.setHeap_res (s : State) (h : List Node) : (s.setHeap h).res = s.res := rfl
@[simp] theorem State.setHeap_status (s : State) (h : List Node) : (s.setHeap h).status = s.status := rfl
@[simp] theorem State.setHeap_host (s : State) (h : List Node) : (s.setHeap h).host = s.host := rfl
@[simp] theorem State.setHeap_port (s : State) (h : List Node) : (s.setHeap h).port = s.port := rfl
@[simp] theorem State.setHeap_draws (s : State) (h : List Node) : (s.setHeap h).draws = s.draws := rfl

/-! `setFt` -/

@[simp] theorem State.setFt_regs (s : State) (t : Cells Freq) : (s.setFt t).regs = s.regs := rfl
@[simp] theorem State.setFt_heap (s : State) (t : Cells Freq) : (s.setFt t).heap = s.heap := rfl
@[simp] theorem State.setFt_ft (s : State) (t : Cells Freq) : (s.setFt t).ft = t := rfl
@[simp] theorem State.setFt_ct (s : State) (t : Cells Freq) : (s.setFt t).ct = s.ct := rfl
@[simp] theorem State.setFt_bits (s : State) (t : Cells Freq) : (s.setFt t).bits = s.bits := rfl
@[simp] theorem State.setFt_bitn (s : State) (t : Cells Freq) : (s.setFt t).bitn = s.bitn := rfl
@[simp] theorem State.setFt_ibuf (s : State) (t : Cells Freq) : (s.setFt t).ibuf = s.ibuf := rfl
@[simp] theorem State.setFt_ilen (s : State) (t : Cells Freq) : (s.setFt t).ilen = s.ilen := rfl
@[simp] theorem State.setFt_obuf (s : State) (t : Cells Freq) : (s.setFt t).obuf = s.obuf := rfl
@[simp] theorem State.setFt_olen (s : State) (t : Cells Freq) : (s.setFt t).olen = s.olen := rfl
@[simp] theorem State.setFt_arg (s : State) (t : Cells Freq) : (s.setFt t).arg = s.arg := rfl
@[simp] theorem State.setFt_res (s : State) (t : Cells Freq) : (s.setFt t).res = s.res := rfl
@[simp] theorem State.setFt_status (s : State) (t : Cells Freq) : (s.setFt t).status = s.status := rfl
@[simp] theorem State.setFt_host (s : State) (t : Cells Freq) : (s.setFt t).host = s.host := rfl
@[simp] theorem State.setFt_port (s : State) (t : Cells Freq) : (s.setFt t).port = s.port := rfl
@[simp] theorem State.setFt_draws (s : State) (t : Cells Freq) : (s.setFt t).draws = s.draws := rfl

/-! `setCt` -/

@[simp] theorem State.setCt_regs (s : State) (c : Cells CtEntry) : (s.setCt c).regs = s.regs := rfl
@[simp] theorem State.setCt_heap (s : State) (c : Cells CtEntry) : (s.setCt c).heap = s.heap := rfl
@[simp] theorem State.setCt_ft (s : State) (c : Cells CtEntry) : (s.setCt c).ft = s.ft := rfl
@[simp] theorem State.setCt_ct (s : State) (c : Cells CtEntry) : (s.setCt c).ct = c := rfl
@[simp] theorem State.setCt_bits (s : State) (c : Cells CtEntry) : (s.setCt c).bits = s.bits := rfl
@[simp] theorem State.setCt_bitn (s : State) (c : Cells CtEntry) : (s.setCt c).bitn = s.bitn := rfl
@[simp] theorem State.setCt_ibuf (s : State) (c : Cells CtEntry) : (s.setCt c).ibuf = s.ibuf := rfl
@[simp] theorem State.setCt_ilen (s : State) (c : Cells CtEntry) : (s.setCt c).ilen = s.ilen := rfl
@[simp] theorem State.setCt_obuf (s : State) (c : Cells CtEntry) : (s.setCt c).obuf = s.obuf := rfl
@[simp] theorem State.setCt_olen (s : State) (c : Cells CtEntry) : (s.setCt c).olen = s.olen := rfl
@[simp] theorem State.setCt_arg (s : State) (c : Cells CtEntry) : (s.setCt c).arg = s.arg := rfl
@[simp] theorem State.setCt_res (s : State) (c : Cells CtEntry) : (s.setCt c).res = s.res := rfl
@[simp] theorem State.setCt_status (s : State) (c : Cells CtEntry) : (s.setCt c).status = s.status := rfl
@[simp] theorem State.setCt_host (s : State) (c : Cells CtEntry) : (s.setCt c).host = s.host := rfl
@[simp] theorem State.setCt_port (s : State) (c : Cells CtEntry) : (s.setCt c).port = s.port := rfl
@[simp] theorem State.setCt_draws (s : State) (c : Cells CtEntry) : (s.setCt c).draws = s.draws := rfl

/-! `setBits` -/

@[simp] theorem State.setBits_regs (s : State) (b : Cells Bool) : (s.setBits b).regs = s.regs := rfl
@[simp] theorem State.setBits_heap (s : State) (b : Cells Bool) : (s.setBits b).heap = s.heap := rfl
@[simp] theorem State.setBits_ft (s : State) (b : Cells Bool) : (s.setBits b).ft = s.ft := rfl
@[simp] theorem State.setBits_ct (s : State) (b : Cells Bool) : (s.setBits b).ct = s.ct := rfl
@[simp] theorem State.setBits_bits (s : State) (b : Cells Bool) : (s.setBits b).bits = b := rfl
@[simp] theorem State.setBits_bitn (s : State) (b : Cells Bool) : (s.setBits b).bitn = s.bitn := rfl
@[simp] theorem State.setBits_ibuf (s : State) (b : Cells Bool) : (s.setBits b).ibuf = s.ibuf := rfl
@[simp] theorem State.setBits_ilen (s : State) (b : Cells Bool) : (s.setBits b).ilen = s.ilen := rfl
@[simp] theorem State.setBits_obuf (s : State) (b : Cells Bool) : (s.setBits b).obuf = s.obuf := rfl
@[simp] theorem State.setBits_olen (s : State) (b : Cells Bool) : (s.setBits b).olen = s.olen := rfl
@[simp] theorem State.setBits_arg (s : State) (b : Cells Bool) : (s.setBits b).arg = s.arg := rfl
@[simp] theorem State.setBits_res (s : State) (b : Cells Bool) : (s.setBits b).res = s.res := rfl
@[simp] theorem State.setBits_status (s : State) (b : Cells Bool) : (s.setBits b).status = s.status := rfl
@[simp] theorem State.setBits_host (s : State) (b : Cells Bool) : (s.setBits b).host = s.host := rfl
@[simp] theorem State.setBits_port (s : State) (b : Cells Bool) : (s.setBits b).port = s.port := rfl
@[simp] theorem State.setBits_draws (s : State) (b : Cells Bool) : (s.setBits b).draws = s.draws := rfl

/-! `setBitn` -/

@[simp] theorem State.setBitn_regs (s : State) (n : Word) : (s.setBitn n).regs = s.regs := rfl
@[simp] theorem State.setBitn_heap (s : State) (n : Word) : (s.setBitn n).heap = s.heap := rfl
@[simp] theorem State.setBitn_ft (s : State) (n : Word) : (s.setBitn n).ft = s.ft := rfl
@[simp] theorem State.setBitn_ct (s : State) (n : Word) : (s.setBitn n).ct = s.ct := rfl
@[simp] theorem State.setBitn_bits (s : State) (n : Word) : (s.setBitn n).bits = s.bits := rfl
@[simp] theorem State.setBitn_bitn (s : State) (n : Word) : (s.setBitn n).bitn = n := rfl
@[simp] theorem State.setBitn_ibuf (s : State) (n : Word) : (s.setBitn n).ibuf = s.ibuf := rfl
@[simp] theorem State.setBitn_ilen (s : State) (n : Word) : (s.setBitn n).ilen = s.ilen := rfl
@[simp] theorem State.setBitn_obuf (s : State) (n : Word) : (s.setBitn n).obuf = s.obuf := rfl
@[simp] theorem State.setBitn_olen (s : State) (n : Word) : (s.setBitn n).olen = s.olen := rfl
@[simp] theorem State.setBitn_arg (s : State) (n : Word) : (s.setBitn n).arg = s.arg := rfl
@[simp] theorem State.setBitn_res (s : State) (n : Word) : (s.setBitn n).res = s.res := rfl
@[simp] theorem State.setBitn_status (s : State) (n : Word) : (s.setBitn n).status = s.status := rfl
@[simp] theorem State.setBitn_host (s : State) (n : Word) : (s.setBitn n).host = s.host := rfl
@[simp] theorem State.setBitn_port (s : State) (n : Word) : (s.setBitn n).port = s.port := rfl
@[simp] theorem State.setBitn_draws (s : State) (n : Word) : (s.setBitn n).draws = s.draws := rfl

/-! `setIbuf` -/

@[simp] theorem State.setIbuf_regs (s : State) (b : Cells Byte) : (s.setIbuf b).regs = s.regs := rfl
@[simp] theorem State.setIbuf_heap (s : State) (b : Cells Byte) : (s.setIbuf b).heap = s.heap := rfl
@[simp] theorem State.setIbuf_ft (s : State) (b : Cells Byte) : (s.setIbuf b).ft = s.ft := rfl
@[simp] theorem State.setIbuf_ct (s : State) (b : Cells Byte) : (s.setIbuf b).ct = s.ct := rfl
@[simp] theorem State.setIbuf_bits (s : State) (b : Cells Byte) : (s.setIbuf b).bits = s.bits := rfl
@[simp] theorem State.setIbuf_bitn (s : State) (b : Cells Byte) : (s.setIbuf b).bitn = s.bitn := rfl
@[simp] theorem State.setIbuf_ibuf (s : State) (b : Cells Byte) : (s.setIbuf b).ibuf = b := rfl
@[simp] theorem State.setIbuf_ilen (s : State) (b : Cells Byte) : (s.setIbuf b).ilen = s.ilen := rfl
@[simp] theorem State.setIbuf_obuf (s : State) (b : Cells Byte) : (s.setIbuf b).obuf = s.obuf := rfl
@[simp] theorem State.setIbuf_olen (s : State) (b : Cells Byte) : (s.setIbuf b).olen = s.olen := rfl
@[simp] theorem State.setIbuf_arg (s : State) (b : Cells Byte) : (s.setIbuf b).arg = s.arg := rfl
@[simp] theorem State.setIbuf_res (s : State) (b : Cells Byte) : (s.setIbuf b).res = s.res := rfl
@[simp] theorem State.setIbuf_status (s : State) (b : Cells Byte) : (s.setIbuf b).status = s.status := rfl
@[simp] theorem State.setIbuf_host (s : State) (b : Cells Byte) : (s.setIbuf b).host = s.host := rfl
@[simp] theorem State.setIbuf_port (s : State) (b : Cells Byte) : (s.setIbuf b).port = s.port := rfl
@[simp] theorem State.setIbuf_draws (s : State) (b : Cells Byte) : (s.setIbuf b).draws = s.draws := rfl

/-! `setIlen` -/

@[simp] theorem State.setIlen_regs (s : State) (n : Word) : (s.setIlen n).regs = s.regs := rfl
@[simp] theorem State.setIlen_heap (s : State) (n : Word) : (s.setIlen n).heap = s.heap := rfl
@[simp] theorem State.setIlen_ft (s : State) (n : Word) : (s.setIlen n).ft = s.ft := rfl
@[simp] theorem State.setIlen_ct (s : State) (n : Word) : (s.setIlen n).ct = s.ct := rfl
@[simp] theorem State.setIlen_bits (s : State) (n : Word) : (s.setIlen n).bits = s.bits := rfl
@[simp] theorem State.setIlen_bitn (s : State) (n : Word) : (s.setIlen n).bitn = s.bitn := rfl
@[simp] theorem State.setIlen_ibuf (s : State) (n : Word) : (s.setIlen n).ibuf = s.ibuf := rfl
@[simp] theorem State.setIlen_ilen (s : State) (n : Word) : (s.setIlen n).ilen = n := rfl
@[simp] theorem State.setIlen_obuf (s : State) (n : Word) : (s.setIlen n).obuf = s.obuf := rfl
@[simp] theorem State.setIlen_olen (s : State) (n : Word) : (s.setIlen n).olen = s.olen := rfl
@[simp] theorem State.setIlen_arg (s : State) (n : Word) : (s.setIlen n).arg = s.arg := rfl
@[simp] theorem State.setIlen_res (s : State) (n : Word) : (s.setIlen n).res = s.res := rfl
@[simp] theorem State.setIlen_status (s : State) (n : Word) : (s.setIlen n).status = s.status := rfl
@[simp] theorem State.setIlen_host (s : State) (n : Word) : (s.setIlen n).host = s.host := rfl
@[simp] theorem State.setIlen_port (s : State) (n : Word) : (s.setIlen n).port = s.port := rfl
@[simp] theorem State.setIlen_draws (s : State) (n : Word) : (s.setIlen n).draws = s.draws := rfl

/-! `setObuf` -/

@[simp] theorem State.setObuf_regs (s : State) (b : Cells Byte) : (s.setObuf b).regs = s.regs := rfl
@[simp] theorem State.setObuf_heap (s : State) (b : Cells Byte) : (s.setObuf b).heap = s.heap := rfl
@[simp] theorem State.setObuf_ft (s : State) (b : Cells Byte) : (s.setObuf b).ft = s.ft := rfl
@[simp] theorem State.setObuf_ct (s : State) (b : Cells Byte) : (s.setObuf b).ct = s.ct := rfl
@[simp] theorem State.setObuf_bits (s : State) (b : Cells Byte) : (s.setObuf b).bits = s.bits := rfl
@[simp] theorem State.setObuf_bitn (s : State) (b : Cells Byte) : (s.setObuf b).bitn = s.bitn := rfl
@[simp] theorem State.setObuf_ibuf (s : State) (b : Cells Byte) : (s.setObuf b).ibuf = s.ibuf := rfl
@[simp] theorem State.setObuf_ilen (s : State) (b : Cells Byte) : (s.setObuf b).ilen = s.ilen := rfl
@[simp] theorem State.setObuf_obuf (s : State) (b : Cells Byte) : (s.setObuf b).obuf = b := rfl
@[simp] theorem State.setObuf_olen (s : State) (b : Cells Byte) : (s.setObuf b).olen = s.olen := rfl
@[simp] theorem State.setObuf_arg (s : State) (b : Cells Byte) : (s.setObuf b).arg = s.arg := rfl
@[simp] theorem State.setObuf_res (s : State) (b : Cells Byte) : (s.setObuf b).res = s.res := rfl
@[simp] theorem State.setObuf_status (s : State) (b : Cells Byte) : (s.setObuf b).status = s.status := rfl
@[simp] theorem State.setObuf_host (s : State) (b : Cells Byte) : (s.setObuf b).host = s.host := rfl
@[simp] theorem State.setObuf_port (s : State) (b : Cells Byte) : (s.setObuf b).port = s.port := rfl
@[simp] theorem State.setObuf_draws (s : State) (b : Cells Byte) : (s.setObuf b).draws = s.draws := rfl

/-! `setOlen` -/

@[simp] theorem State.setOlen_regs (s : State) (n : Word) : (s.setOlen n).regs = s.regs := rfl
@[simp] theorem State.setOlen_heap (s : State) (n : Word) : (s.setOlen n).heap = s.heap := rfl
@[simp] theorem State.setOlen_ft (s : State) (n : Word) : (s.setOlen n).ft = s.ft := rfl
@[simp] theorem State.setOlen_ct (s : State) (n : Word) : (s.setOlen n).ct = s.ct := rfl
@[simp] theorem State.setOlen_bits (s : State) (n : Word) : (s.setOlen n).bits = s.bits := rfl
@[simp] theorem State.setOlen_bitn (s : State) (n : Word) : (s.setOlen n).bitn = s.bitn := rfl
@[simp] theorem State.setOlen_ibuf (s : State) (n : Word) : (s.setOlen n).ibuf = s.ibuf := rfl
@[simp] theorem State.setOlen_ilen (s : State) (n : Word) : (s.setOlen n).ilen = s.ilen := rfl
@[simp] theorem State.setOlen_obuf (s : State) (n : Word) : (s.setOlen n).obuf = s.obuf := rfl
@[simp] theorem State.setOlen_olen (s : State) (n : Word) : (s.setOlen n).olen = n := rfl
@[simp] theorem State.setOlen_arg (s : State) (n : Word) : (s.setOlen n).arg = s.arg := rfl
@[simp] theorem State.setOlen_res (s : State) (n : Word) : (s.setOlen n).res = s.res := rfl
@[simp] theorem State.setOlen_status (s : State) (n : Word) : (s.setOlen n).status = s.status := rfl
@[simp] theorem State.setOlen_host (s : State) (n : Word) : (s.setOlen n).host = s.host := rfl
@[simp] theorem State.setOlen_port (s : State) (n : Word) : (s.setOlen n).port = s.port := rfl
@[simp] theorem State.setOlen_draws (s : State) (n : Word) : (s.setOlen n).draws = s.draws := rfl

/-! `setArg` -/

@[simp] theorem State.setArg_regs (s : State) (v : Freq) : (s.setArg v).regs = s.regs := rfl
@[simp] theorem State.setArg_heap (s : State) (v : Freq) : (s.setArg v).heap = s.heap := rfl
@[simp] theorem State.setArg_ft (s : State) (v : Freq) : (s.setArg v).ft = s.ft := rfl
@[simp] theorem State.setArg_ct (s : State) (v : Freq) : (s.setArg v).ct = s.ct := rfl
@[simp] theorem State.setArg_bits (s : State) (v : Freq) : (s.setArg v).bits = s.bits := rfl
@[simp] theorem State.setArg_bitn (s : State) (v : Freq) : (s.setArg v).bitn = s.bitn := rfl
@[simp] theorem State.setArg_ibuf (s : State) (v : Freq) : (s.setArg v).ibuf = s.ibuf := rfl
@[simp] theorem State.setArg_ilen (s : State) (v : Freq) : (s.setArg v).ilen = s.ilen := rfl
@[simp] theorem State.setArg_obuf (s : State) (v : Freq) : (s.setArg v).obuf = s.obuf := rfl
@[simp] theorem State.setArg_olen (s : State) (v : Freq) : (s.setArg v).olen = s.olen := rfl
@[simp] theorem State.setArg_arg (s : State) (v : Freq) : (s.setArg v).arg = v := rfl
@[simp] theorem State.setArg_res (s : State) (v : Freq) : (s.setArg v).res = s.res := rfl
@[simp] theorem State.setArg_status (s : State) (v : Freq) : (s.setArg v).status = s.status := rfl
@[simp] theorem State.setArg_host (s : State) (v : Freq) : (s.setArg v).host = s.host := rfl
@[simp] theorem State.setArg_port (s : State) (v : Freq) : (s.setArg v).port = s.port := rfl
@[simp] theorem State.setArg_draws (s : State) (v : Freq) : (s.setArg v).draws = s.draws := rfl

/-! `setRes` -/

@[simp] theorem State.setRes_regs (s : State) (k : Kind) (y : Sym) (f : Freq) : (s.setRes k y f).regs = s.regs := rfl
@[simp] theorem State.setRes_heap (s : State) (k : Kind) (y : Sym) (f : Freq) : (s.setRes k y f).heap = s.heap := rfl
@[simp] theorem State.setRes_ft (s : State) (k : Kind) (y : Sym) (f : Freq) : (s.setRes k y f).ft = s.ft := rfl
@[simp] theorem State.setRes_ct (s : State) (k : Kind) (y : Sym) (f : Freq) : (s.setRes k y f).ct = s.ct := rfl
@[simp] theorem State.setRes_bits (s : State) (k : Kind) (y : Sym) (f : Freq) : (s.setRes k y f).bits = s.bits := rfl
@[simp] theorem State.setRes_bitn (s : State) (k : Kind) (y : Sym) (f : Freq) : (s.setRes k y f).bitn = s.bitn := rfl
@[simp] theorem State.setRes_ibuf (s : State) (k : Kind) (y : Sym) (f : Freq) : (s.setRes k y f).ibuf = s.ibuf := rfl
@[simp] theorem State.setRes_ilen (s : State) (k : Kind) (y : Sym) (f : Freq) : (s.setRes k y f).ilen = s.ilen := rfl
@[simp] theorem State.setRes_obuf (s : State) (k : Kind) (y : Sym) (f : Freq) : (s.setRes k y f).obuf = s.obuf := rfl
@[simp] theorem State.setRes_olen (s : State) (k : Kind) (y : Sym) (f : Freq) : (s.setRes k y f).olen = s.olen := rfl
@[simp] theorem State.setRes_arg (s : State) (k : Kind) (y : Sym) (f : Freq) : (s.setRes k y f).arg = s.arg := rfl
@[simp] theorem State.setRes_res (s : State) (k : Kind) (y : Sym) (f : Freq) : (s.setRes k y f).res = ⟨k, y, f, s.res.count⟩ := rfl
@[simp] theorem State.setRes_status (s : State) (k : Kind) (y : Sym) (f : Freq) : (s.setRes k y f).status = s.status := rfl
@[simp] theorem State.setRes_host (s : State) (k : Kind) (y : Sym) (f : Freq) : (s.setRes k y f).host = s.host := rfl
@[simp] theorem State.setRes_port (s : State) (k : Kind) (y : Sym) (f : Freq) : (s.setRes k y f).port = s.port := rfl
@[simp] theorem State.setRes_draws (s : State) (k : Kind) (y : Sym) (f : Freq) : (s.setRes k y f).draws = s.draws := rfl

/-! `setCount` -/

@[simp] theorem State.setCount_regs (s : State) (n : Word) : (s.setCount n).regs = s.regs := rfl
@[simp] theorem State.setCount_heap (s : State) (n : Word) : (s.setCount n).heap = s.heap := rfl
@[simp] theorem State.setCount_ft (s : State) (n : Word) : (s.setCount n).ft = s.ft := rfl
@[simp] theorem State.setCount_ct (s : State) (n : Word) : (s.setCount n).ct = s.ct := rfl
@[simp] theorem State.setCount_bits (s : State) (n : Word) : (s.setCount n).bits = s.bits := rfl
@[simp] theorem State.setCount_bitn (s : State) (n : Word) : (s.setCount n).bitn = s.bitn := rfl
@[simp] theorem State.setCount_ibuf (s : State) (n : Word) : (s.setCount n).ibuf = s.ibuf := rfl
@[simp] theorem State.setCount_ilen (s : State) (n : Word) : (s.setCount n).ilen = s.ilen := rfl
@[simp] theorem State.setCount_obuf (s : State) (n : Word) : (s.setCount n).obuf = s.obuf := rfl
@[simp] theorem State.setCount_olen (s : State) (n : Word) : (s.setCount n).olen = s.olen := rfl
@[simp] theorem State.setCount_arg (s : State) (n : Word) : (s.setCount n).arg = s.arg := rfl
@[simp] theorem State.setCount_res (s : State) (n : Word) : (s.setCount n).res = { s.res with count := n } := rfl
@[simp] theorem State.setCount_status (s : State) (n : Word) : (s.setCount n).status = s.status := rfl
@[simp] theorem State.setCount_host (s : State) (n : Word) : (s.setCount n).host = s.host := rfl
@[simp] theorem State.setCount_port (s : State) (n : Word) : (s.setCount n).port = s.port := rfl
@[simp] theorem State.setCount_draws (s : State) (n : Word) : (s.setCount n).draws = s.draws := rfl

/-! `setStatus` -/

@[simp] theorem State.setStatus_regs (s : State) (st : Status) : (s.setStatus st).regs = s.regs := rfl
@[simp] theorem State.setStatus_heap (s : State) (st : Status) : (s.setStatus st).heap = s.heap := rfl
@[simp] theorem State.setStatus_ft (s : State) (st : Status) : (s.setStatus st).ft = s.ft := rfl
@[simp] theorem State.setStatus_ct (s : State) (st : Status) : (s.setStatus st).ct = s.ct := rfl
@[simp] theorem State.setStatus_bits (s : State) (st : Status) : (s.setStatus st).bits = s.bits := rfl
@[simp] theorem State.setStatus_bitn (s : State) (st : Status) : (s.setStatus st).bitn = s.bitn := rfl
@[simp] theorem State.setStatus_ibuf (s : State) (st : Status) : (s.setStatus st).ibuf = s.ibuf := rfl
@[simp] theorem State.setStatus_ilen (s : State) (st : Status) : (s.setStatus st).ilen = s.ilen := rfl
@[simp] theorem State.setStatus_obuf (s : State) (st : Status) : (s.setStatus st).obuf = s.obuf := rfl
@[simp] theorem State.setStatus_olen (s : State) (st : Status) : (s.setStatus st).olen = s.olen := rfl
@[simp] theorem State.setStatus_arg (s : State) (st : Status) : (s.setStatus st).arg = s.arg := rfl
@[simp] theorem State.setStatus_res (s : State) (st : Status) : (s.setStatus st).res = s.res := rfl
@[simp] theorem State.setStatus_status (s : State) (st : Status) : (s.setStatus st).status = st := rfl
@[simp] theorem State.setStatus_host (s : State) (st : Status) : (s.setStatus st).host = s.host := rfl
@[simp] theorem State.setStatus_port (s : State) (st : Status) : (s.setStatus st).port = s.port := rfl
@[simp] theorem State.setStatus_draws (s : State) (st : Status) : (s.setStatus st).draws = s.draws := rfl

/-! `setPort` -/

@[simp] theorem State.setPort_regs (s : State) (w : Word) : (s.setPort w).regs = s.regs := rfl
@[simp] theorem State.setPort_heap (s : State) (w : Word) : (s.setPort w).heap = s.heap := rfl
@[simp] theorem State.setPort_ft (s : State) (w : Word) : (s.setPort w).ft = s.ft := rfl
@[simp] theorem State.setPort_ct (s : State) (w : Word) : (s.setPort w).ct = s.ct := rfl
@[simp] theorem State.setPort_bits (s : State) (w : Word) : (s.setPort w).bits = s.bits := rfl
@[simp] theorem State.setPort_bitn (s : State) (w : Word) : (s.setPort w).bitn = s.bitn := rfl
@[simp] theorem State.setPort_ibuf (s : State) (w : Word) : (s.setPort w).ibuf = s.ibuf := rfl
@[simp] theorem State.setPort_ilen (s : State) (w : Word) : (s.setPort w).ilen = s.ilen := rfl
@[simp] theorem State.setPort_obuf (s : State) (w : Word) : (s.setPort w).obuf = s.obuf := rfl
@[simp] theorem State.setPort_olen (s : State) (w : Word) : (s.setPort w).olen = s.olen := rfl
@[simp] theorem State.setPort_arg (s : State) (w : Word) : (s.setPort w).arg = s.arg := rfl
@[simp] theorem State.setPort_res (s : State) (w : Word) : (s.setPort w).res = s.res := rfl
@[simp] theorem State.setPort_status (s : State) (w : Word) : (s.setPort w).status = s.status := rfl
@[simp] theorem State.setPort_host (s : State) (w : Word) : (s.setPort w).host = s.host := rfl
@[simp] theorem State.setPort_port (s : State) (w : Word) : (s.setPort w).port = w := rfl
@[simp] theorem State.setPort_draws (s : State) (w : Word) : (s.setPort w).draws = s.draws := rfl

/-! `startCommand` -/

@[simp] theorem State.startCommand_regs (s : State) : (s.startCommand).regs = s.regs := rfl
@[simp] theorem State.startCommand_heap (s : State) : (s.startCommand).heap = s.heap := rfl
@[simp] theorem State.startCommand_ft (s : State) : (s.startCommand).ft = s.ft := rfl
@[simp] theorem State.startCommand_ct (s : State) : (s.startCommand).ct = s.ct := rfl
@[simp] theorem State.startCommand_bits (s : State) : (s.startCommand).bits = s.bits := rfl
@[simp] theorem State.startCommand_bitn (s : State) : (s.startCommand).bitn = s.bitn := rfl
@[simp] theorem State.startCommand_ibuf (s : State) : (s.startCommand).ibuf = s.ibuf := rfl
@[simp] theorem State.startCommand_ilen (s : State) : (s.startCommand).ilen = s.ilen := rfl
@[simp] theorem State.startCommand_obuf (s : State) : (s.startCommand).obuf = s.obuf := rfl
@[simp] theorem State.startCommand_olen (s : State) : (s.startCommand).olen = s.olen := rfl
@[simp] theorem State.startCommand_arg (s : State) : (s.startCommand).arg = s.arg := rfl
@[simp] theorem State.startCommand_res (s : State) : (s.startCommand).res = s.res := rfl
@[simp] theorem State.startCommand_status (s : State) : (s.startCommand).status = { s.status with busy := true } := rfl
@[simp] theorem State.startCommand_host (s : State) : (s.startCommand).host = s.host := rfl
@[simp] theorem State.startCommand_port (s : State) : (s.startCommand).port = s.port := rfl
@[simp] theorem State.startCommand_draws (s : State) : (s.startCommand).draws = s.draws := rfl

/-! `takeMove` -/

@[simp] theorem State.takeMove_regs (s : State) (rest : List Move) : (s.takeMove rest).regs = s.regs := rfl
@[simp] theorem State.takeMove_heap (s : State) (rest : List Move) : (s.takeMove rest).heap = s.heap := rfl
@[simp] theorem State.takeMove_ft (s : State) (rest : List Move) : (s.takeMove rest).ft = s.ft := rfl
@[simp] theorem State.takeMove_ct (s : State) (rest : List Move) : (s.takeMove rest).ct = s.ct := rfl
@[simp] theorem State.takeMove_bits (s : State) (rest : List Move) : (s.takeMove rest).bits = s.bits := rfl
@[simp] theorem State.takeMove_bitn (s : State) (rest : List Move) : (s.takeMove rest).bitn = s.bitn := rfl
@[simp] theorem State.takeMove_ibuf (s : State) (rest : List Move) : (s.takeMove rest).ibuf = s.ibuf := rfl
@[simp] theorem State.takeMove_ilen (s : State) (rest : List Move) : (s.takeMove rest).ilen = s.ilen := rfl
@[simp] theorem State.takeMove_obuf (s : State) (rest : List Move) : (s.takeMove rest).obuf = s.obuf := rfl
@[simp] theorem State.takeMove_olen (s : State) (rest : List Move) : (s.takeMove rest).olen = s.olen := rfl
@[simp] theorem State.takeMove_arg (s : State) (rest : List Move) : (s.takeMove rest).arg = s.arg := rfl
@[simp] theorem State.takeMove_res (s : State) (rest : List Move) : (s.takeMove rest).res = s.res := rfl
@[simp] theorem State.takeMove_status (s : State) (rest : List Move) : (s.takeMove rest).status = s.status := rfl
@[simp] theorem State.takeMove_host (s : State) (rest : List Move) : (s.takeMove rest).host = rest := rfl
@[simp] theorem State.takeMove_port (s : State) (rest : List Move) : (s.takeMove rest).port = s.port := rfl
@[simp] theorem State.takeMove_draws (s : State) (rest : List Move) : (s.takeMove rest).draws = s.draws + 1 := rfl

/-! `writeCodes` -/

@[simp] theorem State.writeCodes_regs (s : State) (c : Cells Code) : (s.writeCodes c).regs = s.regs := rfl
@[simp] theorem State.writeCodes_heap (s : State) (c : Cells Code) : (s.writeCodes c).heap = s.heap := rfl
@[simp] theorem State.writeCodes_ft (s : State) (c : Cells Code) : (s.writeCodes c).ft = s.ft := rfl
@[simp] theorem State.writeCodes_ct (s : State) (c : Cells Code) : (s.writeCodes c).ct = c.map fun e => (e.1, CtEntry.ofCode e.2) := rfl
@[simp] theorem State.writeCodes_bits (s : State) (c : Cells Code) : (s.writeCodes c).bits = s.bits := rfl
@[simp] theorem State.writeCodes_bitn (s : State) (c : Cells Code) : (s.writeCodes c).bitn = s.bitn := rfl
@[simp] theorem State.writeCodes_ibuf (s : State) (c : Cells Code) : (s.writeCodes c).ibuf = s.ibuf := rfl
@[simp] theorem State.writeCodes_ilen (s : State) (c : Cells Code) : (s.writeCodes c).ilen = s.ilen := rfl
@[simp] theorem State.writeCodes_obuf (s : State) (c : Cells Code) : (s.writeCodes c).obuf = s.obuf := rfl
@[simp] theorem State.writeCodes_olen (s : State) (c : Cells Code) : (s.writeCodes c).olen = s.olen := rfl
@[simp] theorem State.writeCodes_arg (s : State) (c : Cells Code) : (s.writeCodes c).arg = s.arg := rfl
@[simp] theorem State.writeCodes_res (s : State) (c : Cells Code) : (s.writeCodes c).res = s.res := rfl
@[simp] theorem State.writeCodes_status (s : State) (c : Cells Code) : (s.writeCodes c).status = s.status := rfl
@[simp] theorem State.writeCodes_host (s : State) (c : Cells Code) : (s.writeCodes c).host = s.host := rfl
@[simp] theorem State.writeCodes_port (s : State) (c : Cells Code) : (s.writeCodes c).port = s.port := rfl
@[simp] theorem State.writeCodes_draws (s : State) (c : Cells Code) : (s.writeCodes c).draws = s.draws := rfl

/-! `writeBits` -/

@[simp] theorem State.writeBits_regs (s : State) (b : Bits) : (s.writeBits b).regs = s.regs := rfl
@[simp] theorem State.writeBits_heap (s : State) (b : Bits) : (s.writeBits b).heap = s.heap := rfl
@[simp] theorem State.writeBits_ft (s : State) (b : Bits) : (s.writeBits b).ft = s.ft := rfl
@[simp] theorem State.writeBits_ct (s : State) (b : Bits) : (s.writeBits b).ct = s.ct := rfl
@[simp] theorem State.writeBits_bits (s : State) (b : Bits) : (s.writeBits b).bits = Cells.run 0 b := rfl
@[simp] theorem State.writeBits_bitn (s : State) (b : Bits) : (s.writeBits b).bitn = BitVec.ofNat 32 b.length := rfl
@[simp] theorem State.writeBits_ibuf (s : State) (b : Bits) : (s.writeBits b).ibuf = s.ibuf := rfl
@[simp] theorem State.writeBits_ilen (s : State) (b : Bits) : (s.writeBits b).ilen = s.ilen := rfl
@[simp] theorem State.writeBits_obuf (s : State) (b : Bits) : (s.writeBits b).obuf = s.obuf := rfl
@[simp] theorem State.writeBits_olen (s : State) (b : Bits) : (s.writeBits b).olen = s.olen := rfl
@[simp] theorem State.writeBits_arg (s : State) (b : Bits) : (s.writeBits b).arg = s.arg := rfl
@[simp] theorem State.writeBits_res (s : State) (b : Bits) : (s.writeBits b).res = s.res := rfl
@[simp] theorem State.writeBits_status (s : State) (b : Bits) : (s.writeBits b).status = s.status := rfl
@[simp] theorem State.writeBits_host (s : State) (b : Bits) : (s.writeBits b).host = s.host := rfl
@[simp] theorem State.writeBits_port (s : State) (b : Bits) : (s.writeBits b).port = s.port := rfl
@[simp] theorem State.writeBits_draws (s : State) (b : Bits) : (s.writeBits b).draws = s.draws := rfl

/-! `writeOut` -/

@[simp] theorem State.writeOut_regs (s : State) (b : List Byte) : (s.writeOut b).regs = s.regs := rfl
@[simp] theorem State.writeOut_heap (s : State) (b : List Byte) : (s.writeOut b).heap = s.heap := rfl
@[simp] theorem State.writeOut_ft (s : State) (b : List Byte) : (s.writeOut b).ft = s.ft := rfl
@[simp] theorem State.writeOut_ct (s : State) (b : List Byte) : (s.writeOut b).ct = s.ct := rfl
@[simp] theorem State.writeOut_bits (s : State) (b : List Byte) : (s.writeOut b).bits = s.bits := rfl
@[simp] theorem State.writeOut_bitn (s : State) (b : List Byte) : (s.writeOut b).bitn = s.bitn := rfl
@[simp] theorem State.writeOut_ibuf (s : State) (b : List Byte) : (s.writeOut b).ibuf = s.ibuf := rfl
@[simp] theorem State.writeOut_ilen (s : State) (b : List Byte) : (s.writeOut b).ilen = s.ilen := rfl
@[simp] theorem State.writeOut_obuf (s : State) (b : List Byte) : (s.writeOut b).obuf = Cells.run 0 b := rfl
@[simp] theorem State.writeOut_olen (s : State) (b : List Byte) : (s.writeOut b).olen = BitVec.ofNat 32 b.length := rfl
@[simp] theorem State.writeOut_arg (s : State) (b : List Byte) : (s.writeOut b).arg = s.arg := rfl
@[simp] theorem State.writeOut_res (s : State) (b : List Byte) : (s.writeOut b).res = s.res := rfl
@[simp] theorem State.writeOut_status (s : State) (b : List Byte) : (s.writeOut b).status = s.status := rfl
@[simp] theorem State.writeOut_host (s : State) (b : List Byte) : (s.writeOut b).host = s.host := rfl
@[simp] theorem State.writeOut_port (s : State) (b : List Byte) : (s.writeOut b).port = s.port := rfl
@[simp] theorem State.writeOut_draws (s : State) (b : List Byte) : (s.writeOut b).draws = s.draws := rfl

/-! `clearEncoding` -/

@[simp] theorem State.clearEncoding_regs (s : State) : (s.clearEncoding).regs = s.regs.set .n0 .absent := rfl
@[simp] theorem State.clearEncoding_heap (s : State) : (s.clearEncoding).heap = [] := rfl
@[simp] theorem State.clearEncoding_ft (s : State) : (s.clearEncoding).ft = [] := rfl
@[simp] theorem State.clearEncoding_ct (s : State) : (s.clearEncoding).ct = [] := rfl
@[simp] theorem State.clearEncoding_bits (s : State) : (s.clearEncoding).bits = [] := rfl
@[simp] theorem State.clearEncoding_bitn (s : State) : (s.clearEncoding).bitn = 0 := rfl
@[simp] theorem State.clearEncoding_ibuf (s : State) : (s.clearEncoding).ibuf = s.ibuf := rfl
@[simp] theorem State.clearEncoding_ilen (s : State) : (s.clearEncoding).ilen = s.ilen := rfl
@[simp] theorem State.clearEncoding_obuf (s : State) : (s.clearEncoding).obuf = s.obuf := rfl
@[simp] theorem State.clearEncoding_olen (s : State) : (s.clearEncoding).olen = s.olen := rfl
@[simp] theorem State.clearEncoding_arg (s : State) : (s.clearEncoding).arg = s.arg := rfl
@[simp] theorem State.clearEncoding_res (s : State) : (s.clearEncoding).res = s.res := rfl
@[simp] theorem State.clearEncoding_status (s : State) : (s.clearEncoding).status = s.status := rfl
@[simp] theorem State.clearEncoding_host (s : State) : (s.clearEncoding).host = s.host := rfl
@[simp] theorem State.clearEncoding_port (s : State) : (s.clearEncoding).port = s.port := rfl
@[simp] theorem State.clearEncoding_draws (s : State) : (s.clearEncoding).draws = s.draws := rfl

/-! `clearDecoding` -/

@[simp] theorem State.clearDecoding_regs (s : State) : (s.clearDecoding).regs = s.regs.set .n0 .absent := rfl
@[simp] theorem State.clearDecoding_heap (s : State) : (s.clearDecoding).heap = s.heap := rfl
@[simp] theorem State.clearDecoding_ft (s : State) : (s.clearDecoding).ft = s.ft := rfl
@[simp] theorem State.clearDecoding_ct (s : State) : (s.clearDecoding).ct = s.ct := rfl
@[simp] theorem State.clearDecoding_bits (s : State) : (s.clearDecoding).bits = s.bits := rfl
@[simp] theorem State.clearDecoding_bitn (s : State) : (s.clearDecoding).bitn = s.bitn := rfl
@[simp] theorem State.clearDecoding_ibuf (s : State) : (s.clearDecoding).ibuf = s.ibuf := rfl
@[simp] theorem State.clearDecoding_ilen (s : State) : (s.clearDecoding).ilen = s.ilen := rfl
@[simp] theorem State.clearDecoding_obuf (s : State) : (s.clearDecoding).obuf = [] := rfl
@[simp] theorem State.clearDecoding_olen (s : State) : (s.clearDecoding).olen = 0 := rfl
@[simp] theorem State.clearDecoding_arg (s : State) : (s.clearDecoding).arg = s.arg := rfl
@[simp] theorem State.clearDecoding_res (s : State) : (s.clearDecoding).res = s.res := rfl
@[simp] theorem State.clearDecoding_status (s : State) : (s.clearDecoding).status = s.status := rfl
@[simp] theorem State.clearDecoding_host (s : State) : (s.clearDecoding).host = s.host := rfl
@[simp] theorem State.clearDecoding_port (s : State) : (s.clearDecoding).port = s.port := rfl
@[simp] theorem State.clearDecoding_draws (s : State) : (s.clearDecoding).draws = s.draws := rfl

/-! `clearCompress` -/

@[simp] theorem State.clearCompress_regs (s : State) : (s.clearCompress).regs = s.regs.set .n0 .absent := rfl
@[simp] theorem State.clearCompress_heap (s : State) : (s.clearCompress).heap = [] := rfl
@[simp] theorem State.clearCompress_ft (s : State) : (s.clearCompress).ft = [] := rfl
@[simp] theorem State.clearCompress_ct (s : State) : (s.clearCompress).ct = [] := rfl
@[simp] theorem State.clearCompress_bits (s : State) : (s.clearCompress).bits = [] := rfl
@[simp] theorem State.clearCompress_bitn (s : State) : (s.clearCompress).bitn = 0 := rfl
@[simp] theorem State.clearCompress_ibuf (s : State) : (s.clearCompress).ibuf = s.ibuf := rfl
@[simp] theorem State.clearCompress_ilen (s : State) : (s.clearCompress).ilen = s.ilen := rfl
@[simp] theorem State.clearCompress_obuf (s : State) : (s.clearCompress).obuf = [] := rfl
@[simp] theorem State.clearCompress_olen (s : State) : (s.clearCompress).olen = 0 := rfl
@[simp] theorem State.clearCompress_arg (s : State) : (s.clearCompress).arg = s.arg := rfl
@[simp] theorem State.clearCompress_res (s : State) : (s.clearCompress).res = s.res := rfl
@[simp] theorem State.clearCompress_status (s : State) : (s.clearCompress).status = s.status := rfl
@[simp] theorem State.clearCompress_host (s : State) : (s.clearCompress).host = s.host := rfl
@[simp] theorem State.clearCompress_port (s : State) : (s.clearCompress).port = s.port := rfl
@[simp] theorem State.clearCompress_draws (s : State) : (s.clearCompress).draws = s.draws := rfl

/-! `clearDecompress` -/

@[simp] theorem State.clearDecompress_regs (s : State) : (s.clearDecompress).regs = s.regs.set .n0 .absent := rfl
@[simp] theorem State.clearDecompress_heap (s : State) : (s.clearDecompress).heap = s.heap := rfl
@[simp] theorem State.clearDecompress_ft (s : State) : (s.clearDecompress).ft = s.ft := rfl
@[simp] theorem State.clearDecompress_ct (s : State) : (s.clearDecompress).ct = [] := rfl
@[simp] theorem State.clearDecompress_bits (s : State) : (s.clearDecompress).bits = [] := rfl
@[simp] theorem State.clearDecompress_bitn (s : State) : (s.clearDecompress).bitn = 0 := rfl
@[simp] theorem State.clearDecompress_ibuf (s : State) : (s.clearDecompress).ibuf = s.ibuf := rfl
@[simp] theorem State.clearDecompress_ilen (s : State) : (s.clearDecompress).ilen = s.ilen := rfl
@[simp] theorem State.clearDecompress_obuf (s : State) : (s.clearDecompress).obuf = [] := rfl
@[simp] theorem State.clearDecompress_olen (s : State) : (s.clearDecompress).olen = 0 := rfl
@[simp] theorem State.clearDecompress_arg (s : State) : (s.clearDecompress).arg = s.arg := rfl
@[simp] theorem State.clearDecompress_res (s : State) : (s.clearDecompress).res = s.res := rfl
@[simp] theorem State.clearDecompress_status (s : State) : (s.clearDecompress).status = s.status := rfl
@[simp] theorem State.clearDecompress_host (s : State) : (s.clearDecompress).host = s.host := rfl
@[simp] theorem State.clearDecompress_port (s : State) : (s.clearDecompress).port = s.port := rfl
@[simp] theorem State.clearDecompress_draws (s : State) : (s.clearDecompress).draws = s.draws := rfl

/-! `endWith` -/

@[simp] theorem State.endWith_regs (s : State) (x : Completion) : (s.endWith x).regs = s.regs := rfl
@[simp] theorem State.endWith_heap (s : State) (x : Completion) : (s.endWith x).heap = s.heap := rfl
@[simp] theorem State.endWith_ft (s : State) (x : Completion) : (s.endWith x).ft = s.ft := rfl
@[simp] theorem State.endWith_ct (s : State) (x : Completion) : (s.endWith x).ct = s.ct := rfl
@[simp] theorem State.endWith_bits (s : State) (x : Completion) : (s.endWith x).bits = s.bits := rfl
@[simp] theorem State.endWith_bitn (s : State) (x : Completion) : (s.endWith x).bitn = s.bitn := rfl
@[simp] theorem State.endWith_ibuf (s : State) (x : Completion) : (s.endWith x).ibuf = s.ibuf := rfl
@[simp] theorem State.endWith_ilen (s : State) (x : Completion) : (s.endWith x).ilen = s.ilen := rfl
@[simp] theorem State.endWith_obuf (s : State) (x : Completion) : (s.endWith x).obuf = s.obuf := rfl
@[simp] theorem State.endWith_olen (s : State) (x : Completion) : (s.endWith x).olen = s.olen := rfl
@[simp] theorem State.endWith_arg (s : State) (x : Completion) : (s.endWith x).arg = s.arg := rfl
@[simp] theorem State.endWith_res (s : State) (x : Completion) : (s.endWith x).res = s.res := rfl
@[simp] theorem State.endWith_status (s : State) (x : Completion) : (s.endWith x).status = s.status.ending x := rfl
@[simp] theorem State.endWith_host (s : State) (x : Completion) : (s.endWith x).host = s.host := rfl
@[simp] theorem State.endWith_port (s : State) (x : Completion) : (s.endWith x).port = s.port := rfl
@[simp] theorem State.endWith_draws (s : State) (x : Completion) : (s.endWith x).draws = s.draws := rfl

/-! `toReset` -/

@[simp] theorem State.toReset_regs (s : State) : s.toReset.regs = ⟨.absent, .absent, .absent, .absent⟩ := rfl
@[simp] theorem State.toReset_heap (s : State) : s.toReset.heap = [] := rfl
@[simp] theorem State.toReset_ft (s : State) : s.toReset.ft = [] := rfl
@[simp] theorem State.toReset_ct (s : State) : s.toReset.ct = [] := rfl
@[simp] theorem State.toReset_bits (s : State) : s.toReset.bits = [] := rfl
@[simp] theorem State.toReset_bitn (s : State) : s.toReset.bitn = 0 := rfl
@[simp] theorem State.toReset_ibuf (s : State) : s.toReset.ibuf = [] := rfl
@[simp] theorem State.toReset_ilen (s : State) : s.toReset.ilen = 0 := rfl
@[simp] theorem State.toReset_obuf (s : State) : s.toReset.obuf = [] := rfl
@[simp] theorem State.toReset_olen (s : State) : s.toReset.olen = 0 := rfl
@[simp] theorem State.toReset_arg (s : State) : s.toReset.arg = 0 := rfl
@[simp] theorem State.toReset_res (s : State) : s.toReset.res = ⟨.noNode, 0, 0, 0⟩ := rfl
@[simp] theorem State.toReset_status (s : State) : s.toReset.status = ⟨.ok, false, false⟩ := rfl
@[simp] theorem State.toReset_host (s : State) : s.toReset.host = s.host := rfl
@[simp] theorem State.toReset_port (s : State) : s.toReset.port = s.port := rfl
@[simp] theorem State.toReset_draws (s : State) : s.toReset.draws = s.draws := rfl

/-! `report`: only `RES` -/

@[simp] theorem State.report_regs (s : State) (v : Slot) : (s.report v).regs = s.regs := by cases v <;> rfl
@[simp] theorem State.report_heap (s : State) (v : Slot) : (s.report v).heap = s.heap := by cases v <;> rfl
@[simp] theorem State.report_ft (s : State) (v : Slot) : (s.report v).ft = s.ft := by cases v <;> rfl
@[simp] theorem State.report_ct (s : State) (v : Slot) : (s.report v).ct = s.ct := by cases v <;> rfl
@[simp] theorem State.report_bits (s : State) (v : Slot) : (s.report v).bits = s.bits := by cases v <;> rfl
@[simp] theorem State.report_bitn (s : State) (v : Slot) : (s.report v).bitn = s.bitn := by cases v <;> rfl
@[simp] theorem State.report_ibuf (s : State) (v : Slot) : (s.report v).ibuf = s.ibuf := by cases v <;> rfl
@[simp] theorem State.report_ilen (s : State) (v : Slot) : (s.report v).ilen = s.ilen := by cases v <;> rfl
@[simp] theorem State.report_obuf (s : State) (v : Slot) : (s.report v).obuf = s.obuf := by cases v <;> rfl
@[simp] theorem State.report_olen (s : State) (v : Slot) : (s.report v).olen = s.olen := by cases v <;> rfl
@[simp] theorem State.report_arg (s : State) (v : Slot) : (s.report v).arg = s.arg := by cases v <;> rfl
@[simp] theorem State.report_status (s : State) (v : Slot) : (s.report v).status = s.status := by cases v <;> rfl
@[simp] theorem State.report_host (s : State) (v : Slot) : (s.report v).host = s.host := by cases v <;> rfl
@[simp] theorem State.report_port (s : State) (v : Slot) : (s.report v).port = s.port := by cases v <;> rfl
@[simp] theorem State.report_draws (s : State) (v : Slot) : (s.report v).draws = s.draws := by cases v <;> rfl
@[simp] theorem State.report_absent_res (s : State) : (s.report .absent).res = ⟨.noNode, 0, 0, s.res.count⟩ := rfl
@[simp] theorem State.report_node_res (s : State) (n : Node) :
    (s.report (.node n)).res = ⟨n.kind, n.sym, n.freq, s.res.count⟩ := rfl

/-! Node registers: the register written holds what was written, every other one what it held. -/

@[simp] theorem NodeRegs.get_set_same (n : NodeRegs) (r : NReg) (v : Slot) : (n.set r v).get r = v := by cases r <;> rfl

theorem NodeRegs.get_set_ne (n : NodeRegs) {r q : NReg} (h : q ≠ r) (v : Slot) : (n.set r v).get q = n.get q := by
  cases r <;> cases q <;> first | rfl | exact absurd rfl h

theorem NodeRegs.get_set (n : NodeRegs) (r q : NReg) (v : Slot) :
    (n.set r v).get q = if q = r then v else n.get q := by
  by_cases h : q = r
  · subst h; simp
  · simp [h, NodeRegs.get_set_ne n h v]

@[simp] theorem NodeRegs.set_set_same (n : NodeRegs) (r : NReg) (v w : Slot) : (n.set r v).set r w = n.set r w := by
  cases r <;> rfl

/-- `Live` after a register write: the Nodes written come in, the Nodes discarded go (R23, R24). -/
theorem NodeRegs.live_set (n : NodeRegs) (r : NReg) (v : Slot) :
    (n.set r v).live + (n.get r).size = n.live + v.size := by
  cases r <;> simp [NodeRegs.live, NodeRegs.set, NodeRegs.get] <;> omega

theorem State.reg_setReg (s : State) (r q : NReg) (v : Slot) : (s.setReg r v).reg q = if q = r then v else s.reg q :=
  NodeRegs.get_set s.regs r q v

@[simp] theorem Slot.size_absent : Slot.absent.size = 0 := rfl
@[simp] theorem Slot.size_node (n : Node) : (Slot.node n).size = n.size := rfl

/-! The projections of a Node (spec/10_state.md R20). -/

@[simp] theorem Node.freq_leaf (y : Sym) (f : Freq) : (Node.leaf y f).freq = f := rfl
@[simp] theorem Node.freq_branch (f : Freq) (l r : Slot) : (Node.branch f l r).freq = f := rfl
@[simp] theorem Node.size_leaf (y : Sym) (f : Freq) : (Node.leaf y f).size = 1 := rfl
@[simp] theorem Node.size_branch (f : Freq) (l r : Slot) : (Node.branch f l r).size = 1 + l.size + r.size := rfl
@[simp] theorem Node.child_leaf (y : Sym) (f : Freq) (b : Bool) : (Node.leaf y f).child b = .absent := rfl
@[simp] theorem Node.child_branch (f : Freq) (l r : Slot) (b : Bool) :
    (Node.branch f l r).child b = if b then r else l := by cases b <;> rfl

theorem Node.size_pos (n : Node) : 0 < n.size := by cases n <;> simp [Node.size]

@[simp] theorem heapLive_nil : heapLive [] = 0 := rfl
@[simp] theorem heapLive_cons (n : Node) (h : List Node) : heapLive (n :: h) = n.size + heapLive h := rfl

end Sys2Proof.Machine
end

