-- ==== Sys2Proof/Laws/Memory.lean ====
section
/-! SUPPORT. Sparse memory: reading after writing, the window a command reads, and the canonical form, which every
memory operation keeps and which the reset state has. -/

namespace Sys2Proof.Machine

variable {α β : Type}

/-! ### Reading after writing -/

@[simp] theorem Cells.get_nil (k : Nat) : Cells.get ([] : Cells α) k = none := rfl

theorem Cells.get_put (c : Cells α) (k j : Nat) (v : α) :
    Cells.get (Cells.put c k v) j = if j = k then some v else Cells.get c j := by
  induction c with
  | nil => simp [Cells.put, Cells.get, eq_comm]
  | cons e c ih =>
    obtain ⟨a, x⟩ := e
    simp only [Cells.put]
    split
    · simp [Cells.get, eq_comm]
    · split
      · next h => subst h; by_cases hj : k = j <;> simp [Cells.get, hj, eq_comm (a := j)]
      · next h =>
        simp only [Cells.get, ih]
        by_cases ha : a = j
        · subst ha; simp [Ne.symm h]
        · simp [ha]

theorem Cells.get_erase (c : Cells α) (k j : Nat) :
    Cells.get (Cells.erase c k) j = if j = k then none else Cells.get c j := by
  induction c with
  | nil => simp [Cells.erase]
  | cons e c ih =>
    obtain ⟨a, x⟩ := e
    by_cases ha : a = k
    · subst ha
      simp only [Cells.erase, if_true, ih, Cells.get]
      by_cases hj : j = a
      · simp [hj]
      · simp [hj, Ne.symm hj]
    · by_cases hj : a = j
      · subst hj; simp [Cells.erase, Cells.get, ha]
      · simp [Cells.erase, Cells.get, ih, ha, hj]

theorem Cells.get_putRun (vs : List α) (c : Cells α) (k j : Nat) :
    Cells.get (Cells.putRun c k vs) j = if k ≤ j ∧ j < k + vs.length then vs[j - k]? else Cells.get c j := by
  induction vs generalizing c k with
  | nil => simp [Cells.putRun, show ¬ (k ≤ j ∧ j < k) by omega]
  | cons v vs ih =>
    simp only [Cells.putRun, ih, Cells.get_put, List.length_cons]
    by_cases h : k + 1 ≤ j ∧ j < k + 1 + vs.length
    · rw [if_pos h, if_pos (by omega), show j - k = (j - (k + 1)) + 1 by omega, List.getElem?_cons_succ]
    · by_cases hj : j = k
      · subst hj; simp
      · rw [if_neg h, if_neg hj, if_neg (by omega)]

theorem Cells.get_run (vs : List α) (k j : Nat) :
    Cells.get (Cells.run k vs) j = if k ≤ j then vs[j - k]? else none := by
  induction vs generalizing k with
  | nil => simp [Cells.run]
  | cons v vs ih =>
    simp only [Cells.run, Cells.get, ih]
    by_cases h : k = j
    · subst h; simp
    · by_cases hj : k ≤ j
      · simp [h, hj, show k + 1 ≤ j by omega, show j - k = (j - (k + 1)) + 1 by omega]
      · simp [h, hj, show ¬ k + 1 ≤ j by omega]

/-- A key below the first of a rising memory is not listed. -/
theorem Cells.get_of_rising_lt {hi lo : Nat} {c : Cells α} (h : Cells.rising hi lo c = true) {k : Nat} (hk : k < lo) :
    Cells.get c k = none := by
  induction c generalizing lo with
  | nil => rfl
  | cons e c ih =>
    obtain ⟨a, x⟩ := e
    simp only [Cells.rising, Bool.and_eq_true, decide_eq_true_eq] at h
    simp only [Cells.get, if_neg (show a ≠ k by omega)]
    exact ih h.2 (by omega)

theorem Cells.get_map (g : Nat → α → β) (c : Cells α) (k : Nat) :
    Cells.get (c.map fun e => (e.1, g e.1 e.2)) k = (Cells.get c k).map (g k) := by
  induction c with
  | nil => rfl
  | cons e c ih =>
    obtain ⟨a, x⟩ := e
    by_cases h : a = k
    · subst h; simp [Cells.get]
    · simpa [Cells.get, h] using ih

/-! ### The window a command reads -/

@[simp] theorem Cells.window_length (free : Nat → α) (n k : Nat) (c : Cells α) :
    (Cells.window free n k c).length = n := by
  induction n generalizing k c with
  | zero => rfl
  | succ n ih =>
    match c with
    | [] => simp [Cells.window, ih]
    | (a, x) :: c => simp only [Cells.window]; split <;> simp [ih]

/-- Value by value, the window is what is listed, or the free value. -/
theorem Cells.window_eq {hi : Nat} (free : Nat → α) (n : Nat) {k : Nat} {c : Cells α}
    (h : Cells.rising hi k c = true) :
    Cells.window free n k c = (List.range' k n).map fun j => (Cells.get c j).getD (free j) := by
  induction n generalizing k c with
  | zero => rfl
  | succ n ih =>
    match c with
    | [] => simp [Cells.window, List.range'_succ, ih (k := k + 1) (c := []) rfl]
    | (a, x) :: c =>
      have h' := h
      simp only [Cells.rising, Bool.and_eq_true, decide_eq_true_eq] at h'
      obtain ⟨⟨h1, h2⟩, h3⟩ := h'
      simp only [Cells.window, List.range'_succ, List.map_cons]
      split
      · next hak =>
        subst hak
        rw [ih h3]
        simp only [Cells.get, if_true, Option.getD_some, List.cons.injEq, true_and]
        apply List.map_congr_left
        intro j hj
        rw [if_neg (by have := List.mem_range'_1.mp hj; omega)]
      · next hak =>
        have h4 : Cells.rising hi (k + 1) ((a, x) :: c) = true := by
          simp [Cells.rising, h3, h2, show k + 1 ≤ a by omega]
        rw [ih h4]
        congr 1
        rw [Cells.get_of_rising_lt h4 (by omega)]
        rfl

/-- Reading back a sequence that was written whole gives the sequence, and no free value. -/
@[simp] theorem Cells.window_run (free : Nat → α) (vs : List α) (k : Nat) :
    Cells.window free vs.length k (Cells.run k vs) = vs := by
  induction vs generalizing k with
  | nil => rfl
  | cons v vs ih => simp [Cells.run, Cells.window, ih]

/-! ### The canonical form -/

theorem Cells.rising_mono {hi lo lo' : Nat} {c : Cells α} (h : Cells.rising hi lo c = true) (hl : lo' ≤ lo) :
    Cells.rising hi lo' c = true := by
  match c with
  | [] => rfl
  | (a, x) :: c =>
    simp only [Cells.rising, Bool.and_eq_true, decide_eq_true_eq] at h ⊢
    exact ⟨⟨by omega, h.1.2⟩, h.2⟩

theorem Cells.put_rising {hi lo k : Nat} {c : Cells α} (h : Cells.rising hi lo c = true) (hl : lo ≤ k) (hk : k < hi)
    (v : α) : Cells.rising hi lo (Cells.put c k v) = true := by
  induction c generalizing lo with
  | nil => simp [Cells.put, Cells.rising, hl, hk]
  | cons e c ih =>
    obtain ⟨a, x⟩ := e
    simp only [Cells.rising, Bool.and_eq_true, decide_eq_true_eq] at h
    simp only [Cells.put]
    split
    · next hka => simp [Cells.rising, hl, hk, h, show k + 1 ≤ a by omega]
    · split
      · next he => subst he; simp [Cells.rising, h]
      · next hne => simp [Cells.rising, h.1, ih h.2 (by omega)]

theorem Cells.putRun_rising {hi lo k : Nat} {c : Cells α} (vs : List α) (h : Cells.rising hi lo c = true)
    (hl : lo ≤ k) (hk : k + vs.length ≤ hi) : Cells.rising hi lo (Cells.putRun c k vs) = true := by
  induction vs generalizing c k with
  | nil => exact h
  | cons v vs ih =>
    simp only [List.length_cons] at hk
    exact ih (Cells.put_rising h hl (by omega) v) (by omega) (by omega)

theorem Cells.erase_rising {hi lo : Nat} {c : Cells α} (h : Cells.rising hi lo c = true) (k : Nat) :
    Cells.rising hi lo (Cells.erase c k) = true := by
  induction c generalizing lo with
  | nil => rfl
  | cons e c ih =>
    obtain ⟨a, x⟩ := e
    simp only [Cells.rising, Bool.and_eq_true, decide_eq_true_eq] at h
    simp only [Cells.erase]
    split
    · exact Cells.rising_mono (ih h.2) (by omega)
    · simp [Cells.rising, h.1, ih h.2]

theorem Cells.run_rising {hi k : Nat} (vs : List α) (h : k + vs.length ≤ hi) :
    Cells.rising hi k (Cells.run k vs) = true := by
  induction vs generalizing k with
  | nil => rfl
  | cons v vs ih =>
    simp only [List.length_cons] at h
    simp [Cells.run, Cells.rising, ih (k := k + 1) (by omega), show k < hi by omega]

theorem Cells.map_rising {hi lo : Nat} {c : Cells α} (g : Nat × α → β) (h : Cells.rising hi lo c = true) :
    Cells.rising hi lo (c.map fun e => (e.1, g e)) = true := by
  induction c generalizing lo with
  | nil => rfl
  | cons e c ih =>
    obtain ⟨a, x⟩ := e
    simp only [Cells.rising, Bool.and_eq_true, decide_eq_true_eq] at h
    simp [Cells.rising, h.1, ih h.2]

/-- A table built by going through the keys in order is in rising order. -/
theorem Cells.rising_filterMap_range' {hi : Nat} (f : Nat → Option α) (n k : Nat) (h : k + n ≤ hi) :
    Cells.rising hi k ((List.range' k n).filterMap fun j => (f j).map fun v => (j, v)) = true := by
  induction n generalizing k with
  | zero => rfl
  | succ n ih =>
    simp only [List.range'_succ, List.filterMap_cons]
    have ih' := ih (k + 1) (by omega)
    cases f k with
    | none => exact Cells.rising_mono ih' (by omega)
    | some v => simp [Cells.rising, ih', show k < hi by omega]

theorem Cells.get_filterMap_range' (f : Nat → Option α) (n k j : Nat) :
    Cells.get ((List.range' k n).filterMap fun i => (f i).map fun v => (i, v)) j =
      if k ≤ j ∧ j < k + n then f j else none := by
  induction n generalizing k with
  | zero => simp [show ¬ (k ≤ j ∧ j < k) by omega]
  | succ n ih =>
    simp only [List.range'_succ, List.filterMap_cons]
    have ih' := ih (k + 1)
    cases hf : f k with
    | none =>
      simp only [Option.map_none, ih']
      by_cases hj : j = k
      · subst hj; simp [hf]
      · by_cases h : k + 1 ≤ j ∧ j < k + 1 + n
        · rw [if_pos h, if_pos (by omega)]
        · rw [if_neg h, if_neg (by omega)]
    | some v =>
      simp only [Option.map_some, Cells.get, ih']
      by_cases hj : k = j
      · subst hj; simp [hf]
      · by_cases h : k + 1 ≤ j ∧ j < k + 1 + n
        · rw [if_neg hj, if_pos h, if_pos (by omega)]
        · rw [if_neg hj, if_neg h, if_neg (by omega)]

theorem Cells.mem_of_get {c : Cells α} {k : Nat} {v : α} (h : Cells.get c k = some v) : (k, v) ∈ c := by
  induction c with
  | nil => simp at h
  | cons e c ih =>
    obtain ⟨a, x⟩ := e
    by_cases ha : a = k
    · subst ha; simp [Cells.get] at h; simp [h]
    · simp [Cells.get, ha] at h; exact List.mem_cons_of_mem _ (ih h)

theorem Cells.mem_put {c : Cells α} {k : Nat} {v : α} {e : Nat × α} (h : e ∈ Cells.put c k v) :
    e = (k, v) ∨ e ∈ c := by
  induction c with
  | nil => simpa [Cells.put] using h
  | cons d c ih =>
    obtain ⟨a, x⟩ := d
    simp only [Cells.put] at h
    split at h
    · simpa using h
    · split at h
      · rcases List.mem_cons.mp h with h | h
        · exact .inl h
        · exact .inr (List.mem_cons_of_mem _ h)
      · rcases List.mem_cons.mp h with h | h
        · exact .inr (by simp [h])
        · exact (ih h).imp id (List.mem_cons_of_mem _)

theorem Cells.mem_erase {c : Cells α} {k : Nat} {e : Nat × α} (h : e ∈ Cells.erase c k) : e ∈ c := by
  induction c with
  | nil => simp [Cells.erase] at h
  | cons d c ih =>
    obtain ⟨a, x⟩ := d
    simp only [Cells.erase] at h
    split at h
    · exact List.mem_cons_of_mem _ (ih h)
    · rcases List.mem_cons.mp h with h | h
      · simp [h]
      · exact List.mem_cons_of_mem _ (ih h)

/-! ### The state's memories -/

/-- The canonical form, memory by memory. -/
theorem Memory.wf_iff (s : State) : Memory.wf s = true ↔
    Cells.rising Config.ibufCap 0 s.ibuf = true ∧ Cells.rising Config.obufCap 0 s.obuf = true ∧
    Cells.rising Config.bitCap 0 s.bits = true ∧
    (Cells.rising 256 0 s.ft = true ∧ ∀ e ∈ s.ft, e.2 ≠ 0) ∧
    (Cells.rising 256 0 s.ct = true ∧ ∀ e ∈ s.ct, e.2 ≠ CtEntry.empty ∧ e.2.wf = true) := by
  simp only [Memory.wf, Bool.and_eq_true, List.all_eq_true, bne_iff_ne, ne_eq]
  tauto

theorem Memory.wf_reset : Memory.wf State.reset = true := rfl

/-- The canonical form is about the five memories alone. -/
theorem Memory.wf_congr {s t : State} (h1 : t.ibuf = s.ibuf) (h2 : t.obuf = s.obuf) (h3 : t.bits = s.bits)
    (h4 : t.ft = s.ft) (h5 : t.ct = s.ct) : Memory.wf t = Memory.wf s := by
  simp only [Memory.wf, h1, h2, h3, h4, h5]

theorem freqTable_eq (b : List Byte) : freqTable b = (List.range' 0 256).filterMap fun j =>
    (if b.count (BitVec.ofNat 8 j) = 0 then none else some (BitVec.ofNat 32 (b.count (BitVec.ofNat 8 j)))).map
      fun v => (j, v) := by
  unfold freqTable allSyms
  rw [List.filterMap_map, List.range_eq_range']
  apply List.filterMap_congr
  intro j hj
  have hj' : j < 256 := by have := List.mem_range'_1.mp hj; omega
  by_cases hc : b.count (BitVec.ofNat 8 j) = 0 <;> simp [hc, Nat.mod_eq_of_lt hj']

/-- The frequency table of a text that fits the input buffer is in canonical form (spec/41 R100). -/
theorem Memory.wf_setFt {s : State} (h : Memory.wf s = true) {b : List Byte} (hb : b.length < 2 ^ Config.freqW) :
    Memory.wf (s.setFt (freqTable b)) = true := by
  rw [Memory.wf_iff] at h ⊢
  refine ⟨h.1, h.2.1, h.2.2.1, ⟨?_, ?_⟩, h.2.2.2.2⟩
  · simp only [State.setFt_ft, freqTable_eq]
    exact Cells.rising_filterMap_range' _ 256 0 (by omega)
  · intro e he
    simp only [State.setFt_ft, freqTable, List.mem_filterMap] at he
    obtain ⟨y, -, hy⟩ := he
    split at hy
    · cases hy
    · next hc =>
      cases hy
      have hle := List.count_le_length (a := y) (l := b)
      simp only [ne_eq, ← BitVec.toNat_inj, BitVec.toNat_ofNat]
      have : List.count y b < 2 ^ 32 := lt_of_le_of_lt hle hb
      rw [Nat.mod_eq_of_lt this]
      exact hc

theorem Memory.wf_clearFt {s : State} (h : Memory.wf s = true) : Memory.wf (s.setFt []) = true := by
  rw [Memory.wf_iff] at h ⊢
  exact ⟨h.1, h.2.1, h.2.2.1, ⟨rfl, by simp⟩, h.2.2.2.2⟩

theorem Memory.wf_clearCt {s : State} (h : Memory.wf s = true) : Memory.wf (s.setCt []) = true := by
  rw [Memory.wf_iff] at h ⊢
  exact ⟨h.1, h.2.1, h.2.2.1, h.2.2.2.1, ⟨rfl, by simp⟩⟩

@[simp] theorem CtEntry.wf_iff (e : CtEntry) : e.wf = true ↔ e.bits.length = Config.maxCodeLen := by
  simp [CtEntry.wf]

theorem CtEntry.wf_ofCode {c : Code} (h : c.length ≤ Config.maxCodeLen) : (CtEntry.ofCode c).wf = true := by
  simp only [CtEntry.wf_iff, CtEntry.ofCode, List.length_append, List.length_replicate]
  omega

theorem Memory.wf_writeCodes {s : State} (h : Memory.wf s = true) {c : CodeTable}
    (hc : Cells.rising 256 0 c = true) (hl : ∀ e ∈ c, e.2.length ≤ Config.maxCodeLen) :
    Memory.wf (s.writeCodes c) = true := by
  rw [Memory.wf_iff] at h ⊢
  refine ⟨h.1, h.2.1, h.2.2.1, h.2.2.2.1, ⟨?_, ?_⟩⟩
  · exact Cells.map_rising (fun e => CtEntry.ofCode e.2) hc
  · intro e he
    simp only [State.writeCodes_ct, List.mem_map] at he
    obtain ⟨d, hd, rfl⟩ := he
    exact ⟨by simp [CtEntry.ofCode, CtEntry.empty], CtEntry.wf_ofCode (hl d hd)⟩

theorem Memory.wf_writeBits {s : State} (h : Memory.wf s = true) {b : Bits} (hb : b.length ≤ Config.bitCap) :
    Memory.wf (s.writeBits b) = true := by
  rw [Memory.wf_iff] at h ⊢
  exact ⟨h.1, h.2.1, Cells.run_rising b (by omega), h.2.2.2⟩

theorem Memory.wf_clearBits {s : State} (h : Memory.wf s = true) : Memory.wf (s.setBits []) = true := by
  rw [Memory.wf_iff] at h ⊢
  exact ⟨h.1, h.2.1, rfl, h.2.2.2⟩

theorem Memory.wf_writeOut {s : State} (h : Memory.wf s = true) {b : List Byte} (hb : b.length ≤ Config.obufCap) :
    Memory.wf (s.writeOut b) = true := by
  rw [Memory.wf_iff] at h ⊢
  exact ⟨h.1, Cells.run_rising b (by omega), h.2.2⟩

theorem Memory.wf_clearOut {s : State} (h : Memory.wf s = true) : Memory.wf (s.setObuf []) = true := by
  rw [Memory.wf_iff] at h ⊢
  exact ⟨h.1, rfl, h.2.2⟩

theorem Memory.wf_putInput {s : State} (h : Memory.wf s = true) {a : Nat} (ha : a < Config.ibufCap) (x : Byte) :
    Memory.wf (s.setIbuf (Cells.put s.ibuf a x)) = true := by
  rw [Memory.wf_iff] at h ⊢
  exact ⟨Cells.put_rising h.1 (by omega) ha x, h.2⟩

@[simp] theorem bitsOfByte_length (x : Byte) : (bitsOfByte x).length = 8 := by simp [bitsOfByte]

theorem Memory.wf_writeBitsByte {s : State} (h : Memory.wf s = true) {a : Nat} (ha : a < Config.bitCap / 8)
    (x : Byte) : Memory.wf (s.writeBitsByte a x) = true := by
  rw [Memory.wf_iff] at h ⊢
  refine ⟨h.1, h.2.1, ?_, h.2.2.2⟩
  exact Cells.putRun_rising _ h.2.2.1 (by omega) (by simp [Config.bitCap] at ha ⊢; omega)

theorem CtEntry.wf_setWord0 {e : CtEntry} (h : e.wf = true) (w : Word) : (e.setWord0 w).wf = true := h

@[simp] theorem CtEntry.wf_setCodeWord (e : CtEntry) (v : Nat) (w : Word) : (e.setCodeWord v w).wf = true := by
  simp [CtEntry.wf, CtEntry.setCodeWord]

theorem Memory.wf_putEntry {s : State} (h : Memory.wf s = true) {k : Nat} (hk : k < 256) {e : CtEntry}
    (he : e.wf = true) : Memory.wf (s.putEntry k e) = true := by
  rw [Memory.wf_iff] at h ⊢
  refine ⟨h.1, h.2.1, h.2.2.1, h.2.2.2.1, ?_⟩
  simp only [State.putEntry, State.setCt_ct]
  split
  · exact ⟨Cells.erase_rising h.2.2.2.2.1 k, fun d hd => h.2.2.2.2.2 d (Cells.mem_erase hd)⟩
  · next hne =>
    refine ⟨Cells.put_rising h.2.2.2.2.1 (by omega) hk e, fun d hd => ?_⟩
    rcases Cells.mem_put hd with rfl | hd
    · exact ⟨hne, he⟩
    · exact h.2.2.2.2.2 d hd

theorem State.ctEntry_wf {s : State} (h : Memory.wf s = true) (k : Nat) : (s.ctEntry k).wf = true := by
  unfold State.ctEntry
  cases hg : Cells.get s.ct k with
  | none => simp [CtEntry.empty]
  | some e => exact (((Memory.wf_iff s).mp h).2.2.2.2.2 _ (Cells.mem_of_get hg)).2

/-- Every host write keeps the canonical form. -/
theorem Memory.wf_hostWrite {s : State} (h : Memory.wf s = true) (loc : Loc) (x : Word) :
    Memory.wf (s.hostWrite loc x) = true := by
  unfold State.hostWrite
  split
  · exact h
  · cases loc with
    | reg r =>
      simp only [State.writePlace, State.writeReg]
      split <;> exact h
    | ibuf a =>
      simp only [State.writePlace]
      split
      · next ha => exact Memory.wf_putInput h ha _
      · exact h
    | obuf a => exact h
    | bits a =>
      simp only [State.writePlace]
      split
      · next ha => exact Memory.wf_writeBitsByte h ha _
      · exact h
    | ft k => exact h
    | ct k w =>
      simp only [State.writePlace]
      split
      · next hkw =>
        simp only [Bool.and_eq_true, decide_eq_true_eq] at hkw
        apply Memory.wf_putEntry h hkw.1
        split
        · exact CtEntry.wf_setWord0 (State.ctEntry_wf h k) x
        · exact CtEntry.wf_setCodeWord _ _ x
      · exact h

theorem Memory.wf_toReset (s : State) : Memory.wf s.toReset = true := rfl

end Sys2Proof.Machine
end

