-- ==== Sys2Proof/Laws/Operands.lean ====
section
/-! SUPPORT. The implicit operands: the symbols in order, the tables symbol by symbol, and what a command reads back of
what a command wrote. -/

namespace Sys2Proof.Machine

/-! ### The symbols -/

theorem mem_allSyms (y : Sym) : y ∈ allSyms := by
  simp only [allSyms, List.mem_map, List.mem_range]
  exact ⟨y.toNat, y.isLt, by simp⟩

@[simp] theorem allSyms_length : allSyms.length = 256 := by simp [allSyms]

/-- The symbols stand in increasing order, each once (spec/00_scope.md R14). -/
theorem allSyms_pairwise : allSyms.Pairwise (fun x y => x.toNat < y.toNat) := by
  rw [allSyms, List.pairwise_map]
  refine (List.pairwise_lt_range (n := 256)).imp_of_mem fun ha hb hab => ?_
  rw [List.mem_range] at ha hb
  simp only [BitVec.toNat_ofNat]
  omega

theorem allSyms_nodup : allSyms.Nodup :=
  allSyms_pairwise.imp fun h he => absurd (he ▸ h) (Nat.lt_irrefl _)

/-! ### Code tables -/

theorem codeAt_put (c : CodeTable) (y z : Sym) (b : Code) :
    codeAt (Cells.put c y.toNat b) z = if z = y then some b else codeAt c z := by
  simp only [codeAt, Cells.get_put, BitVec.toNat_inj]

@[simp] theorem codeAt_nil (y : Sym) : codeAt [] y = none := rfl

/-- The present entries are exactly the table's (spec/44_tree_reconstructor.md R124). -/
theorem mem_entriesOf (c : CodeTable) (y : Sym) (b : Code) : (y, b) ∈ entriesOf c ↔ codeAt c y = some b := by
  simp only [entriesOf, List.mem_filterMap, Option.map_eq_some_iff, Prod.mk.injEq]
  constructor
  · rintro ⟨z, -, d, hd, rfl, rfl⟩; exact hd
  · intro h; exact ⟨y, mem_allSyms y, b, h, rfl, rfl⟩

/-- The symbols of the present entries, in order. -/
theorem entriesOf_syms (c : CodeTable) : (entriesOf c).map (·.1) = allSyms.filter fun y => (codeAt c y).isSome := by
  unfold entriesOf
  induction allSyms with
  | nil => rfl
  | cons y l ih => cases h : codeAt c y <;> simp [h, ih]

theorem entriesOf_nodup (c : CodeTable) : ((entriesOf c).map (·.1)).Nodup := by
  rw [entriesOf_syms]; exact allSyms_nodup.filter _

/-- Tables that agree symbol by symbol have the same present entries. -/
theorem entriesOf_congr {c d : CodeTable} (h : ∀ y, codeAt c y = codeAt d y) : entriesOf c = entriesOf d := by
  simp only [entriesOf, h]

theorem entriesOf_eq_nil (c : CodeTable) : entriesOf c = [] ↔ ∀ y, codeAt c y = none := by
  constructor
  · intro h y
    cases hy : codeAt c y with
    | none => rfl
    | some b => exact absurd ((mem_entriesOf c y b).mpr hy) (by simp [h])
  · intro h; simp [entriesOf, h]

/-- A table is as long as the list of its present entries says. -/
theorem entriesOf_length (c : CodeTable) :
    (entriesOf c).length = (allSyms.filter fun y => (codeAt c y).isSome).length := by
  rw [← entriesOf_syms, List.length_map]

/-! ### `CT` as stored and as read (spec/20_memory.md R46) -/

theorem CtEntry.code_ofCode {c : Code} (h : c.length ≤ Config.maxCodeLen) : (CtEntry.ofCode c).code = some c := by
  have hc : c.length % 256 = c.length := Nat.mod_eq_of_lt (by simp [Config.maxCodeLen] at h; omega)
  simp [CtEntry.ofCode, CtEntry.code, BitVec.toNat_ofNat, hc]

/-- What a command reads of a table a command wrote. -/
theorem State.codeOf_of_written {s : State} {c : CodeTable}
    (hct : s.ct = c.map fun e => (e.1, CtEntry.ofCode e.2))
    (h : ∀ y : Sym, ∀ b, codeAt c y = some b → b.length ≤ Config.maxCodeLen) (y : Sym) :
    s.codeOf y.toNat = codeAt c y := by
  unfold State.codeOf State.ctEntry
  rw [hct, Cells.get_map (fun _ x => CtEntry.ofCode x) c]
  change CtEntry.code (((codeAt c y).map CtEntry.ofCode).getD CtEntry.empty) = codeAt c y
  cases hy : codeAt c y with
  | none => simp [CtEntry.empty, CtEntry.code]
  | some b => exact CtEntry.code_ofCode (h y b hy)

/-- The CodeTable operand, symbol by symbol. -/
theorem State.codeAt_codes (s : State) (y : Sym) : codeAt s.codes y = s.codeOf y.toNat := by
  rw [codeAt, State.codes, List.range_eq_range', Cells.get_filterMap_range' s.codeOf,
    if_pos ⟨Nat.zero_le _, by have := y.isLt; omega⟩]

/-! ### Frequency tables -/

theorem countAt_freqTable (b : List Byte) (y : Sym) : countAt (freqTable b) y = BitVec.ofNat 32 (b.count y) := by
  have hy : BitVec.ofNat 8 y.toNat = y := by simp
  rw [countAt, freqTable_eq, Cells.get_filterMap_range',
    if_pos ⟨Nat.zero_le _, by have := y.isLt; omega⟩, hy]
  split
  · next h => simp [h]
  · rfl

/-- A count of a text that fits the frequency width (spec/41_node_and_tree_builder.md R100). -/
theorem countAt_freqTable_toNat {b : List Byte} (hb : b.length < 2 ^ 32) (y : Sym) :
    (countAt (freqTable b) y).toNat = b.count y := by
  rw [countAt_freqTable, BitVec.toNat_ofNat, Nat.mod_eq_of_lt (lt_of_le_of_lt List.count_le_length hb)]

theorem mem_keysOf (t : Cells Freq) (y : Sym) : y ∈ keysOf t ↔ countAt t y ≠ 0 := by
  simp [keysOf, mem_allSyms]

theorem keysOf_nodup (t : Cells Freq) : (keysOf t).Nodup := allSyms_nodup.filter _

theorem keysOf_length_le (t : Cells Freq) : (keysOf t).length ≤ 256 := by
  rw [← allSyms_length]; exact List.length_filter_le _ _

theorem keysOf_eq_nil (t : Cells Freq) : keysOf t = [] ↔ ∀ y, countAt t y = 0 := by
  constructor
  · intro h y
    by_contra hy
    exact absurd ((mem_keysOf t y).mpr hy) (by simp [h])
  · intro h; simp [keysOf, h]

/-- The keys of a text's table are its symbols. -/
theorem mem_keysOf_freqTable {b : List Byte} (hb : b.length < 2 ^ 32) (y : Sym) :
    y ∈ keysOf (freqTable b) ↔ y ∈ b := by
  rw [mem_keysOf, ne_eq, ← BitVec.toNat_inj, countAt_freqTable_toNat hb]
  simp [List.count_eq_zero]

/-- The keys of a text's table, in order: the symbols that occur in it. -/
theorem keysOf_freqTable {b : List Byte} (hb : b.length < 2 ^ 32) :
    keysOf (freqTable b) = allSyms.filter fun y => b.contains y := by
  apply List.filter_congr
  intro y _
  have h := (mem_keysOf (freqTable b) y).symm.trans (mem_keysOf_freqTable hb y)
  rw [Bool.eq_iff_iff, bne_iff_ne, ne_eq, List.contains_iff_mem]
  exact h

/-- A sum that picks one member out of a list without repeats. -/
theorem sum_map_ite_eq (l : List Sym) (hl : l.Nodup) (x : Sym) (hx : x ∈ l) (n : Nat) :
    (l.map fun y => if y = x then n else 0).sum = n := by
  induction l with
  | nil => simp at hx
  | cons a l ih =>
    rw [List.nodup_cons] at hl
    by_cases ha : a = x
    · subst ha
      have h0 : (l.map fun y => if y = a then n else 0).sum = 0 := by
        apply List.sum_eq_zero
        intro m hm
        obtain ⟨y, hy, rfl⟩ := List.mem_map.mp hm
        rw [if_neg]
        rintro rfl
        exact hl.1 hy
      simp [h0]
    · rcases List.mem_cons.mp hx with h | h
      · exact absurd h.symm ha
      · simp [ha, ih hl.2 h]

/-- The sum over all symbols of a symbol's count times a weight is the sum of the weights over the text; with weight 1
it is the text's length (spec/41_node_and_tree_builder.md R100, spec/43_encoder.md R120 (a)). -/
theorem sum_count_mul (w : Sym → Nat) (b : List Byte) :
    (allSyms.map fun y => b.count y * w y).sum = (b.map w).sum := by
  induction b with
  | nil =>
    apply List.sum_eq_zero
    intro n hn
    obtain ⟨y, -, rfl⟩ := List.mem_map.mp hn
    simp
  | cons x b ih =>
    have hx : (fun y => (x :: b).count y * w y) = fun y => b.count y * w y + if y = x then w x else 0 := by
      funext y
      by_cases h : y = x
      · subst h; simp [Nat.add_mul]
      · simp [h, Ne.symm h]
    rw [hx, List.sum_map_add, ih, sum_map_ite_eq _ allSyms_nodup x (mem_allSyms x), List.map_cons, List.sum_cons,
      Nat.add_comm]

/-- The counts of a text's table add up to its length (R100). -/
theorem sum_countAt_freqTable {b : List Byte} (hb : b.length < 2 ^ 32) :
    (allSyms.map fun y => (countAt (freqTable b) y).toNat).sum = b.length := by
  have h := sum_count_mul (fun _ => 1) b
  rw [show (b.map fun _ => 1).sum = b.length by simp] at h
  rw [← h]
  refine congrArg List.sum (List.map_congr_left fun y _ => ?_)
  rw [countAt_freqTable_toNat hb, Nat.mul_one]

/-! ### Buffers -/

@[simp] theorem State.inputBytes_length (s : State) : s.inputBytes.length = s.ilen.toNat := Cells.window_length _ _ _ _

@[simp] theorem State.inputBits_length (s : State) : s.inputBits.length = s.bitn.toNat := Cells.window_length _ _ _ _

/-- A command reads back the bits a command wrote, and no free value. -/
theorem State.inputBits_of_written {s : State} {b : Bits} (hb : s.bits = Cells.run 0 b)
    (hn : s.bitn.toNat = b.length) : s.inputBits = b := by
  rw [State.inputBits, hb, hn, Cells.window_run]

/-- A host reads back the bytes a command wrote, and no free value. -/
theorem State.output_of_written {s : State} {b : List Byte} (hb : s.obuf = Cells.run 0 b)
    (hn : s.olen.toNat = b.length) : s.output = b := by
  rw [State.output, hb, hn, Cells.window_run]

end Sys2Proof.Machine
end

