-- ==== Sys2Proof/Laws/Bits.lean ====
section
/-! SUPPORT. Bit sequences and bytes: a byte and its eight bits, packing and unpacking (spec/00_scope.md R12). -/

namespace Sys2Proof.Machine

/-- The number eight or thirty-two bits spell, bit by bit: reading a bit of it gives the bit. -/
theorem natOfBits_append (a b : Bits) : natOfBits (a ++ b) = natOfBits a * 2 ^ b.length + natOfBits b := by
  have h : ∀ (b : Bits) (n : Nat), b.foldl (fun acc x => 2 * acc + x.toNat) n = n * 2 ^ b.length + natOfBits b := by
    intro b
    induction b with
    | nil => intro n; simp [natOfBits]
    | cons x b ih =>
      intro n
      have hx : natOfBits (x :: b) = (2 * 0 + x.toNat) * 2 ^ b.length + natOfBits b := ih _
      rw [List.foldl_cons, ih, hx, List.length_cons, pow_succ]
      ring
  rw [natOfBits, List.foldl_append]
  exact h b _

theorem natOfBits_lt (b : Bits) : natOfBits b < 2 ^ b.length := by
  induction b using List.reverseRecOn with
  | nil => simp [natOfBits]
  | append_singleton b x ih =>
    rw [natOfBits_append, List.length_append, pow_add]
    have : natOfBits [x] < 2 := by cases x <;> simp [natOfBits]
    simp only [List.length_singleton, pow_one]
    omega

/-- Bit `n - 1 - j` of the number a sequence of `n` bits spells is bit `j` of the sequence. -/
theorem natOfBits_testBit (b : Bits) (j : Nat) (hj : j < b.length) :
    (natOfBits b).testBit (b.length - 1 - j) = b[j] := by
  induction b using List.reverseRecOn with
  | nil => simp at hj
  | append_singleton b x ih =>
    rw [natOfBits_append]
    simp only [List.length_append, List.length_singleton] at hj ⊢
    have hx : natOfBits [x] = x.toNat := by simp [natOfBits]
    rw [hx]
    by_cases h : j < b.length
    · rw [List.getElem_append_left h, ← ih h, show b.length + 1 - 1 - j = (b.length - 1 - j) + 1 by omega,
        Nat.testBit_succ]
      congr 1
      have : x.toNat < 2 := by cases x <;> decide
      omega
    · obtain rfl : j = b.length := by omega
      simp only [Nat.add_sub_cancel, Nat.sub_self, Nat.testBit_zero, List.getElem_concat_length]
      cases x <;> simp

theorem byteOfBits_getLsbD (b : Bits) (j : Nat) (hj : j < 8) :
    (byteOfBits b).getLsbD (7 - j) = (b[j]?).getD false := by
  have := natOfBits_testBit ((List.range 8).map fun j => (b[j]?).getD false) j (by simpa using hj)
  simp only [List.length_map, List.length_range, List.getElem_map, List.getElem_range] at this
  rw [byteOfBits, BitVec.getLsbD_ofNat, ← this]
  simp only [show 8 - 1 - j = 7 - j by omega]
  simp; omega

/-- Bit `31 - j` of the word a sequence of 32 bits spells is bit `j` of it (spec/20_memory.md R46). -/
theorem wordOfBits_getLsbD (b : Bits) (hb : b.length = 32) (j : Nat) (hj : j < 32) :
    (wordOfBits b).getLsbD (31 - j) = (b[j]?).getD false := by
  have := natOfBits_testBit b j (by omega)
  rw [show b.length - 1 - j = 31 - j by omega] at this
  rw [wordOfBits, BitVec.getLsbD_ofNat, this, List.getElem?_eq_getElem (by omega)]
  simp; omega

/-- The eight bits of the byte eight bits make are those bits, a missing one 0. -/
theorem bitsOfByte_byteOfBits (b : Bits) : bitsOfByte (byteOfBits b) = (List.range 8).map fun j => (b[j]?).getD false := by
  apply List.map_congr_left
  intro j hj
  exact byteOfBits_getLsbD b j (List.mem_range.mp hj)

theorem bitsOfByte_byteOfBits_take {b : Bits} (hb : b.length ≤ 8) :
    bitsOfByte (byteOfBits b) = b ++ List.replicate (8 - b.length) false := by
  rw [bitsOfByte_byteOfBits]
  apply List.ext_getElem
  · simp; omega
  · intro j h1 h2
    simp only [List.length_map, List.length_range] at h1
    simp only [List.getElem_map, List.getElem_range]
    by_cases h : j < b.length
    · simp [h]
    · rw [List.getElem_append_right (Nat.le_of_not_lt h)]
      simp [h]

theorem packBytes_length (n : Nat) (b : Bits) : (packBytes n b).length = n := by
  induction n generalizing b with
  | zero => rfl
  | succ n ih => simp [packBytes, ih]

/-- A packed sequence is the fewest bytes that hold it. -/
theorem pack_length (b : Bits) : (pack b).length = (b.length + 7) / 8 := packBytes_length _ _

/-- Unpacking `n` packed bytes: the sequence, and zero bits up to the end of the last byte. -/
theorem unpack_packBytes (n : Nat) (b : Bits) (hb : b.length ≤ 8 * n) :
    unpack (packBytes n b) = b ++ List.replicate (8 * n - b.length) false := by
  induction n generalizing b with
  | zero =>
    obtain rfl := List.eq_nil_of_length_eq_zero (Nat.le_zero.mp hb)
    rfl
  | succ n ih =>
    have h := ih (b.drop 8) (by simp; omega)
    unfold unpack at h ⊢
    simp only [packBytes, List.flatMap_cons, h, bitsOfByte_byteOfBits_take (b := b.take 8) (by simp)]
    by_cases h8 : 8 ≤ b.length
    · have : (b.take 8).length = 8 := by simp; omega
      rw [this, Nat.sub_self, List.replicate_zero, List.append_nil, ← List.append_assoc, List.take_append_drop]
      congr 2
      simp; omega
    · rw [List.take_of_length_le (by omega), List.drop_of_length_le (by omega)]
      simp only [List.nil_append, List.length_nil, List.append_assoc, List.replicate_append_replicate]
      congr 2
      omega

/-- Bit `k` of the packed sequence is bit `7 - (k mod 8)` of byte `k div 8` (R12). -/
theorem packBytes_getElem? (n : Nat) (b : Bits) (k : Nat) (hk : k < 8 * n) :
    ((packBytes n b)[k / 8]?).map (fun x => x.getLsbD (7 - k % 8)) = some ((b[k]?).getD false) := by
  induction n generalizing b k with
  | zero => omega
  | succ n ih =>
    by_cases h : k < 8
    · rw [show k / 8 = 0 by omega, show k % 8 = k by omega]
      simp only [packBytes, List.getElem?_cons_zero, Option.map_some]
      rw [byteOfBits_getLsbD _ _ h, List.getElem?_take_of_lt h]
    · obtain ⟨j, rfl⟩ : ∃ j, k = j + 8 := ⟨k - 8, by omega⟩
      rw [show (j + 8) / 8 = j / 8 + 1 by omega, show (j + 8) % 8 = j % 8 by omega]
      simp only [packBytes, List.getElem?_cons_succ]
      rw [ih _ j (by omega), List.getElem?_drop, Nat.add_comm]

@[simp] theorem unpack_length (l : List Byte) : (unpack l).length = 8 * l.length := by
  induction l with
  | nil => rfl
  | cons x l ih => simp only [unpack, List.flatMap_cons] at ih ⊢; simp [ih]; omega

end Sys2Proof.Machine
end

