-- ==== Sys2Proof/Laws/Ops.lean ====
section
/-! SUPPORT. What the shared operations can do, each said once: the end of a command, the node-limit test, the text
operand, the making of a Branch, the host's moves. -/

namespace Sys2Proof.Machine

/-! ### The end of a command (spec/60_exceptions.md R163) -/

@[simp] theorem Status.ending_code (x : Completion) (st : Status) : (st.ending x).code = x := rfl
@[simp] theorem Status.ending_fatal (x : Completion) (st : Status) : (st.ending x).fatal = (st.fatal || x.isFatal) := rfl
@[simp] theorem Status.ending_busy (x : Completion) (st : Status) : (st.ending x).busy = false := rfl

/-- Ending with success leaves the sticky flag as it was. -/
@[simp] theorem Status.ending_ok (st : Status) : st.ending .ok = ⟨.ok, st.fatal, false⟩ := by
  simp [Status.ending, Completion.isFatal]

/-- Ending with a code that is not fatal leaves the sticky flag as it was; with a fatal one it is 1 (R159). -/
theorem Status.ending_of_not_fatal {x : Completion} (h : x.isFatal = false) (st : Status) :
    st.ending x = ⟨x, st.fatal, false⟩ := by simp [Status.ending, h]

theorem Status.ending_of_fatal {x : Completion} (h : x.isFatal = true) (st : Status) :
    st.ending x = ⟨x, true, false⟩ := by simp [Status.ending, h]

/-! The sticky flag, code by code (R158, R159). -/

@[simp] theorem Status.ending_emptyInput (st : Status) :
    st.ending .emptyInput = ⟨.emptyInput, st.fatal, false⟩ := Status.ending_of_not_fatal rfl st
@[simp] theorem Status.ending_formatMismatch (st : Status) :
    st.ending .formatMismatch = ⟨.formatMismatch, true, false⟩ := Status.ending_of_fatal rfl st
@[simp] theorem Status.ending_malformedBitstream (st : Status) :
    st.ending .malformedBitstream = ⟨.malformedBitstream, true, false⟩ := Status.ending_of_fatal rfl st
@[simp] theorem Status.ending_structuralInconsistency (st : Status) :
    st.ending .structuralInconsistency = ⟨.structuralInconsistency, true, false⟩ := Status.ending_of_fatal rfl st
@[simp] theorem Status.ending_queueEmpty (st : Status) :
    st.ending .queueEmpty = ⟨.queueEmpty, st.fatal, false⟩ := Status.ending_of_not_fatal rfl st
@[simp] theorem Status.ending_unrepresentable (st : Status) :
    st.ending .unrepresentable = ⟨.unrepresentable, true, false⟩ := Status.ending_of_fatal rfl st
@[simp] theorem Status.ending_capacityExceeded (st : Status) :
    st.ending .capacityExceeded = ⟨.capacityExceeded, true, false⟩ := Status.ending_of_fatal rfl st
@[simp] theorem Status.ending_illegalOperation (st : Status) :
    st.ending .illegalOperation = ⟨.illegalOperation, true, false⟩ := Status.ending_of_fatal rfl st

@[simp] theorem State.conclude_ok (c t : State) : c.conclude (.ok t) = t.endWith .ok := rfl
@[simp] theorem State.conclude_error (c : State) (x : Completion) : c.conclude (.error x) = c.endWith x := rfl

/-- The two ways a command ends: its body's result with code 0, or the failure state with the code raised. -/
theorem State.conclude_cases (c : State) (r : Except Completion State) :
    (∃ t, r = .ok t ∧ c.conclude r = t.endWith .ok) ∨ ∃ x, r = .error x ∧ c.conclude r = c.endWith x := by
  cases r with
  | ok t => exact .inl ⟨t, rfl, rfl⟩
  | error x => exact .inr ⟨x, rfl, rfl⟩

/-! ### The tests -/

/-- The node-limit test (spec/10_state.md R24). -/
theorem State.checkLive_cases (s : State) :
    (s.live ≤ Config.nodeCap ∧ s.checkLive = .ok s) ∨
    (Config.nodeCap < s.live ∧ s.checkLive = .error .capacityExceeded) := by
  unfold State.checkLive
  split
  · next h => exact .inr ⟨h, rfl⟩
  · next h => exact .inl ⟨Nat.le_of_not_lt h, rfl⟩

theorem State.checkLive_of_le {s : State} (h : s.live ≤ Config.nodeCap) : s.checkLive = .ok s := by
  simp [State.checkLive, Nat.not_lt.mpr h]

theorem State.checkLive_of_lt {s : State} (h : Config.nodeCap < s.live) : s.checkLive = .error .capacityExceeded := by
  simp [State.checkLive, h]

/-- A state that passed the node-limit test is the state tested. -/
theorem State.checkLive_ok {s t : State} (h : s.checkLive = .ok t) : t = s ∧ s.live ≤ Config.nodeCap := by
  rcases s.checkLive_cases with ⟨h1, h2⟩ | ⟨-, h2⟩
  · rw [h2] at h; cases h; exact ⟨rfl, h1⟩
  · rw [h2] at h; cases h

/-- The input-length tests, in their order (spec/10_state.md R32, spec/60_exceptions.md R168). -/
theorem State.textOperand_cases (s : State) :
    (Config.ibufCap < s.ilen.toNat ∧ s.textOperand = .error .capacityExceeded) ∨
    (s.ilen = 0 ∧ s.textOperand = .error .emptyInput) ∨
    (s.ilen ≠ 0 ∧ s.ilen.toNat ≤ Config.ibufCap ∧ s.textOperand = .ok s.inputBytes) := by
  unfold State.textOperand
  split
  · next h => exact .inl ⟨h, rfl⟩
  · next h =>
    split
    · next h0 => exact .inr (.inl ⟨h0, rfl⟩)
    · next h0 => exact .inr (.inr ⟨h0, Nat.le_of_not_lt h, rfl⟩)

/-- The making of a Branch (spec/41_node_and_tree_builder.md R97): the sum is exact, or it raises. -/
theorem mkBranch_cases (a b : Node) :
    (2 ^ 32 ≤ a.freq.toNat + b.freq.toNat ∧ mkBranch a b = .error .capacityExceeded) ∨
    (a.freq.toNat + b.freq.toNat < 2 ^ 32 ∧ (a.freq + b.freq).toNat = a.freq.toNat + b.freq.toNat ∧
      mkBranch a b = .ok (.branch (a.freq + b.freq) (.node a) (.node b))) := by
  unfold mkBranch Config.freqW
  split
  · next h => exact .inl ⟨h, rfl⟩
  · next h =>
    have h := Nat.lt_of_not_le h
    exact .inr ⟨h, by rw [BitVec.toNat_add, Nat.mod_eq_of_lt h], rfl⟩

/-! ### Reports -/

/-- `RES` after a report, whatever the slot holds (spec/10_state.md R35). -/
theorem State.report_eq (s : State) (v : Slot) :
    s.report v = s.setRes (match v with | .absent => .noNode | .node n => n.kind)
      (match v with | .absent => 0 | .node n => n.sym) v.freq := by
  cases v <;> rfl

end Sys2Proof.Machine
end

