-- ==== Sys2Proof/Laws/Queue.lean ====
section
/-! SUPPORT. The priority queue: an insert and an extract keep the multiset of Nodes and the heap order, and the root
is a Node of least frequency (spec/40_priority_queue.md R91, R92). -/

namespace Sys2Proof.Machine

/-! ### Slots and keys -/

theorem keyAt_of_getElem? {h : List Node} {i : Nat} {n : Node} (hi : h[i]? = some n) : keyAt h i = n.freq.toNat := by
  simp [keyAt, hi]

/-- `HeapLess`, in terms of keys (R82). -/
theorem lessAt_iff (h : List Node) (i j : Nat) :
    lessAt h i j = true ↔ i < h.length ∧ j < h.length ∧ keyAt h i < keyAt h j := by
  unfold lessAt keyAt
  by_cases hi : i < h.length <;> by_cases hj : j < h.length <;> simp [hi, hj]

@[simp] theorem swapAt_length (h : List Node) (i j : Nat) : (swapAt h i j).length = h.length := by
  unfold swapAt; split <;> simp

theorem swapAt_perm (h : List Node) (i j : Nat) : (swapAt h i j).Perm h := by
  unfold swapAt
  split
  · next a b ha hb =>
    obtain ⟨hi, rfl⟩ := List.getElem?_eq_some_iff.mp ha
    obtain ⟨hj, rfl⟩ := List.getElem?_eq_some_iff.mp hb
    exact List.set_set_perm hi hj
  · exact List.Perm.refl _

/-- What the keys are after a swap. -/
theorem keyAt_swapAt {h : List Node} {i j : Nat} (hi : i < h.length) (hj : j < h.length) (k : Nat) :
    keyAt (swapAt h i j) k = if k = j then keyAt h i else if k = i then keyAt h j else keyAt h k := by
  simp only [swapAt, List.getElem?_eq_getElem hi, List.getElem?_eq_getElem hj, keyAt, List.getElem?_set,
    List.length_set]
  by_cases hkj : k = j
  · subst hkj; simp [hj]
  · by_cases hki : k = i
    · subst hki; simp [Ne.symm hkj, hkj, hi]
    · simp [Ne.symm hkj, Ne.symm hki, hkj, hki]

/-! ### Sifting keeps the Nodes -/

theorem siftUp_perm (fuel : Nat) (h : List Node) (i : Nat) : (siftUp fuel h i).Perm h := by
  induction fuel generalizing h i with
  | zero => exact List.Perm.refl _
  | succ fuel ih =>
    simp only [siftUp]
    split
    · exact (ih _ _).trans (swapAt_perm _ _ _)
    · exact List.Perm.refl _

theorem siftDown_perm (fuel : Nat) (h : List Node) (i : Nat) : (siftDown fuel h i).Perm h := by
  induction fuel generalizing h i with
  | zero => exact List.Perm.refl _
  | succ fuel ih =>
    simp only [siftDown]
    split
    · exact List.Perm.refl _
    · exact (ih _ _).trans (swapAt_perm _ _ _)

/-- As a multiset, the queue after an insert is the old one and the Node (R92). -/
theorem pqInsert_perm (h : List Node) (n : Node) : (pqInsert h n).Perm (n :: h) :=
  (siftUp_perm _ _ _).trans (List.perm_append_singleton _ _)

@[simp] theorem pqInsert_length (h : List Node) (n : Node) : (pqInsert h n).length = h.length + 1 := by
  rw [(pqInsert_perm h n).length_eq]; rfl

/-- What an extract can do: nothing on an empty queue, else the root comes out and the rest stays (R86, R92). -/
theorem pqExtract_cases (h : List Node) :
    (h = [] ∧ pqExtract h = none) ∨
    ∃ m rest, ∃ h' : List Node, h = m :: rest ∧ pqExtract h = some (m, h') ∧ h'.Perm rest := by
  match h with
  | [] => exact .inl ⟨rfl, rfl⟩
  | m :: rest =>
    refine .inr ⟨m, rest, ?_⟩
    rcases List.eq_nil_or_concat rest with rfl | ⟨l, d, rfl⟩
    · exact ⟨[], rfl, rfl, List.Perm.refl _⟩
    · refine ⟨siftDown (l ++ [d]).length (d :: l) 0, by simp, by simp [pqExtract], ?_⟩
      rw [List.concat_eq_append]
      exact (siftDown_perm _ _ _).trans (List.perm_append_singleton _ _).symm

theorem pqExtract_perm {h h' : List Node} {m : Node} (he : pqExtract h = some (m, h')) : h.Perm (m :: h') := by
  rcases pqExtract_cases h with ⟨-, h2⟩ | ⟨m', rest, h'', rfl, h2, hp⟩
  · rw [h2] at he; cases he
  · rw [h2] at he; cases he; exact (List.Perm.cons _ hp).symm

theorem pqExtract_length {h h' : List Node} {m : Node} (he : pqExtract h = some (m, h')) :
    h.length = h'.length + 1 := (pqExtract_perm he).length_eq

theorem pqExtract_head {h h' : List Node} {m : Node} (he : pqExtract h = some (m, h')) : h.head? = some m := by
  rcases pqExtract_cases h with ⟨-, h2⟩ | ⟨m', rest, h'', rfl, h2, -⟩
  · rw [h2] at he; cases he
  · rw [h2] at he; cases he; rfl

theorem pqExtract_of_ne_nil {h : List Node} (hne : h ≠ []) : ∃ m h', pqExtract h = some (m, h') := by
  rcases pqExtract_cases h with ⟨rfl, -⟩ | ⟨m, _, h', _, h2, _⟩
  · exact absurd rfl hne
  · exact ⟨m, h', h2⟩

theorem pqExtract_eq_none {h : List Node} : pqExtract h = none ↔ h = [] := by
  rcases pqExtract_cases h with ⟨rfl, h2⟩ | ⟨m, rest, h', rfl, h2, -⟩ <;> simp [h2]

/-! ### Sifting keeps the order -/

/-- Ordered everywhere but between `i` and its parent, and the parent of `i` no heavier than the children of `i`: what
`SiftUp` starts from and keeps (R91). -/
def upOrdered (h : List Node) (i : Nat) : Prop :=
  (∀ k < h.length, 0 < k → k ≠ i → keyAt h ((k - 1) / 2) ≤ keyAt h k) ∧
  ∀ k < h.length, 0 < k → (k - 1) / 2 = i → 0 < i → keyAt h ((i - 1) / 2) ≤ keyAt h k

/-- Ordered everywhere but between `i` and its children, and the parent of `i` no heavier than the children of `i`:
what `SiftDown` starts from and keeps (R91). -/
def downOrdered (h : List Node) (i : Nat) : Prop :=
  (∀ k < h.length, 0 < k → (k - 1) / 2 ≠ i → keyAt h ((k - 1) / 2) ≤ keyAt h k) ∧
  ∀ k < h.length, 0 < k → (k - 1) / 2 = i → 0 < i → keyAt h ((i - 1) / 2) ≤ keyAt h k

theorem upOrdered_swap {h : List Node} {i : Nat} (hu : upOrdered h i) (h0 : 0 < i) (hi : i < h.length)
    (hl : keyAt h i < keyAt h ((i - 1) / 2)) : upOrdered (swapAt h i ((i - 1) / 2)) ((i - 1) / 2) := by
  obtain ⟨p, hp⟩ : ∃ p, p = (i - 1) / 2 := ⟨_, rfl⟩
  rw [← hp] at hl ⊢
  have hpi : p < i := by omega
  obtain ⟨h1, h2⟩ := hu
  refine ⟨fun k hk hk0 hkp => ?_, fun k hk hk0 hkp hp0 => ?_⟩
  · rw [swapAt_length] at hk
    rw [keyAt_swapAt hi (by omega), keyAt_swapAt hi (by omega)]
    have h1k := h1 k hk hk0
    have h2k := h2 k hk hk0
    rw [← hp] at h2k
    by_cases hki : k = i
    · subst hki
      rw [if_pos hp.symm, if_neg (by omega), if_pos rfl]; omega
    · have := h1k hki
      by_cases hkp' : (k - 1) / 2 = p
      · rw [if_pos hkp', if_neg hkp, if_neg hki]; rw [hkp'] at this; omega
      · by_cases hki' : (k - 1) / 2 = i
        · rw [if_neg hkp', if_pos hki', if_neg hkp, if_neg hki]; exact h2k hki' h0
        · rw [if_neg hkp', if_neg hki', if_neg hkp, if_neg hki]; exact this
  · rw [swapAt_length] at hk
    rw [keyAt_swapAt hi (by omega), keyAt_swapAt hi (by omega)]
    have hpp := h1 p (by omega) hp0 (by omega)
    rw [if_neg (by omega), if_neg (by omega), if_neg (by omega)]
    by_cases hki : k = i
    · rw [if_pos hki]; exact hpp
    · rw [if_neg hki]
      have := h1 k hk hk0 hki
      rw [hkp] at this; omega

theorem siftUp_ordered (fuel : Nat) {h : List Node} {i : Nat} (hf : i ≤ fuel) (hi : i < h.length)
    (hu : upOrdered h i) : heapOrdered (siftUp fuel h i) := by
  induction fuel generalizing h i with
  | zero =>
    intro k hk hk0
    exact hu.1 k hk hk0 (by omega)
  | succ fuel ih =>
    simp only [siftUp]
    split
    · next hc =>
      simp only [Bool.and_eq_true, decide_eq_true_eq, lessAt_iff] at hc
      exact ih (by omega) (by rw [swapAt_length]; omega) (upOrdered_swap hu hc.1 hi hc.2.2.2)
    · next hc =>
      simp only [Bool.and_eq_true, decide_eq_true_eq, lessAt_iff, not_and] at hc
      intro k hk hk0
      by_cases hki : k = i
      · subst hki
        exact Nat.le_of_not_lt (hc hk0 hk (by omega))
      · exact hu.1 k hk hk0 hki

theorem keyAt_append_left {h : List Node} {k : Nat} (hk : k < h.length) (n : Node) :
    keyAt (h ++ [n]) k = keyAt h k := by
  simp [keyAt, List.getElem?_append_left hk]

/-- An insert keeps the heap order (R91). -/
theorem pqInsert_ordered {h : List Node} (ho : heapOrdered h) (n : Node) : heapOrdered (pqInsert h n) := by
  apply siftUp_ordered _ (Nat.le_refl _) (by simp)
  refine ⟨fun k hk hk0 hkn => ?_, fun k hk hk0 hkp _ => ?_⟩
  · simp only [List.length_append, List.length_singleton] at hk
    rw [keyAt_append_left (by omega), keyAt_append_left (by omega)]
    exact ho k (by omega) hk0
  · simp only [List.length_append, List.length_singleton] at hk
    omega

/-- What `SiftDown` compares (R82): no child is lighter, or the place to go to is the lightest of the three. -/
theorem downTo_cases {h : List Node} {i : Nat} (hi : i < h.length) :
    (downTo h i = i ∧ ∀ k < h.length, 0 < k → (k - 1) / 2 = i → keyAt h i ≤ keyAt h k) ∨
    (downTo h i < h.length ∧ 0 < downTo h i ∧ (downTo h i - 1) / 2 = i ∧ keyAt h (downTo h i) < keyAt h i ∧
      ∀ k < h.length, 0 < k → (k - 1) / 2 = i → keyAt h (downTo h i) ≤ keyAt h k) := by
  have child : ∀ k, 0 < k → (k - 1) / 2 = i → k = 2 * i + 1 ∨ k = 2 * i + 2 := by omega
  have hl := lessAt_iff h (2 * i + 1) i
  have hr := lessAt_iff h (2 * i + 2) i
  have hrl := lessAt_iff h (2 * i + 2) (2 * i + 1)
  unfold downTo
  by_cases cl : lessAt h (2 * i + 1) i = true
  · have cl' := hl.mp cl
    by_cases cr : lessAt h (2 * i + 2) (2 * i + 1) = true
    · have cr' := hrl.mp cr
      simp only [cl, cr, if_true]
      refine .inr ⟨by omega, by omega, by omega, by omega, fun k hk hk0 hkp => ?_⟩
      rcases child k hk0 hkp with rfl | rfl <;> omega
    · simp only [cl, cr, if_true, Bool.false_eq_true, if_false]
      refine .inr ⟨by omega, by omega, by omega, by omega, fun k hk hk0 hkp => ?_⟩
      rcases child k hk0 hkp with rfl | rfl
      · exact Nat.le_refl _
      · by_contra hlt
        exact cr (hrl.mpr ⟨hk, cl'.1, by omega⟩)
  · have cl' : 2 * i + 1 < h.length → keyAt h i ≤ keyAt h (2 * i + 1) := by
      intro hk; by_contra hlt; exact cl (hl.mpr ⟨hk, hi, by omega⟩)
    simp only [cl, Bool.false_eq_true, if_false]
    by_cases cr : lessAt h (2 * i + 2) i = true
    · have cr' := hr.mp cr
      simp only [cr, if_true]
      refine .inr ⟨by omega, by omega, by omega, by omega, fun k hk hk0 hkp => ?_⟩
      rcases child k hk0 hkp with rfl | rfl
      · have := cl' hk; omega
      · exact Nat.le_refl _
    · simp only [cr, Bool.false_eq_true, if_false]
      refine .inl ⟨trivial, fun k hk hk0 hkp => ?_⟩
      rcases child k hk0 hkp with rfl | rfl
      · exact cl' hk
      · by_contra hlt
        exact cr (hr.mpr ⟨hk, hi, by omega⟩)

theorem siftDown_ordered (fuel : Nat) {h : List Node} {i : Nat} (hf : h.length ≤ i + fuel)
    (hd : downOrdered h i) : heapOrdered (siftDown fuel h i) := by
  induction fuel generalizing h i with
  | zero =>
    simp only [siftDown]
    exact fun k hk hk0 => hd.1 k hk hk0 (by omega)
  | succ fuel ih =>
    simp only [siftDown]
    by_cases hi : i < h.length
    · rcases downTo_cases hi with ⟨h1, h2⟩ | ⟨hs, hs0, hsp, hsi, hmin⟩
      · rw [if_pos h1]
        intro k hk hk0
        by_cases hkp : (k - 1) / 2 = i
        · rw [hkp]; exact h2 k hk hk0 hkp
        · exact hd.1 k hk hk0 hkp
      · generalize downTo h i = s at *
        rw [if_neg (by omega)]
        refine ih (by rw [swapAt_length]; omega) ⟨fun k hk hk0 hkp => ?_, fun k hk hk0 hkp _ => ?_⟩
        · rw [swapAt_length] at hk
          rw [keyAt_swapAt hi hs, keyAt_swapAt hi hs, if_neg hkp]
          by_cases hks : k = s
          · subst hks; rw [if_pos hsp, if_pos rfl]; omega
          · rw [if_neg hks]
            by_cases hki : (k - 1) / 2 = i
            · rw [if_pos hki, if_neg (by omega)]; exact hmin k hk hk0 hki
            · rw [if_neg hki]
              have := hd.1 k hk hk0 hki
              by_cases hk' : k = i
              · subst hk'; rw [if_pos rfl]
                exact hd.2 s hs hs0 hsp hk0
              · rw [if_neg hk']; exact this
        · rw [swapAt_length] at hk
          rw [keyAt_swapAt hi hs, keyAt_swapAt hi hs, hsp, if_neg (by omega), if_pos rfl, if_neg (by omega),
            if_neg (by omega)]
          have := hd.1 k hk hk0 (by omega)
          rw [hkp] at this; exact this
    · have hsame : downTo h i = i := by
        have h1 : ¬ lessAt h (2 * i + 1) i = true := fun hc => hi ((lessAt_iff ..).mp hc).2.1
        have h2 : ¬ lessAt h (2 * i + 2) i = true := fun hc => hi ((lessAt_iff ..).mp hc).2.1
        simp [downTo, h1, h2]
      rw [if_pos hsame]
      exact fun k hk hk0 => hd.1 k hk hk0 (by omega)

/-- In an ordered heap every key below a place is at least the key at that place; so the root's key is the least
(R26). -/
theorem keyAt_root_le {h : List Node} (ho : heapOrdered h) (i : Nat) (hi : i < h.length) :
    keyAt h 0 ≤ keyAt h i := by
  induction i using Nat.strong_induction_on with
  | _ i ih =>
    by_cases h0 : i = 0
    · rw [h0]
    · exact (ih ((i - 1) / 2) (by omega) (by omega)).trans (ho i hi (by omega))

/-- The root of an ordered heap is a Node of least frequency (R26, R92). -/
theorem pqExtract_least {h h' : List Node} {m : Node} (ho : heapOrdered h) (he : pqExtract h = some (m, h')) :
    ∀ n ∈ h, m.freq.toNat ≤ n.freq.toNat := by
  intro n hn
  obtain ⟨i, hi, rfl⟩ := List.mem_iff_getElem.mp hn
  have hm := pqExtract_head he
  rw [List.head?_eq_getElem?] at hm
  rw [← keyAt_of_getElem? hm, ← keyAt_of_getElem? (List.getElem?_eq_getElem hi)]
  exact keyAt_root_le ho i hi

/-- An extract keeps the heap order (R91). -/
theorem pqExtract_ordered {h h' : List Node} {m : Node} (ho : heapOrdered h) (he : pqExtract h = some (m, h')) :
    heapOrdered h' := by
  rcases pqExtract_cases h with ⟨-, h2⟩ | ⟨m', rest, h'', rfl, -, -⟩
  · rw [h2] at he; cases he
  rcases List.eq_nil_or_concat rest with rfl | ⟨l, d, rfl⟩
  · cases he; intro k hk; exact absurd hk (Nat.not_lt_zero _)
  · simp only [List.concat_eq_append] at he ho
    simp only [pqExtract, List.getLast?_concat, List.dropLast_concat, Option.some.injEq, Prod.mk.injEq] at he
    obtain ⟨-, rfl⟩ := he
    refine siftDown_ordered _ (by simp) ⟨fun k hk hk0 hkp => ?_, fun k _ _ _ h0 => absurd h0 (Nat.lt_irrefl _)⟩
    have key : ∀ j, 0 < j → j < (d :: l).length → keyAt (d :: l) j = keyAt (m' :: (l ++ [d])) j := by
      intro j hj hjl
      obtain ⟨j, rfl⟩ : ∃ q, j = q + 1 := ⟨j - 1, by omega⟩
      simp only [List.length_cons] at hjl
      simp [keyAt, List.getElem?_append_left (show j < l.length by omega)]
    rw [key k hk0 hk, key ((k - 1) / 2) (by omega) (by omega)]
    exact ho k (by simp at hk ⊢; omega) hk0

@[simp] theorem heapOrdered_nil : heapOrdered [] := fun _ hk => absurd hk (Nat.not_lt_zero _)

/-! ### Sifting, slot by slot -/

/-- What the slots hold after a swap. -/
theorem swapAt_getElem? {h : List Node} {i j : Nat} {a b : Node} (hi : h[i]? = some a) (hj : h[j]? = some b)
    (hne : i ≠ j) (k : Nat) :
    (swapAt h i j)[k]? = if k = j then some a else if k = i then some b else h[k]? := by
  obtain ⟨hil, -⟩ := List.getElem?_eq_some_iff.mp hi
  obtain ⟨hjl, -⟩ := List.getElem?_eq_some_iff.mp hj
  simp only [swapAt, hi, hj, List.getElem?_set, List.length_set]
  by_cases hkj : k = j
  · subst hkj; simp [hjl]
  · by_cases hki : k = i
    · subst hki; simp [Ne.symm hkj, hkj, hil]
    · simp [Ne.symm hkj, Ne.symm hki, hkj, hki]

theorem ancestor_le (k i : Nat) : ancestor k i ≤ i := by
  induction k generalizing i with
  | zero => exact Nat.le_refl _
  | succ k ih => exact (ih _).trans (by omega)

theorem ancestor_succ (k i : Nat) : ancestor (k + 1) i = (ancestor k i - 1) / 2 := by
  induction k generalizing i with
  | zero => rfl
  | succ k ih => exact ih _

/-- Above a place that is not the root the path is strictly lower. -/
theorem ancestor_succ_lt {k i : Nat} (h : 0 < ancestor k i) : ancestor (k + 1) i < i := by
  have := ancestor_le k i
  rw [ancestor_succ]
  omega

/-- What `SiftUp` does slot by slot (R82): the Node rises `d` levels, each strictly heavier ancestor it passes moves one
level down the path, the parent where it stops is not heavier, and every slot off the path stays. -/
theorem siftUp_path (fuel : Nat) {h : List Node} {i : Nat} {n : Node} (hf : i ≤ fuel) (hi : h[i]? = some n) :
    ∃ d, (∀ k < d, 0 < ancestor k i ∧ ∃ m, h[ancestor (k + 1) i]? = some m ∧ n.freq.toNat < m.freq.toNat ∧
        (siftUp fuel h i)[ancestor k i]? = some m) ∧
      (siftUp fuel h i)[ancestor d i]? = some n ∧
      (0 < ancestor d i → ∃ m, h[ancestor (d + 1) i]? = some m ∧ m.freq.toNat ≤ n.freq.toNat) ∧
      ∀ j, (∀ k ≤ d, j ≠ ancestor k i) → (siftUp fuel h i)[j]? = h[j]? := by
  have hil := (List.getElem?_eq_some_iff.mp hi).1
  induction fuel generalizing h i with
  | zero =>
    obtain rfl : i = 0 := by omega
    exact ⟨0, by simp, hi, fun h0 => absurd h0 (Nat.lt_irrefl _), fun _ _ => rfl⟩
  | succ fuel ih =>
    obtain ⟨m, hm⟩ : ∃ m, h[(i - 1) / 2]? = some m := ⟨_, List.getElem?_eq_getElem (by omega)⟩
    have hless : lessAt h i ((i - 1) / 2) = true ↔ n.freq.toNat < m.freq.toNat := by simp [lessAt, hi, hm]
    simp only [siftUp]
    split
    · next hc =>
      simp only [Bool.and_eq_true, decide_eq_true_eq, hless] at hc
      obtain ⟨p, hp⟩ : ∃ p, p = (i - 1) / 2 := ⟨_, rfl⟩
      have hpi : p < i := by omega
      rw [← hp] at hm ⊢
      have hs := swapAt_getElem? hi hm (by omega)
      obtain ⟨d, h1, h2, h3, h4⟩ := ih (h := swapAt h i p) (i := p) (by omega) (by rw [hs, if_pos rfl])
        (by rw [swapAt_length]; omega)
      have hlow : ∀ j, j < p → (swapAt h i p)[j]? = h[j]? := fun j hj => by
        rw [hs, if_neg (by omega), if_neg (by omega)]
      have hstep : ∀ k, ancestor (k + 1) i = ancestor k p := fun k => by rw [hp]; rfl
      refine ⟨d + 1, fun k hk => ?_, ?_, fun h0 => ?_, fun j hj => ?_⟩
      · match k with
        | 0 =>
          refine ⟨hc.1, m, by rw [hstep]; exact hm, hc.2, ?_⟩
          show (siftUp fuel (swapAt h i p) p)[i]? = some m
          rw [h4 i fun k _ => by have := ancestor_le k p; omega, hs, if_neg (by omega), if_pos rfl]
        | k + 1 =>
          obtain ⟨g0, m', g1, g2, g3⟩ := h1 k (by omega)
          rw [hstep, hstep]
          exact ⟨g0, m', by rw [← hlow _ (ancestor_succ_lt g0)]; exact g1, g2, g3⟩
      · rw [hstep]; exact h2
      · rw [hstep] at h0 ⊢
        obtain ⟨m', g1, g2⟩ := h3 h0
        exact ⟨m', by rw [← hlow _ (ancestor_succ_lt h0)]; exact g1, g2⟩
      · rw [h4 j fun k hk => by rw [← hstep]; exact hj (k + 1) (by omega), hs,
          if_neg (by rw [hp]; exact hj 1 (by omega)), if_neg (show ¬ j = i from hj 0 (by omega))]
    · next hc =>
      refine ⟨0, by simp, hi, fun h0 => ⟨m, hm, ?_⟩, fun _ _ => rfl⟩
      simp only [Bool.and_eq_true, decide_eq_true_eq, hless, not_and] at hc
      exact Nat.le_of_not_lt (hc h0)

theorem stepsDown_lt {h : List Node} {i j : Nat} (hs : stepsDown h i j) : i < j := by
  rcases hs with ⟨h, -⟩ | ⟨h, -⟩ <;> omega

/-- A way down does not rise. -/
theorem path_le {h : List Node} {b : Nat → Nat} {e : Nat} (hb : ∀ k < e, stepsDown h (b k) (b (k + 1))) :
    ∀ k ≤ e, b 0 ≤ b k := by
  intro k
  induction k with
  | zero => intro; exact Nat.le_refl _
  | succ k ih => intro hk; have := stepsDown_lt (hb k hk); have := ih (by omega); omega

/-- Where `SiftDown` goes next (R82). -/
theorem downTo_steps {h : List Node} {i : Nat} (hi : i < h.length) :
    (downTo h i = i ∧ ∀ j, j = 2 * i + 1 ∨ j = 2 * i + 2 → j < h.length → keyAt h i ≤ keyAt h j) ∨
    (downTo h i < h.length ∧ stepsDown h i (downTo h i) ∧ keyAt h (downTo h i) < keyAt h i) := by
  have hl := lessAt_iff h (2 * i + 1) i
  have hr := lessAt_iff h (2 * i + 2) i
  have hrl := lessAt_iff h (2 * i + 2) (2 * i + 1)
  unfold downTo stepsDown
  by_cases cl : lessAt h (2 * i + 1) i = true
  · have cl' := hl.mp cl
    by_cases cr : lessAt h (2 * i + 2) (2 * i + 1) = true
    · have cr' := hrl.mp cr
      simp only [cl, cr, if_true]
      exact .inr ⟨cr'.1, .inr ⟨by trivial, cr'.2.2⟩, by omega⟩
    · simp only [cl, cr, if_true, Bool.false_eq_true, if_false]
      exact .inr ⟨cl'.1, .inl ⟨by trivial, fun hk => Nat.le_of_not_lt fun hlt => cr (hrl.mpr ⟨hk, cl'.1, hlt⟩)⟩, cl'.2.2⟩
  · have cl' : 2 * i + 1 < h.length → keyAt h i ≤ keyAt h (2 * i + 1) :=
      fun hk => Nat.le_of_not_lt fun hlt => cl (hl.mpr ⟨hk, hi, hlt⟩)
    simp only [cl, Bool.false_eq_true, if_false]
    by_cases cr : lessAt h (2 * i + 2) i = true
    · have cr' := hr.mp cr
      simp only [cr, if_true]
      have := cl' (by omega)
      exact .inr ⟨cr'.1, .inr ⟨by trivial, by omega⟩, cr'.2.2⟩
    · simp only [cr, Bool.false_eq_true, if_false]
      refine .inl ⟨trivial, fun j hj hk => ?_⟩
      rcases hj with rfl | rfl
      · exact cl' hk
      · exact Nat.le_of_not_lt fun hlt => cr (hr.mpr ⟨hk, hi, hlt⟩)

/-- What `SiftDown` does slot by slot (R82): the Node sinks `e` levels, each lighter Node it passes moves one level up, no
child where it stops is lighter, and every slot off the path stays. -/
theorem siftDown_path (fuel : Nat) {h : List Node} {i : Nat} {n : Node} (hf : h.length ≤ i + fuel)
    (hi : h[i]? = some n) :
    ∃ (b : Nat → Nat) (e : Nat), b 0 = i ∧
      (∀ k < e, stepsDown h (b k) (b (k + 1)) ∧ ∃ m, h[b (k + 1)]? = some m ∧ m.freq.toNat < n.freq.toNat ∧
        (siftDown fuel h i)[b k]? = some m) ∧
      (siftDown fuel h i)[b e]? = some n ∧
      (∀ j, j = 2 * b e + 1 ∨ j = 2 * b e + 2 → ∀ m, h[j]? = some m → n.freq.toNat ≤ m.freq.toNat) ∧
      ∀ j, (∀ k ≤ e, j ≠ b k) → (siftDown fuel h i)[j]? = h[j]? := by
  have hil := (List.getElem?_eq_some_iff.mp hi).1
  induction fuel generalizing h i with
  | zero => omega
  | succ fuel ih =>
    simp only [siftDown]
    rcases downTo_steps hil with ⟨h1, h2⟩ | ⟨hsl, hst, hkey⟩
    · rw [if_pos h1]
      refine ⟨fun _ => i, 0, rfl, by simp, hi, fun j hj m hm => ?_, fun _ _ => rfl⟩
      have := h2 j hj (List.getElem?_eq_some_iff.mp hm).1
      rwa [keyAt_of_getElem? hi, keyAt_of_getElem? hm] at this
    · generalize downTo h i = s at *
      have his := stepsDown_lt hst
      rw [if_neg (by omega)]
      obtain ⟨m, hm⟩ : ∃ m, h[s]? = some m := ⟨_, List.getElem?_eq_getElem hsl⟩
      rw [keyAt_of_getElem? hi, keyAt_of_getElem? hm] at hkey
      have hs := swapAt_getElem? hi hm (by omega)
      obtain ⟨b, e, g0, g1, g2, g3, g4⟩ := ih (h := swapAt h i s) (i := s) (by rw [swapAt_length]; omega)
        (by rw [hs, if_pos rfl]) (by rw [swapAt_length]; exact hsl)
      have hle := path_le fun k hk => (g1 k hk).1
      rw [g0] at hle
      have hhigh : ∀ j, s < j → (swapAt h i s)[j]? = h[j]? := fun j hj => by
        rw [hs, if_neg (by omega), if_neg (by omega)]
      have hkeys : ∀ j, s < j → keyAt (swapAt h i s) j = keyAt h j := fun j hj => by simp only [keyAt, hhigh j hj]
      refine ⟨fun k => if k = 0 then i else b (k - 1), e + 1, rfl, fun k hk => ?_, g2, fun j hj m' hm' => ?_, fun j hj => ?_⟩
      · match k with
        | 0 =>
          refine ⟨by simpa [g0] using hst, m, by simpa [g0] using hm, hkey, ?_⟩
          show (siftDown fuel (swapAt h i s) s)[i]? = some m
          rw [g4 i fun k hk => by have := hle k hk; omega, hs, if_neg (by omega), if_pos rfl]
        | k + 1 =>
          obtain ⟨c1, m', c2, c3, c4⟩ := g1 k (by omega)
          have hb := hle k (by omega)
          have hlt := stepsDown_lt c1
          refine ⟨?_, m', ?_, c3, c4⟩
          · show stepsDown h (b k) (b (k + 1))
            simpa only [stepsDown, swapAt_length, hkeys _ (show s < 2 * b k + 1 by omega),
              hkeys _ (show s < 2 * b k + 2 by omega)] using c1
          · show h[b (k + 1)]? = some m'
            rw [← hhigh _ (by omega)]; exact c2
      · have hb := hle e (Nat.le_refl _)
        have hj : j = 2 * b e + 1 ∨ j = 2 * b e + 2 := hj
        exact g3 j hj m' (by rw [hhigh j (by omega)]; exact hm')
      · rw [g4 j fun k hk => hj (k + 1) (by omega), hs, if_neg (by have := hj 1 (by omega); simpa [g0] using this),
          if_neg (show ¬ j = i from hj 0 (by omega))]

/-! ### Measures over the queue -/

theorem heapLive_perm {h h' : List Node} (hp : h.Perm h') : heapLive h = heapLive h' := (hp.map _).sum_eq

theorem heapLive_pqInsert (h : List Node) (n : Node) : heapLive (pqInsert h n) = n.size + heapLive h :=
  heapLive_perm (pqInsert_perm h n)

theorem heapLive_pqExtract {h h' : List Node} {m : Node} (he : pqExtract h = some (m, h')) :
    heapLive h = m.size + heapLive h' := heapLive_perm (pqExtract_perm he)

end Sys2Proof.Machine
end

