-- ==== Sys2Proof/Laws/Tree.lean ====
section
/-! SUPPORT. The tree builder (spec/41_node_and_tree_builder.md R105, R106): one induction over the merge loop, from
which every property of a built tree that does not depend on the tie-break (R109) is read off; and the node counts of
a tree. -/

namespace Sys2Proof.Machine

/-! ### Counts over a tree -/

mutual

theorem Node.size_eq (n : Node) : n.size = n.leaves.length + n.branches := by
  match n with
  | .leaf _ _ => simp [Node.size, Node.leaves, Node.branches]
  | .branch _ l r =>
    have hl := Slot.size_eq l
    have hr := Slot.size_eq r
    simp [Node.size, Node.leaves, Node.branches]
    omega

/-- Every Node is a Leaf or a Branch. -/
theorem Slot.size_eq (v : Slot) : v.size = v.leaves.length + v.branches := by
  match v with
  | .absent => simp [Slot.size, Slot.leaves, Slot.branches]
  | .node n => simpa [Slot.size, Slot.leaves, Slot.branches] using Node.size_eq n

end

mutual

/-- No Leaf lies deeper than there are Branches. -/
theorem Node.depth_le_branches (n : Node) : ∀ p ∈ n.leaves, p.1.length ≤ n.branches := by
  match n with
  | .leaf _ _ => simp [Node.leaves]
  | .branch _ l r =>
    have hl := Slot.depth_le_branches l
    have hr := Slot.depth_le_branches r
    intro p hp
    simp only [Node.leaves, List.mem_append, List.mem_map] at hp
    rcases hp with ⟨q, hq, rfl⟩ | ⟨q, hq, rfl⟩
    · have := hl q hq; simp [Node.branches]; omega
    · have := hr q hq; simp [Node.branches]; omega

theorem Slot.depth_le_branches (v : Slot) : ∀ p ∈ v.leaves, p.1.length ≤ v.branches := by
  match v with
  | .absent => simp [Slot.leaves]
  | .node n => simpa [Slot.leaves, Slot.branches] using Node.depth_le_branches n

end

/-! ### The merge loop -/

/-- The sum of the frequencies in a queue. -/
def freqSum (h : List Node) : Nat := (h.map fun n => n.freq.toNat).sum

theorem freqSum_perm {h h' : List Node} (hp : h.Perm h') : freqSum h = freqSum h' := (hp.map _).sum_eq

@[simp] theorem freqSum_nil : freqSum [] = 0 := rfl
@[simp] theorem freqSum_cons (n : Node) (h : List Node) : freqSum (n :: h) = n.freq.toNat + freqSum h := rfl

/-- What one merge step does (R106): as a multiset, two Nodes leave the queue and their Branch enters it, or their
frequencies' sum does not fit and it raises. -/
theorem mergeStep_cases {h : List Node} (h2 : 1 < h.length) :
    ∃ a b rest, h.Perm (a :: b :: rest) ∧
      ((2 ^ 32 ≤ a.freq.toNat + b.freq.toNat ∧ mergeStep h = .error .capacityExceeded) ∨
       ∃ f : Freq, f.toNat = a.freq.toNat + b.freq.toNat ∧
        ∃ h', mergeStep h = .ok h' ∧ h'.Perm (.branch f (.node a) (.node b) :: rest)) := by
  obtain ⟨a, h1, he⟩ := pqExtract_of_ne_nil (h := h) (by rintro rfl; simp at h2)
  have hl1 := pqExtract_length he
  obtain ⟨b, rest, he'⟩ := pqExtract_of_ne_nil (h := h1) (by rintro rfl; simp at hl1; omega)
  refine ⟨a, b, rest, (pqExtract_perm he).trans ((pqExtract_perm he').cons a), ?_⟩
  rcases mkBranch_cases a b with ⟨ho, hm⟩ | ⟨-, hf, hm⟩
  · exact .inl ⟨ho, by simp [mergeStep, he, he', hm]⟩
  · exact .inr ⟨_, hf, _, by simp [mergeStep, he, he', hm], pqInsert_perm _ _⟩

/-- The one induction over the merge loop: a property of the queue as a multiset that merging two Nodes keeps holds of
the single tree the loop ends with, as long as the frequencies' sum fits. -/
theorem mergeLoop_induct (P : List Node → Prop) (hperm : ∀ h h' : List Node, h.Perm h' → P h → P h')
    (hmerge : ∀ (a b : Node) (rest : List Node) (f : Freq), f.toNat = a.freq.toNat + b.freq.toNat →
      P (a :: b :: rest) → P (.branch f (.node a) (.node b) :: rest))
    (fuel : Nat) (h : List Node) (hne : h ≠ []) (hfuel : h.length ≤ fuel) (hsum : freqSum h < 2 ^ 32) (hP : P h) :
    ∃ n, mergeLoop fuel h = .ok [n] ∧ P [n] := by
  induction fuel generalizing h with
  | zero => exact absurd (List.eq_nil_of_length_eq_zero (Nat.le_zero.mp hfuel)) hne
  | succ fuel ih =>
    simp only [mergeLoop]
    split
    · next h2 =>
      obtain ⟨a, b, rest, hp, ⟨ho, -⟩ | ⟨f, hf, h', hm, hp'⟩⟩ := mergeStep_cases h2
      · have := freqSum_perm hp
        simp only [freqSum_cons] at this
        omega
      · have hs := freqSum_perm hp
        have hs' := freqSum_perm hp'
        have hl := hp.length_eq
        have hl' := hp'.length_eq
        simp only [freqSum_cons, Node.freq_branch, List.length_cons] at hs hs' hl hl'
        rw [hm]
        refine ih h' (by rintro rfl; simp at hl') (by omega) (by omega) ?_
        exact hperm _ _ hp'.symm (hmerge a b rest f hf (hperm _ _ hp hP))
    · next h2 =>
      match h, hne with
      | [n], _ => exact ⟨n, rfl, hP⟩
      | _ :: _ :: _, _ => simp at h2

/-- Where the sum of the frequencies does not fit, some merge raises. -/
theorem mergeLoop_overflow (fuel : Nat) (h : List Node) (hfuel : h.length ≤ fuel) (hsum : 2 ^ 32 ≤ freqSum h) :
    mergeLoop fuel h = .error .capacityExceeded := by
  induction fuel generalizing h with
  | zero =>
    rw [List.eq_nil_of_length_eq_zero (Nat.le_zero.mp hfuel)] at hsum
    simp at hsum
  | succ fuel ih =>
    simp only [mergeLoop]
    split
    · next h2 =>
      obtain ⟨a, b, rest, hp, ⟨-, hm⟩ | ⟨f, hf, h', hm, hp'⟩⟩ := mergeStep_cases h2
      · rw [hm]
      · have hs := freqSum_perm hp
        have hs' := freqSum_perm hp'
        have hl := hp.length_eq
        have hl' := hp'.length_eq
        simp only [freqSum_cons, Node.freq_branch, List.length_cons] at hs hs' hl hl'
        rw [hm]
        exact ih h' (by omega) (by omega)
    · next h2 =>
      match h with
      | [] => simp at hsum
      | [n] => have := n.freq.isLt; simp at hsum; omega
      | _ :: _ :: _ => simp at h2

/-! ### The tree builder -/

theorem foldl_pqInsert_perm (l h : List Node) : (l.foldl pqInsert h).Perm (l ++ h) := by
  induction l generalizing h with
  | nil => exact List.Perm.refl _
  | cons n l ih =>
    refine (ih (pqInsert h n)).trans (((pqInsert_perm h n).append_left l).trans ?_)
    exact List.perm_middle

theorem freqSum_leavesOf (t : Cells Freq) : freqSum (leavesOf t) = (allSyms.map fun y => (countAt t y).toNat).sum := by
  simp only [freqSum, leavesOf, keysOf, List.map_map]
  induction allSyms with
  | nil => rfl
  | cons y l ih =>
    by_cases h : countAt t y = 0
    · rw [List.filter_cons_of_neg (by simp [h]), ih]
      simp [h]
    · rw [List.filter_cons_of_pos (by simpa using h), List.map_cons, List.sum_cons, ih]
      simp

/-- The tree builder's induction: a property of a queue as a multiset that holds of the Leaves of the table and that
merging two Nodes keeps holds of the built tree (R105, R109). -/
theorem buildTree_induct (P : List Node → Prop) (hperm : ∀ h h' : List Node, h.Perm h' → P h → P h')
    (hmerge : ∀ (a b : Node) (rest : List Node) (f : Freq), f.toNat = a.freq.toNat + b.freq.toNat →
      P (a :: b :: rest) → P (.branch f (.node a) (.node b) :: rest))
    (t : Cells Freq) (hne : keysOf t ≠ []) (hsum : (allSyms.map fun y => (countAt t y).toNat).sum < 2 ^ 32)
    (hP : P (leavesOf t)) : ∃ n, buildTree t = .ok n ∧ P [n] := by
  have hp : ((leavesOf t).foldl pqInsert []).Perm (leavesOf t) := by
    simpa using foldl_pqInsert_perm (leavesOf t) []
  obtain ⟨n, hm, hn⟩ := mergeLoop_induct P hperm hmerge _ ((leavesOf t).foldl pqInsert [])
    (by
      intro h
      rw [h] at hp
      exact hne (List.map_eq_nil_iff.mp (List.nil_perm.mp hp)))
    (Nat.le_refl _) (by rw [freqSum_perm hp, freqSum_leavesOf]; exact hsum) (hperm _ _ hp.symm hP)
  exact ⟨n, by simp [buildTree, hm, pqExtract], hn⟩

/-- Where the counts' sum does not fit, the tree builder raises. -/
theorem buildTree_overflow (t : Cells Freq) (hsum : 2 ^ 32 ≤ (allSyms.map fun y => (countAt t y).toNat).sum) :
    buildTree t = .error .capacityExceeded := by
  have hp : ((leavesOf t).foldl pqInsert []).Perm (leavesOf t) := by
    simpa using foldl_pqInsert_perm (leavesOf t) []
  have := mergeLoop_overflow _ ((leavesOf t).foldl pqInsert []) (Nat.le_refl _)
    (by rw [freqSum_perm hp, freqSum_leavesOf]; exact hsum)
  simp [buildTree, this]

theorem keysOf_length_eq_leavesOf (t : Cells Freq) : (leavesOf t).length = (keysOf t).length := by simp [leavesOf]

/-! ### The order of a merge -/

/-- What one merge step does, the Nodes named (R106): the Branch of the two roots, the first on the left, enters what is
left of the queue, or their frequencies' sum does not fit and it raises. -/
theorem mergeStep_of_extract {h h1 h2 : List Node} {a b : Node} (ha : pqExtract h = some (a, h1))
    (hb : pqExtract h1 = some (b, h2)) :
    (2 ^ 32 ≤ a.freq.toNat + b.freq.toNat ∧ mergeStep h = .error .capacityExceeded) ∨
    (a.freq.toNat + b.freq.toNat < 2 ^ 32 ∧ ∃ f : Freq, f.toNat = a.freq.toNat + b.freq.toNat ∧
      mergeStep h = .ok (pqInsert h2 (.branch f (.node a) (.node b)))) := by
  rcases mkBranch_cases a b with ⟨ho, hm⟩ | ⟨ho, hf, hm⟩
  · exact .inl ⟨ho, by simp only [mergeStep, ha, hb, hm]⟩
  · exact .inr ⟨ho, _, hf, by simp only [mergeStep, ha, hb, hm]⟩

/-- On a queue in order the two Nodes merged are the lightest, the first no heavier than the second (R106). -/
theorem merged_order {h h1 h2 : List Node} {a b : Node} (ho : heapOrdered h) (ha : pqExtract h = some (a, h1))
    (hb : pqExtract h1 = some (b, h2)) :
    a.freq.toNat ≤ b.freq.toNat ∧ ∀ n ∈ h2, b.freq.toNat ≤ n.freq.toNat :=
  ⟨pqExtract_least ho ha b ((pqExtract_perm ha).symm.subset
      (List.mem_cons_of_mem _ ((pqExtract_perm hb).symm.subset (List.mem_cons_self ..)))),
    fun n hn => pqExtract_least (pqExtract_ordered ho ha) hb n
      ((pqExtract_perm hb).symm.subset (List.mem_cons_of_mem _ hn))⟩

/-- The merge loop ends with at most one Node (R105). -/
theorem mergeLoop_length (fuel : Nat) {h h' : List Node} (hf : h.length ≤ fuel) (hm : mergeLoop fuel h = .ok h') :
    h'.length ≤ 1 := by
  induction fuel generalizing h with
  | zero => cases hm; omega
  | succ fuel ih =>
    simp only [mergeLoop] at hm
    split at hm
    · next h2 =>
      obtain ⟨a, b, rest, hp, ⟨-, he⟩ | ⟨f, -, h'', he, hp'⟩⟩ := mergeStep_cases h2
      · rw [he] at hm; cases hm
      · rw [he] at hm
        have hl := hp.length_eq
        have hl' := hp'.length_eq
        simp only [List.length_cons] at hl hl'
        exact ih (by omega) hm
    · cases hm; omega

/-- The merge loop that ends with one Node is a chain of merge steps, one fewer than there were Nodes (R105). -/
theorem mergeLoop_chain (fuel : Nat) {h : List Node} {n : Node} (hf : h.length ≤ fuel) (hm : mergeLoop fuel h = .ok [n]) :
    ∃ q : Nat → List Node, q 0 = h ∧ (∀ i, i + 1 < h.length → mergeStep (q i) = .ok (q (i + 1))) ∧
      q (h.length - 1) = [n] := by
  induction fuel generalizing h with
  | zero =>
    cases hm
    simp at hf
  | succ fuel ih =>
    simp only [mergeLoop] at hm
    split at hm
    · next h2 =>
      obtain ⟨a, b, rest, hp, ⟨-, he⟩ | ⟨f, -, h', he, hp'⟩⟩ := mergeStep_cases h2
      · rw [he] at hm; cases hm
      · rw [he] at hm
        have hl := hp.length_eq
        have hl' := hp'.length_eq
        simp only [List.length_cons] at hl hl'
        obtain ⟨q, h0, hs, hn⟩ := ih (by omega) hm
        refine ⟨fun i => if i = 0 then h else q (i - 1), rfl, fun i hi => ?_, ?_⟩
        · by_cases hi0 : i = 0
          · subst hi0; simp [he, h0]
          · have := hs (i - 1) (by omega)
            rw [show i - 1 + 1 = i by omega] at this
            simpa [hi0] using this
        · show (if h.length - 1 = 0 then h else q (h.length - 1 - 1)) = [n]
          rw [if_neg (by omega), ← hn, show h.length - 1 - 1 = h'.length - 1 by omega]
    · next h2 =>
      cases hm
      exact ⟨fun _ => [n], rfl, fun i hi => by simp at hi, rfl⟩

/-- The merge loop keeps the queue in order and every left child no heavier than the right (R106). -/
theorem mergeLoop_lighterLeft (fuel : Nat) {h h' : List Node} (ho : heapOrdered h)
    (hl : ∀ n ∈ h, n.lighterLeft = true) (hm : mergeLoop fuel h = .ok h') :
    heapOrdered h' ∧ ∀ n ∈ h', n.lighterLeft = true := by
  induction fuel generalizing h with
  | zero => cases hm; exact ⟨ho, hl⟩
  | succ fuel ih =>
    simp only [mergeLoop] at hm
    split at hm
    · next h2 =>
      obtain ⟨a, h1, ha⟩ := pqExtract_of_ne_nil (h := h) (by rintro rfl; simp at h2)
      have hlen := pqExtract_length ha
      obtain ⟨b, rest, hb⟩ := pqExtract_of_ne_nil (h := h1) (by rintro rfl; simp at hlen; omega)
      have hp : h.Perm (a :: b :: rest) := (pqExtract_perm ha).trans ((pqExtract_perm hb).cons a)
      rcases mergeStep_of_extract ha hb with ⟨-, he⟩ | ⟨-, f, -, he⟩
      · rw [he] at hm; cases hm
      · rw [he] at hm
        refine ih (pqInsert_ordered (pqExtract_ordered (pqExtract_ordered ho ha) hb) _) (fun n hn => ?_) hm
        rcases List.mem_cons.mp ((pqInsert_perm _ _).subset hn) with rfl | hn
        · have := (merged_order ho ha hb).1
          simp [Node.lighterLeft, Slot.lighterLeft, Slot.freq, this, hl a (hp.symm.subset (by simp)),
            hl b (hp.symm.subset (by simp))]
        · exact hl n (hp.symm.subset (by simp [hn]))
    · cases hm; exact ⟨ho, hl⟩

theorem foldl_pqInsert_ordered (l : List Node) {h : List Node} (ho : heapOrdered h) :
    heapOrdered (l.foldl pqInsert h) := by
  induction l generalizing h with
  | nil => exact ho
  | cons n l ih => exact ih (pqInsert_ordered ho n)

/-- In a built tree the left child is no heavier than the right in every Branch (R106). -/
theorem buildTree_lighterLeft {t : Cells Freq} {n : Node} (h : buildTree t = .ok n) : n.lighterLeft = true := by
  simp only [buildTree] at h
  split at h
  · cases h
  · next h' hm =>
    have hl : ∀ m ∈ (leavesOf t).foldl pqInsert [], m.lighterLeft = true := by
      intro m hm
      have := (foldl_pqInsert_perm (leavesOf t) []).subset hm
      simp only [List.append_nil, leavesOf, List.mem_map] at this
      obtain ⟨y, -, rfl⟩ := this
      rfl
    have := mergeLoop_lighterLeft _ (foldl_pqInsert_ordered _ heapOrdered_nil) hl hm
    split at h
    · cases h
    · next he => cases h; exact this.2 _ ((pqExtract_perm he).symm.subset (List.mem_cons_self ..))

end Sys2Proof.Machine
end

