-- ==== Sys2Proof/Laws/Codes.lean ====
section
/-! SUPPORT. Codes and trees: what the extractor records, why its codes are prefix-free, what the reconstructor builds
and when it raises, and how the walk goes through one code (spec/42_code_extractor.md to spec/45_decoder.md). -/

namespace Sys2Proof.Machine

/-! ### Paths -/

/-- One of two codes is a prefix of the other, equal codes counting as prefixes (spec/44_tree_reconstructor.md
R125). -/
def Clash (b d : Code) : Prop := b <+: d ∨ d <+: b

theorem Clash.symm {b d : Code} (h : Clash b d) : Clash d b := h.elim .inr .inl

@[simp] theorem clash_nil_left (d : Code) : Clash [] d := .inl (List.nil_prefix)
@[simp] theorem clash_nil_right (b : Code) : Clash b [] := .inr (List.nil_prefix)

@[simp] theorem clash_cons (x y : Bool) (b d : Code) : Clash (x :: b) (y :: d) ↔ x = y ∧ Clash b d := by
  simp only [Clash, List.cons_prefix_cons]
  constructor
  · rintro (⟨rfl, h⟩ | ⟨rfl, h⟩)
    · exact ⟨rfl, .inl h⟩
    · exact ⟨rfl, .inr h⟩
  · rintro ⟨rfl, h | h⟩
    · exact .inl ⟨rfl, h⟩
    · exact .inr ⟨rfl, h⟩

theorem mem_leaves_branch {f : Freq} {l r : Slot} {p : Code × Sym × Freq} :
    p ∈ (Node.branch f l r).leaves ↔
      (∃ q ∈ l.leaves, p = (false :: q.1, q.2)) ∨ ∃ q ∈ r.leaves, p = (true :: q.1, q.2) := by
  simp only [Node.leaves, List.mem_append, List.mem_map, eq_comm]

mutual

/-- Two Leaves lie on paths that part at some Branch (spec/42_code_extractor.md R114 (b)). -/
theorem Node.leaves_pairwise (n : Node) : n.leaves.Pairwise fun p q => ¬ Clash p.1 q.1 := by
  match n with
  | .leaf _ _ => simp [Node.leaves]
  | .branch _ l r =>
    rw [Node.leaves, List.pairwise_append, List.pairwise_map, List.pairwise_map]
    refine ⟨(Slot.leaves_pairwise l).imp (by simp), (Slot.leaves_pairwise r).imp (by simp), ?_⟩
    intro p hp q hq
    obtain ⟨p, -, rfl⟩ := List.mem_map.mp hp
    obtain ⟨q, -, rfl⟩ := List.mem_map.mp hq
    simp

theorem Slot.leaves_pairwise (v : Slot) : v.leaves.Pairwise fun p q => ¬ Clash p.1 q.1 := by
  match v with
  | .absent => simp [Slot.leaves]
  | .node n => exact Node.leaves_pairwise n

end

/-! ### The extractor -/

/-- What the walk makes of a tree's Leaves (R111): on success the symbols are new and distinct, the paths fit, and the
table gains exactly the paths; else it raises for one of the two reasons. -/
def WalkResult (leaves : List (Code × Sym × Freq)) (path : Code) (c : CodeTable) :
    Except Completion CodeTable → Prop
  | .ok d =>
    (leaves.map (·.2.1)).Nodup ∧ (∀ p ∈ leaves, codeAt c p.2.1 = none ∧ (path ++ p.1).length ≤ Config.maxCodeLen) ∧
      ∀ y b, codeAt d y = some b ↔ codeAt c y = some b ∨ ∃ p f, (p, y, f) ∈ leaves ∧ b = path ++ p
  | .error x =>
    (x = .illegalOperation ∧ ¬ ((leaves.map (·.2.1)).Nodup ∧ ∀ p ∈ leaves, codeAt c p.2.1 = none)) ∨
      (x = .capacityExceeded ∧ ∃ p ∈ leaves, Config.maxCodeLen < (path ++ p.1).length)

/-- Walking the left child and then the right one (R111): the results join. -/
theorem walkResult_branch {ll lr : List (Code × Sym × Freq)} {path : Code} {c : CodeTable}
    {wl : Except Completion CodeTable} {wr : CodeTable → Except Completion CodeTable}
    {w : Except Completion CodeTable} (hl : WalkResult ll (path ++ [false]) c wl)
    (hr : ∀ d, WalkResult lr (path ++ [true]) d (wr d))
    (hw : (∃ x, wl = .error x ∧ w = .error x) ∨ ∃ d, wl = .ok d ∧ w = wr d) :
    WalkResult (ll.map (fun p => (false :: p.1, p.2)) ++ lr.map (fun p => (true :: p.1, p.2))) path c w := by
  have memL : ∀ p ∈ ll, ((false :: p.1, p.2) : Code × Sym × Freq) ∈
      ll.map (fun p => (false :: p.1, p.2)) ++ lr.map (fun p => (true :: p.1, p.2)) :=
    fun p hp => List.mem_append_left _ (List.mem_map.mpr ⟨p, hp, rfl⟩)
  have memR : ∀ p ∈ lr, ((true :: p.1, p.2) : Code × Sym × Freq) ∈
      ll.map (fun p => (false :: p.1, p.2)) ++ lr.map (fun p => (true :: p.1, p.2)) :=
    fun p hp => List.mem_append_right _ (List.mem_map.mpr ⟨p, hp, rfl⟩)
  have hsyms : ((ll.map (fun p => ((false :: p.1, p.2) : Code × Sym × Freq)) ++
      lr.map (fun p => (true :: p.1, p.2))).map (·.2.1)) = ll.map (·.2.1) ++ lr.map (·.2.1) := by
    simp [Function.comp_def]
  rcases hw with ⟨x, rfl, rfl⟩ | ⟨d, rfl, rfl⟩
  · simp only [WalkResult, hsyms, List.nodup_append] at hl ⊢
    rcases hl with ⟨rfl, hn⟩ | ⟨rfl, p, hp, hlen⟩
    · refine .inl ⟨rfl, fun ⟨⟨h1, _⟩, h2⟩ => hn ⟨h1, fun p hp => ?_⟩⟩
      exact h2 (false :: p.1, p.2) (memL p hp)
    · exact .inr ⟨rfl, _, memL p hp, by simpa using hlen⟩
  · have hr := hr d
    obtain ⟨h1, h2, h3⟩ := hl
    have hnew : ∀ q : Code × Sym × Freq, codeAt d q.2.1 = none ↔
        codeAt c q.2.1 = none ∧ ∀ p ∈ ll, p.2.1 ≠ q.2.1 := by
      intro q
      simp only [Option.eq_none_iff_forall_ne_some, ne_eq, h3]
      constructor
      · intro h
        refine ⟨fun b hb => h b (.inl hb), fun p hp he => ?_⟩
        exact h _ (.inr ⟨p.1, p.2.2, by rw [← he]; exact hp, rfl⟩)
      · rintro ⟨ha, hb⟩ b (h | ⟨p, f, hp, -⟩)
        · exact ha b h
        · exact hb _ hp rfl
    match wr d, hr with
    | .error x, hr =>
      simp only [WalkResult, hsyms, List.nodup_append] at hr ⊢
      rcases hr with ⟨rfl, hn⟩ | ⟨rfl, p, hp, hlen⟩
      · refine .inl ⟨rfl, fun ⟨⟨h4, h5, h6⟩, h7⟩ => hn ⟨h5, fun q hq => (hnew q).mpr ⟨?_, fun p hp he => ?_⟩⟩⟩
        · exact h7 (true :: q.1, q.2) (memR q hq)
        · exact h6 _ (List.mem_map_of_mem hp) _ (List.mem_map_of_mem hq) he
      · exact .inr ⟨rfl, _, memR p hp, by simpa using hlen⟩
    | .ok e, hr =>
      obtain ⟨h4, h5, h6⟩ := hr
      simp only [WalkResult, hsyms, List.nodup_append]
      refine ⟨⟨h1, h4, ?_⟩, ?_, ?_⟩
      · intro y hy z hz he
        obtain ⟨p, hp, rfl⟩ := List.mem_map.mp hy
        obtain ⟨q, hq, rfl⟩ := List.mem_map.mp hz
        exact ((hnew q).mp (h5 q hq).1).2 p hp he
      · intro p hp
        rcases List.mem_append.mp hp with hp | hp
        · obtain ⟨q, hq, rfl⟩ := List.mem_map.mp hp
          exact ⟨(h2 q hq).1, by simpa using (h2 q hq).2⟩
        · obtain ⟨q, hq, rfl⟩ := List.mem_map.mp hp
          exact ⟨((hnew q).mp (h5 q hq).1).1, by simpa using (h5 q hq).2⟩
      · intro y b
        rw [h6, h3]
        constructor
        · rintro ((h | ⟨p, f, hp, rfl⟩) | ⟨p, f, hp, rfl⟩)
          · exact .inl h
          · exact .inr ⟨false :: p, f, memL _ hp, by simp⟩
          · exact .inr ⟨true :: p, f, memR _ hp, by simp⟩
        · rintro (h | ⟨p, f, hp, rfl⟩)
          · exact .inl (.inl h)
          · rcases List.mem_append.mp hp with hp | hp
            · obtain ⟨⟨q, z, g⟩, hq, he⟩ := List.mem_map.mp hp
              simp only [Prod.mk.injEq] at he
              obtain ⟨rfl, rfl, rfl⟩ := he
              exact .inl (.inr ⟨q, g, hq, by simp⟩)
            · obtain ⟨⟨q, z, g⟩, hq, he⟩ := List.mem_map.mp hp
              simp only [Prod.mk.injEq] at he
              obtain ⟨rfl, rfl, rfl⟩ := he
              exact .inr ⟨q, g, hq, by simp⟩

mutual

/-- What the extractor's walk does (R111). -/
theorem walkNode_result (n : Node) (path : Code) (c : CodeTable) : WalkResult n.leaves path c (walkNode n path c) := by
  match n with
  | .leaf y f =>
    simp only [walkNode, Node.leaves]
    cases hy : codeAt c y with
    | some b => simp [WalkResult, hy]
    | none =>
      simp only [Option.isSome_none, Bool.false_eq_true, if_false]
      split
      · next h => exact .inr ⟨rfl, by simpa using h⟩
      · next h =>
        refine ⟨by simp, by simpa [hy] using Nat.le_of_not_lt h, fun z b => ?_⟩
        rw [codeAt_put]
        by_cases hz : z = y
        · subst hz; simp [hy, eq_comm]
        · simp [hz]
  | .branch f l r =>
    refine walkResult_branch (walkSlot_result l _ c) (walkSlot_result r _) ?_
    simp only [walkNode]
    cases walkSlot l (path ++ [false]) c with
    | error x => exact .inl ⟨x, rfl, rfl⟩
    | ok d => exact .inr ⟨d, rfl, rfl⟩

theorem walkSlot_result (v : Slot) (path : Code) (c : CodeTable) : WalkResult v.leaves path c (walkSlot v path c) := by
  match v with
  | .absent => simp [walkSlot, Slot.leaves, WalkResult]
  | .node n => exact walkNode_result n path c

end

/-- The walk over a list of Leaves in order, below `path` (R111). -/
def walkLeaves (path : Code) : List (Code × Sym × Freq) → CodeTable → Except Completion CodeTable
  | [], c => .ok c
  | (q, y, _) :: ls, c =>
    if (codeAt c y).isSome then .error .illegalOperation
    else if Config.maxCodeLen < (path ++ q).length then .error .capacityExceeded
    else walkLeaves path ls (Cells.put c y.toNat (path ++ q))

theorem walkLeaves_append (path : Code) (ls ms : List (Code × Sym × Freq)) (c : CodeTable) :
    walkLeaves path (ls ++ ms) c = match walkLeaves path ls c with
      | .error x => .error x
      | .ok d => walkLeaves path ms d := by
  induction ls generalizing c with
  | nil => rfl
  | cons p ls ih =>
    obtain ⟨q, y, f⟩ := p
    simp only [List.cons_append, walkLeaves]
    split
    · rfl
    · split
      · rfl
      · exact ih _

theorem walkLeaves_map_cons (path : Code) (d : Bool) (ls : List (Code × Sym × Freq)) (c : CodeTable) :
    walkLeaves path (ls.map fun p => (d :: p.1, p.2)) c = walkLeaves (path ++ [d]) ls c := by
  induction ls generalizing c with
  | nil => rfl
  | cons p ls ih =>
    obtain ⟨q, y, f⟩ := p
    simp only [List.map_cons, walkLeaves, ih, List.append_assoc, List.singleton_append]

mutual

/-- The extractor's walk visits the Leaves in left-first order (R111; spec/60_exceptions.md R168). -/
theorem walkNode_eq_walkLeaves (n : Node) (path : Code) (c : CodeTable) :
    walkNode n path c = walkLeaves path n.leaves c := by
  match n with
  | .leaf y f => simp [walkNode, Node.leaves, walkLeaves]
  | .branch f l r =>
    rw [Node.leaves, walkLeaves_append, walkLeaves_map_cons, walkNode, walkSlot_eq_walkLeaves l]
    cases walkLeaves (path ++ [false]) l.leaves c with
    | error x => rfl
    | ok d => simp only [walkLeaves_map_cons, walkSlot_eq_walkLeaves r]

theorem walkSlot_eq_walkLeaves (v : Slot) (path : Code) (c : CodeTable) :
    walkSlot v path c = walkLeaves path v.leaves c := by
  match v with
  | .absent => rfl
  | .node n => exact walkNode_eq_walkLeaves n path c

end

/-- Leaves of new and distinct symbols that are not too deep all enter the table (R111). -/
theorem walkLeaves_of_distinct {ls : List (Code × Sym × Freq)} (hn : (ls.map (·.2.1)).Nodup)
    (hl : ∀ q ∈ ls, q.1.length ≤ 255) (c : CodeTable) (hc : ∀ q ∈ ls, codeAt c q.2.1 = none) :
    ∃ d, walkLeaves [] ls c = .ok d ∧ ∀ y, (codeAt d y).isSome = true ↔ (codeAt c y).isSome = true ∨ y ∈ ls.map (·.2.1) := by
  induction ls generalizing c with
  | nil => exact ⟨c, rfl, by simp⟩
  | cons p ls ih =>
    obtain ⟨q, y, f⟩ := p
    simp only [List.map_cons, List.nodup_cons] at hn
    obtain ⟨d, h1, h2⟩ := ih hn.2 (fun q hq => hl q (List.mem_cons_of_mem _ hq)) (Cells.put c y.toNat q) (by
      intro p hp
      rw [codeAt_put, if_neg, hc p (List.mem_cons_of_mem _ hp)]
      intro he; exact hn.1 (he ▸ List.mem_map_of_mem hp))
    refine ⟨d, ?_, fun z => ?_⟩
    · have := hl _ (List.mem_cons_self ..)
      rw [walkLeaves, if_neg (by simp [hc _ (List.mem_cons_self ..)]),
        if_neg (by simpa [Config.maxCodeLen] using this)]
      exact h1
    · rw [h2, codeAt_put]
      by_cases hz : z = y <;> simp [hz]

/-- A table the extractor gives is the tree's paths, and no more (R114 (a), (d)). -/
theorem buildCode_ok {n : Node} {c : CodeTable} (h : buildCode n = .ok c) :
    (n.leaves.map (·.2.1)).Nodup ∧ (∀ p ∈ n.leaves, p.1.length ≤ Config.maxCodeLen) ∧
      ∀ y b, codeAt c y = some b ↔ ∃ f, (b, y, f) ∈ n.leaves := by
  have hw := walkNode_result n [] []
  unfold buildCode at h
  rw [h] at hw
  obtain ⟨h1, h2, h3⟩ := hw
  refine ⟨h1, fun p hp => by simpa using (h2 p hp).2, fun y b => ?_⟩
  rw [h3]
  constructor
  · rintro (h | ⟨p, f, hp, rfl⟩)
    · simp at h
    · exact ⟨f, by simpa using hp⟩
  · rintro ⟨f, hf⟩
    exact .inr ⟨b, f, hf, by simp⟩

/-- The two reasons the extractor raises (R111). -/
theorem buildCode_error {n : Node} {x : Completion} (h : buildCode n = .error x) :
    (x = .illegalOperation ∧ ¬ (n.leaves.map (·.2.1)).Nodup) ∨
      (x = .capacityExceeded ∧ ∃ p ∈ n.leaves, Config.maxCodeLen < p.1.length) := by
  have hw := walkNode_result n [] []
  unfold buildCode at h
  rw [h] at hw
  rcases hw with ⟨rfl, hn⟩ | ⟨rfl, p, hp, hl⟩
  · exact .inl ⟨rfl, fun hd => hn ⟨hd, by simp⟩⟩
  · exact .inr ⟨rfl, p, hp, by simpa using hl⟩

/-- A tree with distinct symbols and no Leaf too deep has a code table. -/
theorem buildCode_of_distinct {n : Node} (h1 : (n.leaves.map (·.2.1)).Nodup)
    (h2 : ∀ p ∈ n.leaves, p.1.length ≤ Config.maxCodeLen) : ∃ c, buildCode n = .ok c := by
  cases h : buildCode n with
  | ok c => exact ⟨c, rfl⟩
  | error x =>
    rcases buildCode_error h with ⟨-, hn⟩ | ⟨-, p, hp, hl⟩
    · exact absurd h1 hn
    · exact absurd (h2 p hp) (Nat.not_le.mpr hl)

mutual

theorem walkNode_rising (n : Node) (path : Code) {c d : CodeTable} (hc : Cells.rising 256 0 c = true)
    (h : walkNode n path c = .ok d) : Cells.rising 256 0 d = true := by
  match n with
  | .leaf y f =>
    simp only [walkNode] at h
    split at h
    · cases h
    · split at h
      · cases h
      · cases h; exact Cells.put_rising hc (Nat.zero_le _) y.isLt _
  | .branch f l r =>
    simp only [walkNode] at h
    split at h
    · cases h
    · next c' hl => exact walkSlot_rising r _ (walkSlot_rising l _ hc hl) h

/-- The extractor's table is in canonical form. -/
theorem walkSlot_rising (v : Slot) (path : Code) {c d : CodeTable} (hc : Cells.rising 256 0 c = true)
    (h : walkSlot v path c = .ok d) : Cells.rising 256 0 d = true := by
  match v with
  | .absent => simp only [walkSlot] at h; cases h; exact hc
  | .node n => exact walkNode_rising n path hc h

end

/-! ### The reconstructor -/

mutual

/-- Every Branch has a Leaf somewhere below it (spec/44_tree_reconstructor.md R127 (b)). -/
def Node.populated : Node → Prop
  | .leaf _ _ => True
  | .branch _ l r => (l.leaves ≠ [] ∨ r.leaves ≠ []) ∧ l.populated ∧ r.populated

def Slot.populated : Slot → Prop
  | .absent => True
  | .node n => n.populated

end

theorem Node.leaves_ne_nil {n : Node} (h : n.populated) : n.leaves ≠ [] := by
  cases n with
  | leaf y f => simp [Node.leaves]
  | branch f l r =>
    simp only [Node.populated] at h
    simp only [Node.leaves, ne_eq, List.append_eq_nil_iff, List.map_eq_nil_iff, not_and_or]
    exact h.1

mutual

/-- A Branch with a Leaf below it has a present child (spec/44_tree_reconstructor.md R127 (b)). -/
theorem Node.noEmptyBranch_of_populated (n : Node) (h : n.populated) : n.noEmptyBranch = true := by
  match n with
  | .leaf _ _ => rfl
  | .branch f l r =>
    obtain ⟨h1, h2, h3⟩ := h
    simp only [Node.noEmptyBranch, Slot.noEmptyBranch_of_populated l h2, Slot.noEmptyBranch_of_populated r h3,
      Bool.and_true]
    cases l <;> cases r <;> simp [Slot.leaves] at h1 <;> rfl

theorem Slot.noEmptyBranch_of_populated (v : Slot) (h : v.populated) : v.noEmptyBranch = true := by
  match v with
  | .absent => rfl
  | .node n => exact Node.noEmptyBranch_of_populated n h

end

/-- The Leaves of a Branch one of whose children has gained a Leaf. -/
theorem perm_leaves_insert {f g : Freq} {d : Bool} {c : Code} {y : Sym} {l r : Slot} {n : Node}
    (h : n.leaves.Perm ((c, y, 0) :: (if d then r else l).leaves)) :
    (if d then Node.branch f l (.node n) else Node.branch f (.node n) r).leaves.Perm
      ((d :: c, y, 0) :: (Node.branch g l r).leaves) := by
  cases d with
  | true =>
    simp only [if_true, Node.leaves, Slot.leaves] at h ⊢
    exact ((h.map _).append_left _).trans List.perm_middle
  | false =>
    simp only [Bool.false_eq_true, if_false, Node.leaves, Slot.leaves] at h ⊢
    exact (h.map _).append_right _

/-- What `Ins` does below a place whose Branches all have Leaves (R124, R125): the Leaf is added, or some code there
clashes. -/
theorem insertCode_cases (y : Sym) (c : Code) (v : Slot) (hv : v.populated) :
    (∃ n, insertCode y c v = .ok n ∧ n.populated ∧ n.leaves.Perm ((c, y, 0) :: v.leaves) ∧
      (∀ q ∈ v.leaves, ¬ Clash c q.1) ∧ n.size ≤ v.size + c.length + 1) ∨
    (insertCode y c v = .error .structuralInconsistency ∧ ∃ q ∈ v.leaves, Clash c q.1) := by
  induction c generalizing v with
  | nil =>
    match v with
    | .absent => exact .inl ⟨.leaf y 0, rfl, trivial, by simp [Node.leaves, Slot.leaves], by simp [Slot.leaves], by simp⟩
    | .node n =>
      obtain ⟨q, hq⟩ := List.exists_mem_of_ne_nil _ (Node.leaves_ne_nil hv)
      exact .inr ⟨rfl, q, hq, by simp⟩
  | cons d c ih =>
    match v with
    | .absent =>
      rcases ih .absent trivial with ⟨n, h1, h2, h3, -, h5⟩ | ⟨-, q, hq, -⟩
      · have hne := Node.leaves_ne_nil h2
        have hp := perm_leaves_insert (f := 0) (g := 0) (d := d) (l := .absent) (r := .absent) (n := n) (c := c) (y := y)
          (by cases d <;> simpa [Slot.leaves] using h3)
        refine .inl ⟨_, by simp only [insertCode, h1], ?_, hp, by simp [Slot.leaves], ?_⟩
        · cases d <;> simp [Node.populated, Slot.populated, Slot.leaves, h2, hne]
        · cases d <;> simp at h5 ⊢ <;> omega
      · simp [Slot.leaves] at hq
    | .node (.leaf z f) => exact .inr ⟨rfl, ([], z, f), by simp [Slot.leaves, Node.leaves], by simp⟩
    | .node (.branch f l r) =>
      simp only [Slot.populated, Node.populated] at hv
      obtain ⟨hne, hl, hr⟩ := hv
      rcases ih (if d then r else l) (by cases d <;> simpa) with ⟨n, h1, h2, h3, h4, h5⟩ | ⟨h1, q, hq, hcl⟩
      · have hn := Node.leaves_ne_nil h2
        refine .inl ⟨_, by simp only [insertCode, h1], ?_, perm_leaves_insert (f := 0) (g := f) h3, ?_, ?_⟩
        · cases d <;> simp [Node.populated, Slot.populated, Slot.leaves, h2, hn, hl, hr]
        · intro q hq
          simp only [Slot.leaves, mem_leaves_branch] at hq
          cases d <;> rcases hq with ⟨q, hq, rfl⟩ | ⟨q, hq, rfl⟩ <;> simp <;> exact h4 q hq
        · cases d <;> simp at h5 ⊢ <;> omega
      · refine .inr ⟨by simp only [insertCode, h1], (d :: q.1, q.2), ?_, by simpa using hcl⟩
        simp only [Slot.leaves, mem_leaves_branch]
        cases d
        · exact .inl ⟨q, by simpa using hq, rfl⟩
        · exact .inr ⟨q, by simpa using hq, rfl⟩

/-- The root the reconstructor starts from has no Leaf yet; below it every Branch has one. -/
def Node.populatedBelow : Node → Prop
  | .leaf _ _ => False
  | .branch _ l r => l.populated ∧ r.populated

theorem Node.populatedBelow.populated {n : Node} (h : n.populatedBelow) (hne : n.leaves ≠ []) : n.populated := by
  cases n with
  | leaf y f => exact trivial
  | branch f l r =>
    refine ⟨?_, h⟩
    by_contra hc
    rw [not_or, not_not, not_not] at hc
    exact hne (by simp [Node.leaves, hc])

mutual

theorem Node.size_le_of_leaves (n : Node) (w : Slot) (hn : n.populated)
    (h : ∀ q ∈ n.leaves, ∃ f, (q.1, q.2.1, f) ∈ w.leaves) : n.size ≤ w.size := by
  match n, w with
  | .leaf y f, .absent => simp [Node.leaves, Slot.leaves] at h
  | .leaf y f, .node m => exact Node.size_pos m
  | .branch f l r, w =>
    obtain ⟨q, hq⟩ := List.exists_mem_of_ne_nil _ (Node.leaves_ne_nil hn)
    have hcons : ∃ d p, q.1 = d :: p := by
      rcases mem_leaves_branch.mp hq with ⟨p, -, rfl⟩ | ⟨p, -, rfl⟩ <;> exact ⟨_, _, rfl⟩
    obtain ⟨d, p, hp⟩ := hcons
    obtain ⟨g, hg⟩ := h q hq
    match w with
    | .absent => simp [Slot.leaves] at hg
    | .node (.leaf z e) => simp [Slot.leaves, Node.leaves, hp] at hg
    | .node (.branch e l' r') =>
      have hl := Slot.size_le_of_leaves l l' hn.2.1 (fun q hq => by
        obtain ⟨g, hg⟩ := h (false :: q.1, q.2) (mem_leaves_branch.mpr (.inl ⟨q, hq, rfl⟩))
        refine ⟨g, ?_⟩
        rcases (mem_leaves_branch (f := e)).mp hg with ⟨⟨p', y', f'⟩, hp', he⟩ | ⟨p', -, he⟩ <;> simp at he
        obtain ⟨rfl, rfl, rfl⟩ := he
        exact hp')
      have hr := Slot.size_le_of_leaves r r' hn.2.2 (fun q hq => by
        obtain ⟨g, hg⟩ := h (true :: q.1, q.2) (mem_leaves_branch.mpr (.inr ⟨q, hq, rfl⟩))
        refine ⟨g, ?_⟩
        rcases (mem_leaves_branch (f := e)).mp hg with ⟨p', -, he⟩ | ⟨⟨p', y', f'⟩, hp', he⟩ <;> simp at he
        obtain ⟨rfl, rfl, rfl⟩ := he
        exact hp')
      simp only [Node.size_branch, Slot.size_node]
      omega

/-- A tree whose Branches all have Leaves is no larger than any tree with those Leaves at those places
(spec/42_code_extractor.md R115). -/
theorem Slot.size_le_of_leaves (v w : Slot) (hv : v.populated)
    (h : ∀ q ∈ v.leaves, ∃ f, (q.1, q.2.1, f) ∈ w.leaves) : v.size ≤ w.size := by
  match v with
  | .absent => exact Nat.zero_le _
  | .node n => exact Node.size_le_of_leaves n w hv h

end

/-- `Ins` at the root, for a code that is not empty. -/
theorem insertCode_root_cases (y : Sym) {c : Code} (hc : c ≠ []) {root : Node} (hr : root.populatedBelow) :
    (∃ n, insertCode y c (.node root) = .ok n ∧ n.populatedBelow ∧ n.leaves.Perm ((c, y, 0) :: root.leaves) ∧
      (∀ q ∈ root.leaves, ¬ Clash c q.1) ∧ n.size ≤ root.size + c.length) ∨
    (insertCode y c (.node root) = .error .structuralInconsistency ∧ ∃ q ∈ root.leaves, Clash c q.1) := by
  match c, hc, root, hr with
  | d :: c, _, .branch f l r, hr =>
    obtain ⟨hl, hr⟩ := hr
    rcases insertCode_cases y c (if d then r else l) (by cases d <;> simpa) with
      ⟨n, h1, h2, h3, h4, h5⟩ | ⟨h1, q, hq, hcl⟩
    · refine .inl ⟨_, by simp only [insertCode, h1], ?_, perm_leaves_insert (f := 0) (g := f) h3, ?_, ?_⟩
      · cases d <;> simp [Node.populatedBelow, Slot.populated, h2, hl, hr]
      · intro q hq
        simp only [mem_leaves_branch] at hq
        cases d <;> rcases hq with ⟨q, hq, rfl⟩ | ⟨q, hq, rfl⟩ <;> simp <;> exact h4 q hq
      · cases d <;> simp at h5 ⊢ <;> omega
    · refine .inr ⟨by simp only [insertCode, h1], (d :: q.1, q.2), ?_, by simpa using hcl⟩
      simp only [mem_leaves_branch]
      cases d
      · exact .inl ⟨q, by simpa using hq, rfl⟩
      · exact .inr ⟨q, by simpa using hq, rfl⟩

/-- What the reconstructor's loop does (R124, R125): every entry becomes a Leaf at its code, or the codes clash. -/
theorem insertCodes_cases (es : List (Sym × Code)) {root : Node} (hr : root.populatedBelow) :
    (∃ n, insertCodes es root = .ok n ∧ n.populatedBelow ∧
      n.leaves.Perm (es.map (fun e => (e.2, e.1, 0)) ++ root.leaves) ∧
      (∀ e ∈ es, e.2 ≠ [] ∧ ∀ q ∈ root.leaves, ¬ Clash e.2 q.1) ∧ es.Pairwise (fun e d => ¬ Clash e.2 d.2) ∧
      n.size ≤ root.size + (es.map fun e => e.2.length).sum) ∨
    (insertCodes es root = .error .structuralInconsistency ∧
      ¬ ((∀ e ∈ es, e.2 ≠ [] ∧ ∀ q ∈ root.leaves, ¬ Clash e.2 q.1) ∧ es.Pairwise (fun e d => ¬ Clash e.2 d.2))) := by
  induction es generalizing root with
  | nil => exact .inl ⟨root, rfl, hr, by simp, by simp, by simp, by simp⟩
  | cons e es ih =>
    obtain ⟨y, c⟩ := e
    by_cases hc : c = []
    · subst hc
      exact .inr ⟨by simp [insertCodes], fun h => (h.1 _ (List.mem_cons_self ..)).1 rfl⟩
    rcases insertCode_root_cases y hc hr with ⟨n, h1, h2, h3, h4, h5⟩ | ⟨h1, q, hq, hcl⟩
    · rcases ih h2 with ⟨m, g1, g2, g3, g4, g5, g6⟩ | ⟨g1, g2⟩
      · refine .inl ⟨m, by simp [insertCodes, hc, h1, g1], g2, ?_, ?_, ?_, ?_⟩
        · refine g3.trans ((h3.append_left _).trans ?_)
          simp
        · intro e he
          rcases List.mem_cons.mp he with rfl | he
          · exact ⟨hc, h4⟩
          · exact ⟨(g4 e he).1, fun q hq => (g4 e he).2 q (h3.symm.subset (List.mem_cons_of_mem _ hq))⟩
        · rw [List.pairwise_cons]
          refine ⟨fun e he hcl => ?_, g5⟩
          exact (g4 e he).2 _ (h3.symm.subset (List.mem_cons_self ..)) hcl.symm
        · simp only [List.map_cons, List.sum_cons]; omega
      · refine .inr ⟨by simp [insertCodes, hc, h1, g1], fun ⟨k1, k2⟩ => g2 ⟨fun e he => ?_, k2.of_cons⟩⟩
        refine ⟨(k1 e (List.mem_cons_of_mem _ he)).1, fun q hq hcl => ?_⟩
        rcases List.mem_cons.mp (h3.subset hq) with rfl | hq
        · exact (List.pairwise_cons.mp k2).1 e he hcl.symm
        · exact (k1 e (List.mem_cons_of_mem _ he)).2 q hq hcl
    · exact .inr ⟨by simp [insertCodes, hc, h1], fun h => (h.1 _ (List.mem_cons_self ..)).2 q hq hcl⟩

/-- A table is prefix-free when no two of its present entries clash. -/
theorem prefixFree_iff (c : CodeTable) : prefixFree c ↔ (entriesOf c).Pairwise fun e d => ¬ Clash e.2 d.2 := by
  constructor
  · intro h
    have hn := entriesOf_nodup c
    rw [List.Nodup, List.pairwise_map] at hn
    refine hn.imp_of_mem fun {e d} he hd hne hcl => ?_
    rw [show e = (e.1, e.2) from rfl, mem_entriesOf] at he
    rw [show d = (d.1, d.2) from rfl, mem_entriesOf] at hd
    rcases hcl with hp | hp
    · exact h e.1 d.1 e.2 d.2 hne he hd hp
    · exact h d.1 e.1 d.2 e.2 (Ne.symm hne) hd he hp
  · intro h x y b d hxy hx hy hp
    have hs : Std.Symm fun e d : Sym × Code => ¬ Clash e.2 d.2 := ⟨fun e d he hcl => he hcl.symm⟩
    exact h.forall ((mem_entriesOf c x b).mpr hx) ((mem_entriesOf c y d).mpr hy)
      (fun he => hxy (congrArg Prod.fst he)) (.inl hp)

/-- What `TreeFromCode` does on a table with an entry (R124, R125): one Leaf for each entry at its code, or the codes
clash. -/
theorem treeFromCode_cases {c : CodeTable} (hne : entriesOf c ≠ []) :
    (∃ n, treeFromCode c = .ok n ∧ n.leaves.Perm ((entriesOf c).map fun e => (e.2, e.1, 0)) ∧ prefixFree c ∧
      n.populated ∧ n.size ≤ 1 + ((entriesOf c).map fun e => e.2.length).sum) ∨
    (treeFromCode c = .error .structuralInconsistency ∧ ¬ prefixFree c) := by
  rw [prefixFree_iff]
  unfold treeFromCode
  generalize entriesOf c = es at hne
  by_cases h1 : ∃ y, es = [(y, [])]
  · obtain ⟨y, rfl⟩ := h1
    exact .inl ⟨.leaf y 0, rfl, by simp [Node.leaves], by simp, trivial, by simp⟩
  · have hloop : treeFromEntries es = insertCodes es (.branch 0 .absent .absent) := by
      unfold treeFromEntries
      split
      · next y => exact absurd ⟨y, rfl⟩ h1
      · rfl
    rw [hloop]
    rcases insertCodes_cases es (root := .branch 0 .absent .absent) ⟨trivial, trivial⟩ with
      ⟨n, g1, g2, g3, g4, g5, g6⟩ | ⟨g1, g2⟩
    · have g3 : n.leaves.Perm (es.map fun e => (e.2, e.1, 0)) := by simpa [Node.leaves, Slot.leaves] using g3
      exact .inl ⟨n, g1, g3, g5, g2.populated (fun h => by simp [h, hne] at g3), by simpa using g6⟩
    · refine .inr ⟨g1, fun hp => g2 ⟨fun e he => ⟨fun hnil => ?_, by simp [Node.leaves, Slot.leaves]⟩, hp⟩⟩
      match es, hne, h1, hp, he with
      | [(y, d)], _, h1, _, he =>
        obtain rfl := List.mem_singleton.mp he
        subst hnil
        exact h1 ⟨y, rfl⟩
      | a :: b :: es, _, _, hp, he =>
        rcases List.mem_cons.mp he with rfl | he
        · exact (List.pairwise_cons.mp hp).1 b (List.mem_cons_self ..) (by rw [hnil]; simp)
        · exact (List.pairwise_cons.mp hp).1 e he (by rw [hnil]; simp)

/-- A table that gives a tree has an entry: an all-absent one gives the empty Branch and no Leaf. -/
theorem treeFromCode_leaves {c : CodeTable} {n : Node} (h : treeFromCode c = .ok n) :
    n.leaves.Perm ((entriesOf c).map fun e => (e.2, e.1, 0)) := by
  by_cases hne : entriesOf c = []
  · rw [treeFromCode, hne] at h
    simp only [treeFromEntries, insertCodes, Except.ok.injEq] at h
    subst h
    simp [hne, Node.leaves, Slot.leaves]
  · rcases treeFromCode_cases hne with ⟨m, h1, h2, -⟩ | ⟨h1, -⟩
    · rw [h1] at h; cases h; exact h2
    · rw [h1] at h; cases h

/-- The root of a tree with two or more Leaves is a Branch. -/
theorem Node.branch_of_two_leaves {n : Node} (h : 2 ≤ n.leaves.length) : ∃ f l r, n = .branch f l r := by
  cases n with
  | leaf y f => simp [Node.leaves] at h
  | branch f l r => exact ⟨f, l, r, rfl⟩

/-! ### The decoder's walk -/

/-- Following the bits of one code arrives at that code's Leaf and at no Leaf sooner (spec/45_decoder.md R131,
R135): there the walk stops on the sentinel, and else appends the symbol and goes back to the root. -/
theorem walkBits_code {root : Node} {require : Bool} {p : Code} {y : Sym} {f : Freq} {g : Freq} {l r : Slot}
    (hp : (p, y, f) ∈ (Node.branch g l r).leaves) (atRoot : Bool) (bs : Bits) (out : List Sym) :
    walkBits root require (.branch g l r) atRoot (p ++ bs) out =
      if y = Config.sentinel then .ok out.reverse else walkBits root require root true bs (y :: out) := by
  induction p generalizing g l r atRoot with
  | nil => simp [mem_leaves_branch] at hp
  | cons d p ih =>
    have hp' : (p, y, f) ∈ (if d then r else l).leaves := by
      rw [mem_leaves_branch] at hp
      rcases hp with ⟨q, hq, he⟩ | ⟨q, hq, he⟩ <;>
      · simp only [Prod.mk.injEq, List.cons.injEq] at he
        obtain ⟨⟨rfl, rfl⟩, h2⟩ := he
        rw [h2]
        simpa using hq
    simp only [List.cons_append, walkBits, Node.child_branch]
    cases hv : (if d then r else l) with
    | absent => rw [hv] at hp'; simp [Slot.leaves] at hp'
    | node n =>
      rw [hv] at hp'
      cases n with
      | leaf z e =>
        simp only [Slot.leaves, Node.leaves, List.mem_singleton, Prod.mk.injEq] at hp'
        obtain ⟨rfl, rfl, rfl⟩ := hp'
        rfl
      | branch e l' r' => exact ih hp' false

/-- The encoded bits of a list of symbols, walked from the root: every symbol is appended in turn, up to the first
sentinel (spec/45_decoder.md R135). -/
theorem walkBits_encode {c : CodeTable} {g : Freq} {l r : Slot} {require : Bool}
    (hc : ∀ y b, codeAt c y = some b → ∃ f, (b, y, f) ∈ (Node.branch g l r).leaves) (b : List Sym)
    (hb : ∀ y ∈ b, (codeAt c y).isSome) (hs : Config.sentinel ∉ b) (bs : Bits) (out : List Sym) :
    walkBits (.branch g l r) require (.branch g l r) true (encodeBits c b ++ bs) out =
      walkBits (.branch g l r) require (.branch g l r) true bs (b.reverse ++ out) := by
  induction b generalizing out with
  | nil => rfl
  | cons y b ih =>
    obtain ⟨d, hd⟩ := Option.isSome_iff_exists.mp (hb y (List.mem_cons_self ..))
    obtain ⟨f, hf⟩ := hc y d hd
    simp only [encodeBits, List.flatMap_cons, hd, Option.getD_some, List.append_assoc]
    rw [walkBits_code hf, if_neg (by rintro rfl; exact hs (List.mem_cons_self ..))]
    have := ih (fun z hz => hb z (List.mem_cons_of_mem _ hz)) (fun h => hs (List.mem_cons_of_mem _ h)) (y :: out)
    simpa [encodeBits] using this

/-- The codes of a list of Leaves that are no sentinel, walked from the root: their symbols are appended in turn
(R131). -/
theorem walkBits_codes {g : Freq} {l r : Slot} {require : Bool} (ps : List (Code × Sym))
    (hp : ∀ p ∈ ps, p.2 ≠ Config.sentinel ∧ ∃ f, (p.1, p.2, f) ∈ (Node.branch g l r).leaves) (bs : Bits)
    (out : List Sym) :
    walkBits (.branch g l r) require (.branch g l r) true (ps.flatMap (·.1) ++ bs) out =
      walkBits (.branch g l r) require (.branch g l r) true bs ((ps.map (·.2)).reverse ++ out) := by
  induction ps generalizing out with
  | nil => rfl
  | cons p ps ih =>
    obtain ⟨hs, f, hf⟩ := hp p (List.mem_cons_self ..)
    rw [List.flatMap_cons, List.append_assoc, walkBits_code hf, if_neg hs,
      ih (fun q hq => hp q (List.mem_cons_of_mem _ hq))]
    simp

theorem Slot.follow_absent (b : Bits) : Slot.follow .absent b = .absent := by cases b <;> rfl

/-- Bits that lead to a Branch go through Branches alone: the walk arrives there and has appended nothing (R131). -/
theorem walkBits_follow {root : Node} {require : Bool} {g : Freq} {l r : Slot} {m : Node} (q : Bits)
    (hm : m.kind = .branch) (hq : Slot.follow (.node (.branch g l r)) q = .node m) (atRoot : Bool) (bs : Bits)
    (out : List Sym) :
    walkBits root require (.branch g l r) atRoot (q ++ bs) out = walkBits root require m (atRoot && q.isEmpty) bs out := by
  induction q generalizing g l r atRoot with
  | nil => simp only [Slot.follow, Slot.node.injEq] at hq; subst hq; simp
  | cons d q ih =>
    simp only [Slot.follow, Node.child_branch] at hq
    simp only [List.cons_append, walkBits, Node.child_branch]
    cases hv : (if d then r else l) with
    | absent => rw [hv, Slot.follow_absent] at hq; cases hq
    | node n =>
      rw [hv] at hq
      cases n with
      | leaf z e =>
        cases q with
        | nil => cases hq; cases hm
        | cons d' q => simp [Slot.follow, Slot.follow_absent] at hq
      | branch e l' r' => simpa using ih hq false

end Sys2Proof.Machine
end

