-- ==== Sys2Proof/Laws/Commands.lean ====
section
/-! SUPPORT. What each command can do, said once: how `exec` ends, command by command, as the failure state with a
code or the result state (spec/60_exceptions.md R163, R164). -/

namespace Sys2Proof.Machine

/-! ### What the stages raise -/

theorem insertCode_error (y : Sym) (c : Code) (v : Slot) {x : Completion} (h : insertCode y c v = .error x) :
    x = .structuralInconsistency := by
  induction c generalizing v with
  | nil =>
    cases v with
    | absent => simp [insertCode] at h
    | node n => simp [insertCode] at h; exact h.symm
  | cons d c ih =>
    cases v with
    | absent =>
      simp only [insertCode] at h
      split at h
      · next e => cases h; exact ih _ e
      · cases h
    | node n =>
      cases n with
      | leaf => simp [insertCode] at h; exact h.symm
      | branch f l r =>
        simp only [insertCode] at h
        split at h
        · next e => cases h; exact ih _ e
        · cases h

/-- The reconstructor raises nothing but `StructuralInconsistency` (spec/44_tree_reconstructor.md R124). -/
theorem treeFromCode_error {c : CodeTable} {x : Completion} (h : treeFromCode c = .error x) :
    x = .structuralInconsistency := by
  have key : ∀ (es : List (Sym × Code)) (root : Node), insertCodes es root = .error x → x = .structuralInconsistency := by
    intro es
    induction es with
    | nil => intro root h; simp [insertCodes] at h
    | cons e es ih =>
      intro root h
      simp only [insertCodes] at h
      split at h
      · cases h; rfl
      · split at h
        · next e => cases h; exact insertCode_error _ _ _ e
        · exact ih _ h
  unfold treeFromCode treeFromEntries at h
  split at h
  · cases h
  · exact key _ _ h

/-- The decode walk raises nothing but `MalformedBitstream` (spec/45_decoder.md R131, R136). -/
theorem decodeWalk_error {n : Node} {b : Bits} {require : Bool} {x : Completion}
    (h : decodeWalk n b require = .error x) : x = .malformedBitstream := by
  have key : ∀ (root : Node) (b : Bits) (cur : Node) (atRoot : Bool) (out : List Sym),
      walkBits root require cur atRoot b out = .error x → x = .malformedBitstream := by
    intro root b
    induction b with
    | nil =>
      intro cur atRoot out h
      simp only [walkBits] at h
      split at h
      · cases h; rfl
      · split at h
        · cases h; rfl
        · cases h
    | cons d b ih =>
      intro cur atRoot out h
      simp only [walkBits] at h
      split at h
      · cases h; rfl
      · exact ih _ _ _ h
      · split at h
        · cases h
        · exact ih _ _ _ h
  unfold decodeWalk at h
  split at h
  · split at h
    · cases h; rfl
    · split at h
      · cases h; rfl
      · cases h
  · exact key _ _ _ _ _ h

/-- Parsing raises nothing but `FormatMismatch` and `MalformedBitstream` (spec/46_container_codec.md R145). -/
theorem parseContainer_error {l : List Byte} {x : Completion} (h : parseContainer l = .error x) :
    x = .formatMismatch ∨ x = .malformedBitstream := by
  unfold parseContainer at h
  split at h
  · split at h
    · cases h; exact .inl rfl
    · split at h
      · cases h; exact .inr rfl
      · simp only [parseBody] at h
        repeat' split at h
        all_goals first | (cases h; exact .inr rfl) | cases h
  · cases h; exact .inl rfl

/-! ### The shared stages -/

/-- What the stages that `ENCODE` and `COMPRESS` share can do (spec/43_encoder.md R118). -/
theorem State.encodeStages_cases (s : State) (b : List Byte) :
    (∃ x, s.encodeStages b = .error x ∧
      (buildTree (freqTable b) = .error x ∨ x = .capacityExceeded ∨
        ∃ n, buildTree (freqTable b) = .ok n ∧ buildCode n = .error x)) ∨
    ∃ n c, buildTree (freqTable b) = .ok n ∧ buildCode n = .ok c ∧
      ((s.clearEncoding.setFt (freqTable b)).setReg .n0 (.node n)).live ≤ Config.nodeCap ∧
      (encodeBits c b).length ≤ Config.bitCap ∧
      s.encodeStages b = .ok ((((s.clearEncoding.setFt (freqTable b)).setReg .n0 (.node n)).writeCodes c).writeBits
        (encodeBits c b), c, encodeBits c b) := by
  unfold State.encodeStages
  cases ht : buildTree (freqTable b) with
  | error x => exact .inl ⟨x, rfl, .inl rfl⟩
  | ok n =>
    rcases ((s.clearEncoding.setFt (freqTable b)).setReg .n0 (.node n)).checkLive_cases with ⟨hl, h⟩ | ⟨-, h⟩
    · simp only [h]
      cases hc : buildCode n with
      | error x => exact .inl ⟨x, rfl, .inr (.inr ⟨n, rfl, hc⟩)⟩
      | ok c =>
        by_cases hb : Config.bitCap < (encodeBits c b).length
        · exact .inl ⟨.capacityExceeded, by simp only [hb, if_true], .inr (.inl rfl)⟩
        · exact .inr ⟨n, c, rfl, hc, hl, Nat.le_of_not_lt hb, by simp only [hb, if_false]⟩
    · exact .inl ⟨.capacityExceeded, by simp only [h], .inr (.inl rfl)⟩

/-- What the stages that `DECODE` and `DECOMPRESS` share can do (spec/45_decoder.md R134). -/
theorem State.decodeStages_cases (s : State) (c : CodeTable) (b : Bits) (require : Bool) :
    (∃ x, s.decodeStages c b require = .error x ∧
      (treeFromCode c = .error x ∨ x = .capacityExceeded ∨
        ∃ n, treeFromCode c = .ok n ∧ decodeWalk n b require = .error x)) ∨
    ∃ n out, treeFromCode c = .ok n ∧ decodeWalk n b require = .ok out ∧
      (s.clearDecoding.setReg .n0 (.node n)).live ≤ Config.nodeCap ∧ out.length ≤ Config.obufCap ∧
      s.decodeStages c b require = .ok ((s.clearDecoding.setReg .n0 (.node n)).writeOut out) := by
  unfold State.decodeStages
  cases ht : treeFromCode c with
  | error x => exact .inl ⟨x, rfl, .inl rfl⟩
  | ok n =>
    rcases (s.clearDecoding.setReg .n0 (.node n)).checkLive_cases with ⟨hl, h⟩ | ⟨-, h⟩
    · simp only [h]
      cases hw : decodeWalk n b require with
      | error x => exact .inl ⟨x, rfl, .inr (.inr ⟨n, rfl, hw⟩)⟩
      | ok out =>
        by_cases hb : Config.obufCap < out.length
        · exact .inl ⟨.capacityExceeded, by simp only [hb, if_true], .inr (.inl rfl)⟩
        · exact .inr ⟨n, out, rfl, hw, hl, Nat.le_of_not_lt hb, by simp only [hb, if_false]⟩
    · exact .inl ⟨.capacityExceeded, by simp only [h], .inr (.inl rfl)⟩

/-! ### The commands -/

theorem execPqInsert_cases (ra : NReg) (s : State) :
    (∃ x, (x = .illegalOperation ∧ s.reg ra = .absent ∨ x = .capacityExceeded ∧ Config.pqCap ≤ s.heap.length) ∧
      execPqInsert ra s = .next (s.endWith x)) ∨
    ∃ n, s.reg ra = .node n ∧ s.heap.length < Config.pqCap ∧
      execPqInsert ra s = .next (((s.setHeap (pqInsert s.heap n)).setReg ra .absent).endWith .ok) := by
  unfold execPqInsert
  cases hr : s.reg ra with
  | absent => exact .inl ⟨_, .inl ⟨rfl, rfl⟩, rfl⟩
  | node n =>
    by_cases h : Config.pqCap ≤ s.heap.length
    · exact .inl ⟨_, .inr ⟨rfl, h⟩, by simp only [h, if_true, State.conclude_error]⟩
    · exact .inr ⟨n, rfl, Nat.lt_of_not_le h, by simp only [h, if_false, State.conclude_ok]⟩

theorem execPqExtractmin_cases (rd : NReg) (s : State) :
    (s.heap = [] ∧
      execPqExtractmin rd s = .next (((s.setReg rd .absent).report .absent).endWith .queueEmpty)) ∨
    ∃ m h, pqExtract s.heap = some (m, h) ∧
      execPqExtractmin rd s = .next ((((s.setHeap h).setReg rd (.node m)).report (.node m)).endWith .ok) := by
  unfold execPqExtractmin
  cases he : pqExtract s.heap with
  | none => exact .inl ⟨pqExtract_eq_none.mp he, rfl⟩
  | some p => exact .inr ⟨p.1, p.2, rfl, rfl⟩

theorem execPqPeekmin_cases (s : State) :
    (s.heap = [] ∧ execPqPeekmin s = .next ((s.report .absent).endWith .queueEmpty)) ∨
    ∃ m h, s.heap = m :: h ∧ execPqPeekmin s = .next ((s.report (.node m)).endWith .ok) := by
  unfold execPqPeekmin
  cases hh : s.heap with
  | nil => exact .inl ⟨rfl, rfl⟩
  | cons m h => exact .inr ⟨m, h, rfl, rfl⟩

theorem execNdLeaf_cases (rd : NReg) (sym : Sym) (s : State) :
    execNdLeaf rd sym s = .next (s.endWith .capacityExceeded) ∨
    ((s.setReg rd (.node (.leaf sym s.arg))).live ≤ Config.nodeCap ∧
      execNdLeaf rd sym s = .next ((s.setReg rd (.node (.leaf sym s.arg))).endWith .ok)) := by
  unfold execNdLeaf
  rcases (s.setReg rd (.node (.leaf sym s.arg))).checkLive_cases with ⟨hl, h⟩ | ⟨-, h⟩
  · exact .inr ⟨hl, by rw [h]; rfl⟩
  · exact .inl (by rw [h]; rfl)

theorem execNdBranch_cases (rd ra rb : NReg) (s : State) :
    (∃ x, (x = .illegalOperation ∨ x = .capacityExceeded) ∧ execNdBranch rd ra rb s = .next (s.endWith x)) ∨
    ∃ a b, ra ≠ rb ∧ s.reg ra = .node a ∧ s.reg rb = .node b ∧ a.freq.toNat + b.freq.toNat < 2 ^ 32 ∧
      let t := ((s.setReg ra .absent).setReg rb .absent).setReg rd
        (.node (.branch (a.freq + b.freq) (.node a) (.node b)))
      t.live ≤ Config.nodeCap ∧ execNdBranch rd ra rb s = .next (t.endWith .ok) := by
  unfold execNdBranch
  by_cases hab : ra = rb
  · exact .inl ⟨_, .inl rfl, by rw [if_pos hab]; rfl⟩
  rw [if_neg hab]
  cases ha : s.reg ra with
  | absent => exact .inl ⟨_, .inl rfl, rfl⟩
  | node a =>
    cases hb : s.reg rb with
    | absent => exact .inl ⟨_, .inl rfl, rfl⟩
    | node b =>
      rcases mkBranch_cases a b with ⟨-, h⟩ | ⟨hf, -, h⟩
      · exact .inl ⟨_, .inr rfl, by simp only [h, State.conclude_error]⟩
      · simp only [h]
        rcases (((s.setReg ra .absent).setReg rb .absent).setReg rd
          (.node (.branch (a.freq + b.freq) (.node a) (.node b)))).checkLive_cases with ⟨hl, h⟩ | ⟨-, h⟩
        · exact .inr ⟨a, b, hab, rfl, rfl, hf, hl, by rw [h]; rfl⟩
        · exact .inl ⟨_, .inr rfl, by rw [h]; rfl⟩

theorem execFreq_cases (s : State) :
    (∃ x, (x = .emptyInput ∨ x = .capacityExceeded) ∧ execFreq s = .next ((s.setFt []).endWith x)) ∨
    (s.ilen ≠ 0 ∧ s.ilen.toNat ≤ Config.ibufCap ∧
      execFreq s = .next ((s.setFt (freqTable s.inputBytes)).endWith .ok)) := by
  unfold execFreq
  rcases s.textOperand_cases with ⟨-, h⟩ | ⟨-, h⟩ | ⟨h0, h1, h⟩
  · exact .inl ⟨_, .inr rfl, by rw [h]; rfl⟩
  · exact .inl ⟨_, .inl rfl, by rw [h]; rfl⟩
  · exact .inr ⟨h0, h1, by rw [h]; rfl⟩

theorem execBuildtree_cases (rd : NReg) (s : State) :
    (∃ x, (x = .emptyInput ∧ keysOf s.ft = [] ∨ x = .capacityExceeded ∨ keysOf s.ft ≠ [] ∧ buildTree s.ft = .error x) ∧
      execBuildtree rd s = .next (((s.setReg rd .absent).setHeap []).endWith x)) ∨
    ∃ n, keysOf s.ft ≠ [] ∧ buildTree s.ft = .ok n ∧
      (((s.setReg rd .absent).setHeap []).setReg rd (.node n)).live ≤ Config.nodeCap ∧
      execBuildtree rd s = .next ((((s.setReg rd .absent).setHeap []).setReg rd (.node n)).endWith .ok) := by
  unfold execBuildtree
  by_cases hk : keysOf s.ft = []
  · exact .inl ⟨_, .inl ⟨rfl, hk⟩, by simp only [hk, if_true, State.conclude_error]⟩
  simp only [hk, if_false]
  cases ht : buildTree s.ft with
  | error x => exact .inl ⟨x, .inr (.inr ⟨hk, rfl⟩), rfl⟩
  | ok n =>
    rcases (((s.setReg rd .absent).setHeap []).setReg rd (.node n)).checkLive_cases with ⟨hl, h⟩ | ⟨-, h⟩
    · exact .inr ⟨n, hk, rfl, hl, by simp only [h, State.conclude_ok]⟩
    · exact .inl ⟨_, .inr (.inl rfl), by simp only [h, State.conclude_error]⟩

theorem execBuildcode_cases (ra : NReg) (s : State) :
    (∃ x, (x = .emptyInput ∧ s.reg ra = .absent ∨ ∃ n, s.reg ra = .node n ∧ buildCode n = .error x) ∧
      execBuildcode ra s = .next ((s.setCt []).endWith x)) ∨
    ∃ n c, s.reg ra = .node n ∧ buildCode n = .ok c ∧ execBuildcode ra s = .next ((s.writeCodes c).endWith .ok) := by
  unfold execBuildcode
  cases hr : s.reg ra with
  | absent => exact .inl ⟨_, .inl ⟨rfl, rfl⟩, rfl⟩
  | node n =>
    cases hc : buildCode n with
    | error x => exact .inl ⟨x, .inr ⟨n, rfl, hc⟩, by simp only [hc, State.conclude_error]⟩
    | ok c => exact .inr ⟨n, c, rfl, hc, by simp only [hc, State.conclude_ok]⟩

theorem execTreefromcode_cases (rd : NReg) (s : State) :
    (∃ x, (x = .emptyInput ∧ entriesOf s.codes = [] ∨ x = .capacityExceeded ∨
        entriesOf s.codes ≠ [] ∧ treeFromCode s.codes = .error x) ∧
      execTreefromcode rd s = .next ((s.setReg rd .absent).endWith x)) ∨
    ∃ n, entriesOf s.codes ≠ [] ∧ treeFromCode s.codes = .ok n ∧
      ((s.setReg rd .absent).setReg rd (.node n)).live ≤ Config.nodeCap ∧
      execTreefromcode rd s = .next (((s.setReg rd .absent).setReg rd (.node n)).endWith .ok) := by
  unfold execTreefromcode
  by_cases hk : entriesOf s.codes = []
  · exact .inl ⟨_, .inl ⟨rfl, hk⟩, by simp only [hk, if_true, State.conclude_error]⟩
  simp only [hk, if_false]
  cases ht : treeFromCode s.codes with
  | error x => exact .inl ⟨x, .inr (.inr ⟨hk, rfl⟩), rfl⟩
  | ok n =>
    rcases ((s.setReg rd .absent).setReg rd (.node n)).checkLive_cases with ⟨hl, h⟩ | ⟨-, h⟩
    · exact .inr ⟨n, hk, rfl, hl, by simp only [h, State.conclude_ok]⟩
    · exact .inl ⟨_, .inr (.inl rfl), by simp only [h, State.conclude_error]⟩

theorem execEncode_cases (s : State) :
    (∃ x, (x = .emptyInput ∨ x = .capacityExceeded ∨ s.ilen ≠ 0 ∧ s.ilen.toNat ≤ Config.ibufCap ∧
        s.encodeStages s.inputBytes = .error x) ∧ execEncode s = .next (s.clearEncoding.endWith x)) ∨
    ∃ n c, s.ilen ≠ 0 ∧ s.ilen.toNat ≤ Config.ibufCap ∧ buildTree (freqTable s.inputBytes) = .ok n ∧
      buildCode n = .ok c ∧
      ((s.clearEncoding.setFt (freqTable s.inputBytes)).setReg .n0 (.node n)).live ≤ Config.nodeCap ∧
      (encodeBits c s.inputBytes).length ≤ Config.bitCap ∧
      execEncode s = .next (((((s.clearEncoding.setFt (freqTable s.inputBytes)).setReg .n0 (.node n)).writeCodes
        c).writeBits (encodeBits c s.inputBytes)).endWith .ok) := by
  unfold execEncode
  rcases s.textOperand_cases with ⟨-, h⟩ | ⟨-, h⟩ | ⟨h0, h1, h⟩
  · exact .inl ⟨_, .inr (.inl rfl), by rw [h]; rfl⟩
  · exact .inl ⟨_, .inl rfl, by rw [h]; rfl⟩
  simp only [h]
  rcases s.encodeStages_cases s.inputBytes with ⟨x, he, -⟩ | ⟨n, c, h2, h3, h4, h5, he⟩
  · exact .inl ⟨x, .inr (.inr ⟨h0, h1, he⟩), by rw [he]; rfl⟩
  · exact .inr ⟨n, c, h0, h1, h2, h3, h4, h5, by rw [he]; rfl⟩

theorem execDecode_cases (s : State) :
    (∃ x, (x = .emptyInput ∨ x = .capacityExceeded ∨ entriesOf s.codes ≠ [] ∧
        s.decodeStages s.codes s.inputBits false = .error x) ∧ execDecode s = .next (s.clearDecoding.endWith x)) ∨
    ∃ n out, entriesOf s.codes ≠ [] ∧ s.bitn.toNat ≤ Config.bitCap ∧ treeFromCode s.codes = .ok n ∧
      decodeWalk n s.inputBits false = .ok out ∧
      (s.clearDecoding.setReg .n0 (.node n)).live ≤ Config.nodeCap ∧ out.length ≤ Config.obufCap ∧
      execDecode s = .next (((s.clearDecoding.setReg .n0 (.node n)).writeOut out).endWith .ok) := by
  unfold execDecode
  by_cases hk : entriesOf s.codes = []
  · exact .inl ⟨_, .inl rfl, by simp only [hk, if_true, State.conclude_error]⟩
  by_cases hb : Config.bitCap < s.bitn.toNat
  · exact .inl ⟨_, .inr (.inl rfl), by simp only [hk, hb, if_true, if_false, State.conclude_error]⟩
  simp only [hk, hb, if_false]
  rcases s.decodeStages_cases s.codes s.inputBits false with ⟨x, he, -⟩ | ⟨n, out, h2, h3, h4, h5, he⟩
  · exact .inl ⟨x, .inr (.inr ⟨hk, he⟩), by rw [he]; rfl⟩
  · exact .inr ⟨n, out, hk, Nat.le_of_not_lt hb, h2, h3, h4, h5, by rw [he]; rfl⟩

theorem execCompress_cases (s : State) :
    let l := s.inputBytes ++ [Config.sentinel]
    (∃ x, (x = .emptyInput ∨ x = .unrepresentable ∨ x = .capacityExceeded ∨ s.ilen.toNat ≤ Config.ibufCap ∧
        s.clearCompress.encodeStages l = .error x) ∧ execCompress s = .next (s.clearCompress.endWith x)) ∨
    ∃ n c, s.ilen ≠ 0 ∧ s.ilen.toNat ≤ Config.ibufCap ∧ Config.sentinel ∉ s.inputBytes ∧
      (keysOf (freqTable l)).length ≤ Config.maxCount ∧ buildTree (freqTable l) = .ok n ∧ buildCode n = .ok c ∧
      ((s.clearCompress.clearEncoding.setFt (freqTable l)).setReg .n0 (.node n)).live ≤ Config.nodeCap ∧
      (encodeBits c l).length ≤ Config.bitCap ∧ (container c (encodeBits c l)).length ≤ Config.obufCap ∧
      execCompress s = .next ((((((s.clearCompress.clearEncoding.setFt (freqTable l)).setReg .n0 (.node n)).writeCodes
        c).writeBits (encodeBits c l)).writeOut (container c (encodeBits c l))).endWith .ok) := by
  intro l
  unfold execCompress
  rcases s.textOperand_cases with ⟨-, h⟩ | ⟨-, h⟩ | ⟨h0, h1, h⟩
  · exact .inl ⟨_, .inr (.inr (.inl rfl)), by rw [h]; rfl⟩
  · exact .inl ⟨_, .inl rfl, by rw [h]; rfl⟩
  simp only [h]
  by_cases hs : s.inputBytes.contains Config.sentinel = true
  · exact .inl ⟨_, .inr (.inl rfl), by simp only [hs, if_true, State.conclude_error]⟩
  by_cases hk : Config.maxCount < (keysOf (freqTable l)).length
  · exact .inl ⟨_, .inr (.inl rfl), by
      simp only [hs, show Config.maxCount < (keysOf (freqTable (s.inputBytes ++ [Config.sentinel]))).length from hk,
        if_true]
      rfl⟩
  simp only [hs, show ¬ Config.maxCount < (keysOf (freqTable (s.inputBytes ++ [Config.sentinel]))).length from hk, if_false]
  rcases s.clearCompress.encodeStages_cases l with ⟨x, he, -⟩ | ⟨n, c, h2, h3, h4, h5, he⟩
  · exact .inl ⟨x, .inr (.inr (.inr ⟨h1, he⟩)), by rw [show s.inputBytes ++ [Config.sentinel] = l from rfl, he]; rfl⟩
  · rw [show s.inputBytes ++ [Config.sentinel] = l from rfl, he]
    by_cases ho : Config.obufCap < (container c (encodeBits c l)).length
    · exact .inl ⟨_, .inr (.inr (.inl rfl)), by simp only [ho, if_true]; rfl⟩
    · exact .inr ⟨n, c, h0, h1, by simpa using hs, Nat.le_of_not_lt hk, h2, h3, h4, h5, Nat.le_of_not_lt ho,
        by simp only [ho, if_false]; rfl⟩

theorem execDecompress_cases (s : State) :
    (∃ x, (x = .capacityExceeded ∨ parseContainer s.inputBytes = .error x ∨
        ∃ c rest, parseContainer s.inputBytes = .ok (c, rest) ∧
          s.clearDecompress.decodeStages c rest true = .error x) ∧
      execDecompress s = .next (s.clearDecompress.endWith x)) ∨
    ∃ c rest n out, s.ilen.toNat ≤ Config.ibufCap ∧ parseContainer s.inputBytes = .ok (c, rest) ∧
      rest.length ≤ Config.bitCap ∧ treeFromCode c = .ok n ∧ decodeWalk n rest true = .ok out ∧
      (s.clearDecompress.clearDecoding.setReg .n0 (.node n)).live ≤ Config.nodeCap ∧ out.length ≤ Config.obufCap ∧
      execDecompress s = .next (((((s.clearDecompress.clearDecoding.setReg .n0 (.node n)).writeOut out).writeCodes
        c).writeBits rest).endWith .ok) := by
  unfold execDecompress
  by_cases hi : Config.ibufCap < s.ilen.toNat
  · exact .inl ⟨_, .inl rfl, by simp only [hi, if_true, State.conclude_error]⟩
  simp only [hi, if_false]
  cases hp : parseContainer s.inputBytes with
  | error x => exact .inl ⟨x, .inr (.inl rfl), rfl⟩
  | ok p =>
    obtain ⟨c, rest⟩ := p
    by_cases hb : Config.bitCap < rest.length
    · exact .inl ⟨_, .inl rfl, by simp only [hb, if_true, State.conclude_error]⟩
    simp only [hb, if_false]
    rcases s.clearDecompress.decodeStages_cases c rest true with ⟨x, he, -⟩ | ⟨n, out, h2, h3, h4, h5, he⟩
    · exact .inl ⟨x, .inr (.inr ⟨c, rest, rfl, he⟩), by rw [he]; rfl⟩
    · exact .inr ⟨c, rest, n, out, Nat.le_of_not_lt hi, rfl, Nat.le_of_not_lt hb, h2, h3, h4, h5, by rw [he]; rfl⟩

end Sys2Proof.Machine
end

