-- ==== Sys2Proof/Laws/Container.lean ====
section
/-! SUPPORT. The container: its length, and that parsing gives back the table and the content
(spec/46_container_codec.md R140, R145, R151; spec/30_encoding.md R72 to R74). -/

namespace Sys2Proof.Machine

theorem containerHeader_length (es : List (Sym × Code)) : (containerHeader es).length = 3 + 2 * es.length := by
  have : (es.flatMap fun e => [e.1, BitVec.ofNat 8 e.2.length]).length = 2 * es.length := by
    induction es with
    | nil => rfl
    | cons e es ih => simp only [List.flatMap_cons, List.length_append, ih, List.length_cons, List.length_nil]; omega
  simp only [containerHeader, List.length_append, this, List.length_cons, List.length_nil]

/-- The size of a container (spec/30_encoding.md R74). -/
theorem container_length (c : CodeTable) (content : Bits) :
    (container c content).length = 3 + 2 * (entriesOf c).length +
      (((entriesOf c).map fun e => e.2.length).sum + content.length + 7) / 8 := by
  simp only [container, List.length_append, containerHeader_length, pack_length, List.length_flatMap]

/-! ### Parsing what was written -/

/-- The pairs of a header, byte by byte. -/
theorem readPairs_eq (n : Nat) (l : List Byte) (h : 2 * n ≤ l.length) :
    readPairs n l = (List.range n).map fun i => ((l[2*i]?).getD 0, ((l[2*i+1]?).getD 0).toNat) := by
  induction n generalizing l with
  | zero => simp [readPairs]
  | succ n ih =>
    match l with
    | [] => simp at h
    | [_] => simp at h; omega
    | y :: len :: rest =>
      simp only [readPairs]
      rw [ih rest (by simp at h; omega), List.range_succ_eq_map, List.map_cons, List.map_map]
      simp [Function.comp_def, Nat.mul_add]

/-- Reading the header's pairs back. -/
theorem readPairs_header (es : List (Sym × Code)) (hl : ∀ e ∈ es, e.2.length ≤ Config.maxCodeLen) (rest : List Byte) :
    readPairs es.length ((es.flatMap fun e => [e.1, BitVec.ofNat 8 e.2.length]) ++ rest) =
      es.map fun e => (e.1, e.2.length) := by
  induction es with
  | nil => simp [readPairs]
  | cons e es ih =>
    have he := hl e (List.mem_cons_self ..)
    simp only [Config.maxCodeLen] at he
    simp only [List.flatMap_cons, List.cons_append, List.nil_append, List.length_cons, readPairs, List.map_cons,
      ih (fun d hd => hl d (List.mem_cons_of_mem _ hd)), BitVec.toNat_ofNat]
    rw [Nat.mod_eq_of_lt (by omega)]

theorem allDistinct_iff (l : List Sym) : allDistinct l = true ↔ l.Nodup := by
  induction l with
  | nil => simp [allDistinct]
  | cons y l ih => simp [allDistinct, ih]

/-- Slicing the code bits gives every symbol its code back (spec/30_encoding.md R73). -/
theorem codeAt_sliceCodes (es : List (Sym × Code)) (hn : (es.map (·.1)).Nodup) (rest : Bits) (y : Sym) (b : Code) :
    codeAt (sliceCodes (es.map fun e => (e.1, e.2.length)) (es.flatMap (·.2) ++ rest)) y = some b ↔ (y, b) ∈ es := by
  induction es with
  | nil => simp [sliceCodes]
  | cons e es ih =>
    rw [List.map_cons, List.nodup_cons] at hn
    simp only [List.map_cons, List.flatMap_cons, sliceCodes, List.append_assoc, List.take_left', List.drop_left',
      codeAt_put, List.mem_cons]
    by_cases hy : y = e.1
    · subst hy
      rw [if_pos rfl]
      constructor
      · intro h; cases h; exact .inl rfl
      · rintro (h | h)
        · rw [← h]
        · exact absurd (List.mem_map_of_mem (f := (·.1)) h) hn.1
    · rw [if_neg hy, ih hn.2]
      constructor
      · exact .inr
      · rintro (h | h)
        · exact absurd (congrArg Prod.fst h) hy
        · exact h

/-- What slicing gives, whatever the order of the pairs (R73, R145): the bits after those of the pairs before, as many as
listed; and nothing to a symbol that is not listed. -/
theorem codeAt_sliceCodes_getElem {ps : List (Sym × Nat)} (hn : (ps.map (·.1)).Nodup) (stream : Bits) :
    (∀ (i : Nat) (p : Sym × Nat), ps[i]? = some p → codeAt (sliceCodes ps stream) p.1 =
      some ((stream.drop ((ps.map (·.2)).take i).sum).take p.2)) ∧
    ∀ y, y ∉ ps.map (·.1) → codeAt (sliceCodes ps stream) y = none := by
  induction ps generalizing stream with
  | nil => simp [sliceCodes]
  | cons q ps ih =>
    obtain ⟨z, len⟩ := q
    rw [List.map_cons, List.nodup_cons] at hn
    obtain ⟨h1, h2⟩ := ih hn.2 (stream.drop len)
    refine ⟨fun i p hp => ?_, fun y hy => ?_⟩
    · rw [sliceCodes, codeAt_put]
      match i with
      | 0 => simp only [List.getElem?_cons_zero, Option.some.injEq] at hp; subst hp; simp
      | i + 1 =>
        rw [List.getElem?_cons_succ] at hp
        rw [if_neg, h1 i p hp]
        · simp [List.drop_drop]
        · intro he
          exact hn.1 (he ▸ List.mem_map_of_mem (f := (·.1)) (List.mem_of_getElem? hp))
    · simp only [List.map_cons, List.mem_cons, not_or] at hy
      rw [sliceCodes, codeAt_put, if_neg hy.1, h2 y hy.2]

/-- A container parses back to its table and its content, with the padding behind (spec/46_container_codec.md
R151). -/
theorem parseContainer_container {c : CodeTable} (h0 : entriesOf c ≠ []) (h1 : (entriesOf c).length ≤ Config.maxCount)
    (h2 : ∀ y b, codeAt c y = some b → 1 ≤ b.length ∧ b.length ≤ Config.maxCodeLen) (content : Bits) :
    ∃ d k, parseContainer (container c content) = .ok (d, content ++ List.replicate k false) ∧ k < 8 ∧
      ∀ y, codeAt d y = codeAt c y := by
  have hlen : ∀ e ∈ entriesOf c, 1 ≤ e.2.length ∧ e.2.length ≤ Config.maxCodeLen :=
    fun e he => h2 e.1 e.2 ((mem_entriesOf c e.1 e.2).mp he)
  have hnd := entriesOf_nodup c
  have hget := mem_entriesOf c
  unfold container
  generalize entriesOf c = es at *
  have hes : es.length ≠ 0 := fun h => h0 (List.eq_nil_of_length_eq_zero h)
  simp only [Config.maxCount] at h1
  have hn : (BitVec.ofNat 8 es.length).toNat = es.length := by
    rw [BitVec.toNat_ofNat, Nat.mod_eq_of_lt (by omega)]
  have hhl : (es.flatMap fun e => [e.1, BitVec.ofNat 8 e.2.length]).length = 2 * es.length := by
    have := containerHeader_length es
    simp only [containerHeader, List.length_append, List.length_cons, List.length_nil] at this
    omega
  have hbits : (es.flatMap (·.2)).length = (es.map fun e => e.2.length).sum := List.length_flatMap ..
  obtain ⟨k, hk⟩ : ∃ k, k = 8 * (((es.flatMap (·.2) ++ content).length + 7) / 8)
    - (es.flatMap (·.2) ++ content).length := ⟨_, rfl⟩
  have hun : unpack (pack (es.flatMap (·.2) ++ content)) =
      es.flatMap (·.2) ++ (content ++ List.replicate k false) := by
    rw [pack, unpack_packBytes _ _ (by omega), ← hk, List.append_assoc]
  refine ⟨sliceCodes (es.map fun e => (e.1, e.2.length)) (es.flatMap (·.2) ++ (content ++ List.replicate k false)), k,
    ?_, by omega, fun y => ?_⟩
  · simp only [containerHeader, List.cons_append, List.nil_append, parseContainer, ne_eq, not_true_eq_false,
      decide_false, Bool.or_self, Bool.false_eq_true, if_false, hn, parseBody,
      readPairs_header es (fun e he => (hlen e he).2)]
    rw [List.drop_left' hhl, hun, if_neg hes, if_neg (by rw [List.length_append]; omega), if_neg, if_neg, if_neg]
    · simp only [List.map_map, Function.comp_def, ← hbits, List.drop_left']
    · simp only [List.map_map, Function.comp_def, ← hbits, List.length_append]; omega
    · simpa [allDistinct_iff, Function.comp_def] using hnd
    · simp only [List.any_map, List.any_eq_true, Function.comp_def, beq_iff_eq, not_exists, not_and]
      intro e he h
      have := (hlen e he).1
      omega
  · apply Option.ext
    intro b
    rw [codeAt_sliceCodes es hnd, hget]

end Sys2Proof.Machine
end

