-- ==== Sys2Proof/Laws/PerInstr.lean ====
section
/-! SUPPORT. A statement about every command as syntax: the fields its encoder writes are well formed for its format,
carry the opcode of its row, and give its operands back. -/

namespace Sys2Proof.Laws.EncodesWellFormed

open Sys2Proof

/-- The encoder's fields are well formed (R60, R61, R62), and cutting the word into fields gives them back. -/
def Statement (i : Instr) : Prop :=
  (encodeFields i).wellFormed (formatOf i) = true ∧ fieldsOf (encode i) = encodeFields i

/-- Cutting a word put together from fields gives the fields. -/
theorem fieldsOf_wordOf (f : Fields) : fieldsOf (wordOf f) = f := by
  obtain ⟨op, sym, rd, ra, rb, zero⟩ := f
  simp only [fieldsOf, wordOf, Fields.mk.injEq]
  refine ⟨?_, ?_, ?_, ?_, ?_, ?_⟩ <;>
  · apply BitVec.eq_of_getLsbD_eq
    intro k hk
    simp only [BitVec.getLsbD_extractLsb', BitVec.getLsbD_append]
    interval_cases k <;> rfl

/-- A register's number is legal (R62). -/
theorem legal_field (r : NReg) : legalRegister r.field = true := by cases r <;> rfl

theorem clrstat : Statement .clrstat := ⟨rfl, fieldsOf_wordOf _⟩
theorem reset : Statement .reset := ⟨rfl, fieldsOf_wordOf _⟩
theorem pqClear : Statement .pqClear := ⟨rfl, fieldsOf_wordOf _⟩
theorem pqInsert (ra : NReg) : Statement (.pqInsert ra) := ⟨by cases ra <;> rfl, fieldsOf_wordOf _⟩
theorem pqExtractmin (rd : NReg) : Statement (.pqExtractmin rd) := ⟨by cases rd <;> rfl, fieldsOf_wordOf _⟩
theorem pqPeekmin : Statement .pqPeekmin := ⟨rfl, fieldsOf_wordOf _⟩
theorem pqSize : Statement .pqSize := ⟨rfl, fieldsOf_wordOf _⟩
theorem ndLeaf (rd : NReg) (sym : Sym) : Statement (.ndLeaf rd sym) := ⟨by cases rd <;> rfl, fieldsOf_wordOf _⟩
theorem ndBranch (rd ra rb : NReg) : Statement (.ndBranch rd ra rb) :=
  ⟨by cases rd <;> cases ra <;> cases rb <;> rfl, fieldsOf_wordOf _⟩
theorem ndInfo (ra : NReg) : Statement (.ndInfo ra) := ⟨by cases ra <;> rfl, fieldsOf_wordOf _⟩
theorem freq : Statement .freq := ⟨rfl, fieldsOf_wordOf _⟩
theorem buildtree (rd : NReg) : Statement (.buildtree rd) := ⟨by cases rd <;> rfl, fieldsOf_wordOf _⟩
theorem buildcode (ra : NReg) : Statement (.buildcode ra) := ⟨by cases ra <;> rfl, fieldsOf_wordOf _⟩
theorem treefromcode (rd : NReg) : Statement (.treefromcode rd) := ⟨by cases rd <;> rfl, fieldsOf_wordOf _⟩
theorem encode : Statement .encode := ⟨rfl, fieldsOf_wordOf _⟩
theorem decode : Statement .decode := ⟨rfl, fieldsOf_wordOf _⟩
theorem compress : Statement .compress := ⟨rfl, fieldsOf_wordOf _⟩
theorem decompress : Statement .decompress := ⟨rfl, fieldsOf_wordOf _⟩

end Sys2Proof.Laws.EncodesWellFormed
end

