-- ==== Sys2Proof/Laws/Port.lean ====
section
/-! SUPPORT. The host's port: what a command reads of the buffers value by value, and the entries of `CT` as the host
writes and reads them (spec/20_memory.md R42 to R46). -/

namespace Sys2Proof.Machine

variable {α : Type}

/-! ### Buffers, value by value -/

theorem Cells.getElem?_window {hi : Nat} (free : Nat → α) (n j : Nat) {c : Cells α} (h : Cells.rising hi 0 c = true)
    (hj : j < n) : (Cells.window free n 0 c)[j]? = some ((Cells.get c j).getD (free j)) := by
  rw [Cells.window_eq free n h, List.getElem?_map, List.getElem?_range' hj]
  simp

theorem State.inputBytes_getElem? {s : State} (h : Memory.wf s = true) {j : Nat} (hj : j < s.ilen.toNat) :
    s.inputBytes[j]? = some ((Cells.get s.ibuf j).getD (Config.freeInput s.draws j)) :=
  Cells.getElem?_window _ _ _ ((Memory.wf_iff s).mp h).1 hj

theorem State.inputBits_getElem? {s : State} (h : Memory.wf s = true) {j : Nat} (hj : j < s.bitn.toNat) :
    s.inputBits[j]? = some ((Cells.get s.bits j).getD (Config.freeBit s.draws j)) :=
  Cells.getElem?_window _ _ _ ((Memory.wf_iff s).mp h).2.2.1 hj

theorem State.output_getElem? {s : State} (h : Memory.wf s = true) {j : Nat} (hj : j < s.olen.toNat) :
    s.output[j]? = some ((Cells.get s.obuf j).getD (Config.freeOutput s.draws j)) :=
  Cells.getElem?_window _ _ _ ((Memory.wf_iff s).mp h).2.1 hj

/-- Bit `7 - j` of a byte of the `BITS` space is bit `8a + j` of the sequence (R44). -/
theorem State.readBitsByte_getLsbD (s : State) (a j : Nat) (hj : j < 8) :
    (s.readBitsByte a).getLsbD (7 - j) = s.readBit (8 * a + j) := by
  rw [State.readBitsByte, byteOfBits_getLsbD _ _ hj]
  simp [hj]

/-! ### Entries of `CT` -/

@[simp] theorem CtEntry.setWord0_bits (e : CtEntry) (w : Word) : (e.setWord0 w).bits = e.bits := rfl
@[simp] theorem CtEntry.setWord0_len (e : CtEntry) (w : Word) :
    (e.setWord0 w).len = if w.getLsbD 8 then some (w.extractLsb' 0 8) else none := rfl
@[simp] theorem CtEntry.setCodeWord_len (e : CtEntry) (v : Nat) (w : Word) : (e.setCodeWord v w).len = e.len := rfl
@[simp] theorem CtEntry.setCodeWord_takesWord (e : CtEntry) (v : Nat) (w : Word) (u : Nat) :
    (e.setCodeWord v w).takesWord u = e.takesWord u := rfl

/-- The stored bits after a write of a code word, bit by bit. -/
theorem CtEntry.setCodeWord_bits (e : CtEntry) (v : Nat) (w : Word) {j : Nat} (hj : j < Config.maxCodeLen) :
    (e.setCodeWord v w).bits[j]? =
      some (if j / 32 = v ∧ e.takesWord v = true then w.getLsbD (31 - j % 32) else (e.bits[j]?).getD false) := by
  rw [CtEntry.setCodeWord, List.getElem?_map, List.getElem?_range hj]
  simp

/-- A code word beyond the code is ignored (P2-2). -/
theorem CtEntry.setCodeWord_of_not_takes {e : CtEntry} (h : e.wf = true) {v : Nat} (hv : e.takesWord v = false) (w : Word) :
    e.setCodeWord v w = e := by
  have hb : (e.setCodeWord v w).bits = e.bits := by
    apply List.ext_getElem?
    intro j
    have hl := (CtEntry.wf_iff e).mp h
    by_cases hj : j < Config.maxCodeLen
    · rw [CtEntry.setCodeWord_bits e v w hj, hv, List.getElem?_eq_getElem (by omega)]; simp
    · rw [List.getElem?_eq_none (by simp [CtEntry.setCodeWord]; omega), List.getElem?_eq_none (by omega)]
  calc e.setCodeWord v w = ⟨e.len, (e.setCodeWord v w).bits⟩ := rfl
    _ = e := by rw [hb]

/-- The code words from 0 up, written one after the other. -/
def CtEntry.setCodeWords (e : CtEntry) (ws : Nat → Word) (n : Nat) : CtEntry :=
  (List.range n).foldl (fun e v => e.setCodeWord v (ws v)) e

theorem CtEntry.setCodeWords_succ (e : CtEntry) (ws : Nat → Word) (n : Nat) :
    e.setCodeWords ws (n + 1) = (e.setCodeWords ws n).setCodeWord n (ws n) := by
  simp [CtEntry.setCodeWords, List.range_succ]

theorem CtEntry.setCodeWords_len (e : CtEntry) (ws : Nat → Word) (n : Nat) : (e.setCodeWords ws n).len = e.len := by
  induction n with
  | zero => rfl
  | succ n ih => rw [CtEntry.setCodeWords_succ, CtEntry.setCodeWord_len, ih]

theorem CtEntry.setCodeWords_takesWord (e : CtEntry) (ws : Nat → Word) (n v : Nat) :
    (e.setCodeWords ws n).takesWord v = e.takesWord v := by
  simp only [CtEntry.takesWord, CtEntry.inCode, CtEntry.setCodeWords_len]

theorem CtEntry.setCodeWords_bits (e : CtEntry) (ws : Nat → Word) (n : Nat) {j : Nat} (hj : j < Config.maxCodeLen) :
    ((e.setCodeWords ws n).bits[j]?).getD false =
      if j / 32 < n ∧ e.takesWord (j / 32) = true then (ws (j / 32)).getLsbD (31 - j % 32) else (e.bits[j]?).getD false := by
  induction n with
  | zero => simp [CtEntry.setCodeWords]
  | succ n ih =>
    rw [CtEntry.setCodeWords_succ, CtEntry.setCodeWord_bits _ _ _ hj, Option.getD_some,
      CtEntry.setCodeWords_takesWord, ih]
    by_cases hn : j / 32 = n
    · subst hn; simp
    · have : j / 32 < n + 1 ↔ j / 32 < n := by omega
      simp [hn, this]

/-- A code by its bits: `n` of them, each the one stored. -/
theorem take_eq_map_range {b : Bits} {n : Nat} (h : n ≤ b.length) :
    b.take n = (List.range n).map fun j => (b[j]?).getD false := by
  apply List.ext_getElem?
  intro j
  by_cases hj : j < n
  · rw [List.getElem?_take_of_lt hj, List.getElem?_map, List.getElem?_range hj,
      Option.map_some, List.getElem?_eq_getElem (by omega : j < b.length)]
    rfl
  · rw [List.getElem?_eq_none (by simp; omega), List.getElem?_eq_none (by simp; omega)]

theorem State.ctEntry_putEntry (s : State) (k j : Nat) (e : CtEntry) :
    (s.putEntry k e).ctEntry j = if j = k then e else s.ctEntry j := by
  simp only [State.ctEntry, State.putEntry, State.setCt_ct]
  split
  · next h => rw [Cells.get_erase]; split <;> simp [h]
  · rw [Cells.get_put]; split <;> rfl

/-- A host write into the `CT` space while `BUSY` is 0 (R46). -/
theorem State.hostWrite_ct {s : State} (hb : s.status.busy = false) {k w : Nat} (hk : k < 256) (hw : w < 9) (x : Word) :
    s.hostWrite (.ct k w) x =
      s.putEntry k (if w = 0 then (s.ctEntry k).setWord0 x else (s.ctEntry k).setCodeWord (w - 1) x) := by
  simp [State.hostWrite, hb, State.writePlace, hk, hw, State.writeCt]

theorem State.hostWrite_ct_out {s : State} {k w : Nat} (hw : 9 ≤ w) (x : Word) : s.hostWrite (.ct k w) x = s := by
  simp [State.hostWrite, State.writePlace, Nat.not_lt.mpr hw]

/-- The eight code words written one after the other, entry by entry. -/
theorem State.codeWords_ctEntry {s : State} (hb : s.status.busy = false) {k : Nat} (hk : k < 256) (ws : Nat → Word)
    (n : Nat) (hn : n ≤ 8) (j : Nat) :
    let t := (List.range n).foldl (fun t v => t.hostWrite (.ct k (v + 1)) (ws v)) s
    t.status.busy = false ∧ t.ctEntry j = if j = k then (s.ctEntry k).setCodeWords ws n else s.ctEntry j := by
  induction n generalizing j with
  | zero => refine ⟨hb, ?_⟩; split <;> simp_all [CtEntry.setCodeWords]
  | succ n ih =>
    simp only [List.range_succ, List.foldl_append, List.foldl_cons, List.foldl_nil]
    obtain ⟨h1, -⟩ := ih (by omega) j
    rw [State.hostWrite_ct h1 hk (by omega)]
    refine ⟨h1, ?_⟩
    rw [State.ctEntry_putEntry]
    by_cases hj : j = k
    · subst hj
      rw [if_pos rfl, if_pos rfl, if_neg (by omega), (ih (by omega) j).2, if_pos rfl, CtEntry.setCodeWords_succ]
      rfl
    · rw [if_neg hj, if_neg hj, (ih (by omega) j).2, if_neg hj]

theorem CtEntry.code_of_len {e : CtEntry} {n : Byte} (h : e.len = some n) (hw : e.wf = true) :
    e.code = some ((List.range n.toNat).map fun j => (e.bits[j]?).getD false) := by
  have hl : n.toNat ≤ e.bits.length := by
    rw [(CtEntry.wf_iff e).mp hw]; have := n.isLt; simp only [Config.maxCodeLen]; omega
  simp [CtEntry.code, h, take_eq_map_range hl]

/-- Bit `31 - j` of a word of the `CT` space is code bit `32v + j` as the port shows it (R46). -/
theorem CtEntry.codeWord_getLsbD (e : CtEntry) (v j : Nat) (hj : j < 32) :
    (e.codeWord v).getLsbD (31 - j) = e.readBit (32 * v + j) := by
  rw [CtEntry.codeWord, wordOfBits_getLsbD _ (by simp) _ hj]
  simp [hj]

end Sys2Proof.Machine
end

