-- ==== Sys2Proof/Tests/Slice0.lean ====
section
/-! SUPPORT. The model's own tests. Every expected value is the spec's: the test vectors of spec/95_test_vectors.md
(E1, E2, V1 to V40) and the examples of the command rules. At the end, a witness for the hypotheses of every
obligation that has some. -/

namespace Sys2Proof.Tests

open Sys2Proof Sys2Proof.Machine

-- one theorem after the other: many kernel evaluations waiting for each other would take a thread each
set_option Elab.async false

/-! ### Building small states -/

/-- `L(y,f)` of spec/95. -/
def leaf (y f : Nat) : Node := .leaf (BitVec.ofNat 8 y) (BitVec.ofNat 32 f)

/-- `B(f,l,r)` of spec/95. -/
def branch (f : Nat) (l r : Node) : Node := .branch (BitVec.ofNat 32 f) (.node l) (.node r)

/-- A bit sequence written as 0s and 1s. -/
def code (l : List Nat) : Code := l.map fun n => n == 1

/-- The reset state with an input loaded (`HOST.LOAD IBUF`). -/
def loaded (b : List Nat) : State :=
  { State.reset with ibuf := Cells.run 0 (b.map (BitVec.ofNat 8)), ilen := BitVec.ofNat 32 b.length }

/-- The reset state with a queue. -/
def queued (h : List Node) : State := { State.reset with heap := h }

/-- The reset state with `N0` and `N1`. -/
def holding (a b : Slot) : State := { State.reset with regs := ⟨a, b, .absent, .absent⟩ }

/-- The reset state with a code table and a bit sequence. -/
def coded (c : List (Nat × List Nat)) (b : List Nat) : State :=
  { State.reset with ct := c.map fun e => (e.1, CtEntry.ofCode (code e.2))
                     bits := Cells.run 0 (code b)
                     bitn := BitVec.ofNat 32 b.length }

/-- The outcome is a next state of which `p` holds. -/
def nextIs (o : Host.Outcome State Fault Refusal) (p : State → Bool) : Bool :=
  match o with
  | .next t => p t
  | .fault _ | .refused _ => false

/-- The `STATUS` register as the host reads it. -/
def statusIs (n : Nat) (s : State) : Bool := s.status.word == BitVec.ofNat 32 n

/-- "abracadabra" -/
def abra : List Nat := [0x61, 0x62, 0x72, 0x61, 0x63, 0x61, 0x64, 0x61, 0x62, 0x72, 0x61]

/-- The tree of V12. -/
def abraTree : Node :=
  branch 11 (leaf 0x61 5) (branch 6 (leaf 0x62 2) (branch 4 (leaf 0x72 2) (branch 2 (leaf 0x63 1) (leaf 0x64 1))))

/-- The code table of V15. -/
def abraCodes : List (Nat × List Nat) :=
  [(0x61, [0]), (0x62, [1, 0]), (0x63, [1, 1, 1, 0]), (0x64, [1, 1, 1, 1]), (0x72, [1, 1, 0])]

/-- The bits of V14. -/
def abraBits : List Nat := [0, 1, 0, 1, 1, 0, 0, 1, 1, 1, 0, 0, 1, 1, 1, 1, 0, 1, 0, 1, 1, 0, 0]

/-- The code table of V20 and V30. -/
def abCodes : List (Nat × List Nat) := [(0x1F, [1, 0]), (0x41, [0]), (0x42, [1, 1])]

/-- The container of V30. -/
def abContainer : List Nat := [0x68, 0x66, 0x03, 0x1F, 0x02, 0x41, 0x01, 0x42, 0x02, 0x9B, 0x80]

/-! ### Well-formedness: each check refuses an ill-formed term (R60, R61, R62) -/

theorem test_wf_low_bits : Fields.unusedZero .ds ⟨0x20, 0x61, 1, 0, 0, 1⟩ = false := by decide
theorem test_wf_sym : Fields.unusedZero .a ⟨0x32, 1, 0, 0, 0, 0⟩ = false := by decide
theorem test_wf_rd : Fields.unusedZero .a ⟨0x11, 0, 1, 0, 0, 0⟩ = false := by decide
theorem test_wf_ra : Fields.unusedZero .z ⟨0x13, 0, 0, 1, 0, 0⟩ = false := by decide
theorem test_wf_rb : Fields.unusedZero .ds ⟨0x20, 0, 0, 0, 1, 0⟩ = false := by decide
theorem test_wf_register_number : legalRegister 4 = false ∧ legalRegister 3 = true := by decide
theorem test_wf_register_rd : Fields.registersLegal .d ⟨0x12, 0, 4, 0, 0, 0⟩ = false := by decide
theorem test_wf_register_ra : Fields.registersLegal .a ⟨0x11, 0, 0, 4, 0, 0⟩ = false := by decide
theorem test_wf_register_rb : Fields.registersLegal .dab ⟨0x21, 0, 0, 1, 15, 0⟩ = false := by decide
theorem test_wf_whole : Fields.wellFormed .dab ⟨0x21, 0, 2, 0, 4, 0⟩ = false ∧
    Fields.wellFormed .dab ⟨0x21, 0, 2, 0, 1, 0⟩ = true := by decide

/-! ### Decoding: E1 and E2, words written out in bits by the fields `OP SYM RD RA RB 0` -/

theorem test_decode_clrstat : decode 0b00000001_00000000_0000_0000_0000_0000 = .ok .clrstat := by decide
theorem test_decode_reset : decode 0b00000010_00000000_0000_0000_0000_0000 = .ok .reset := by decide
theorem test_decode_pqClear : decode 0b00010000_00000000_0000_0000_0000_0000 = .ok .pqClear := by decide
theorem test_decode_pqInsert : decode 0b00010001_00000000_0000_0010_0000_0000 = .ok (.pqInsert .n2) := by decide
theorem test_decode_pqExtractmin : decode 0b00010010_00000000_0011_0000_0000_0000 = .ok (.pqExtractmin .n3) := by decide
theorem test_decode_pqPeekmin : decode 0b00010011_00000000_0000_0000_0000_0000 = .ok .pqPeekmin := by decide
theorem test_decode_pqSize : decode 0b00010100_00000000_0000_0000_0000_0000 = .ok .pqSize := by decide
theorem test_decode_ndLeaf : decode 0b00100000_01100001_0001_0000_0000_0000 = .ok (.ndLeaf .n1 0x61) := by decide
theorem test_decode_ndBranch : decode 0b00100001_00000000_0011_0010_0001_0000 = .ok (.ndBranch .n3 .n2 .n1) := by decide
theorem test_decode_ndInfo : decode 0b00100010_00000000_0000_0010_0000_0000 = .ok (.ndInfo .n2) := by decide
theorem test_decode_freq : decode 0b00110000_00000000_0000_0000_0000_0000 = .ok .freq := by decide
theorem test_decode_buildtree : decode 0b00110001_00000000_0001_0000_0000_0000 = .ok (.buildtree .n1) := by decide
theorem test_decode_buildcode : decode 0b00110010_00000000_0000_0011_0000_0000 = .ok (.buildcode .n3) := by decide
theorem test_decode_treefromcode : decode 0b00110011_00000000_0000_0000_0000_0000 = .ok (.treefromcode .n0) := by decide
theorem test_decode_encode : decode 0b01000000_00000000_0000_0000_0000_0000 = .ok .encode := by decide
theorem test_decode_decode : decode 0b01000001_00000000_0000_0000_0000_0000 = .ok .decode := by decide
theorem test_decode_compress : decode 0b01000010_00000000_0000_0000_0000_0000 = .ok .compress := by decide
theorem test_decode_decompress : decode 0b01000011_00000000_0000_0000_0000_0000 = .ok .decompress := by decide

/-- E2: every word of the table is illegal. -/
theorem test_decode_illegal_words :
    [0x00000000, 0xFFFFFFFF, 0x03000000, 0x11000400, 0x12004000, 0x10000001, 0x13000100, 0x20611001, 0x2000F000,
      0x21002011, 0x32010000].all (fun w => match decode (BitVec.ofNat 32 w) with | .ok _ => false | .error _ => true)
      = true := by decide

theorem test_decodeTableWord : decodeTableWord 32 0x20FF3000 = some (.ndLeaf .n3 0xFF) ∧
    decodeTableWord 32 0x11000400 = none := by decide

/-! ### One step of each command -/

/-- R153: after a `FormatMismatch`, `CLRSTAT` gives `STATUS = 0x00`. -/
theorem test_clrstat : nextIs (exec .clrstat { State.reset with status := ⟨.formatMismatch, true, false⟩ })
    (statusIs 0) = true := by decide

/-- R154: `NVALID = 0`, `PQN = 0`, `STATUS = 0`. -/
theorem test_reset : nextIs (exec .reset { queued [leaf 0x62 2] with regs := ⟨.node abraTree, .absent, .absent, .absent⟩ })
    (fun t => t.regs.validWord == 0 && t.heap == [] && statusIs 0 t) = true := by decide +kernel

/-- R83, V7. -/
theorem test_pqClear : nextIs (exec .pqClear (queued [leaf 0x62 2, leaf 0x61 5])) (fun t => t.heap == [] && statusIs 0 t)
    = true := by decide +kernel

/-- R85: the register is left absent, and the Node rises past a heavier parent and stops under a root of its own frequency
(R84): slots 1 and 4 change, 2 and 3 stay, though 3 is out of frequency order. -/
theorem test_pqInsert_rises : nextIs (exec (.pqInsert .n1) { holding .absent (.node (leaf 0x62 2)) with
      heap := [leaf 0x61 2, leaf 0x63 5, leaf 0x64 4, leaf 0x65 7] })
    (fun t => t.heap == [leaf 0x61 2, leaf 0x62 2, leaf 0x64 4, leaf 0x65 7, leaf 0x63 5] && t.reg .n1 == .absent
      && statusIs 0 t) = true := by decide +kernel

/-- V5: an absent register. -/
theorem test_pqInsert_absent : nextIs (exec (.pqInsert .n2) State.reset) (statusIs 0x18) = true := by decide +kernel

/-- V2, step 1: the displaced root goes down to the left, tied children leaving the left one. -/
theorem test_pqExtractmin_order : nextIs
    (exec (.pqExtractmin .n1) (queued [leaf 0x63 1, leaf 0x64 1, leaf 0x62 2, leaf 0x61 5, leaf 0x72 2]))
    (fun t => t.reg .n1 == .node (leaf 0x63 1) && t.heap == [leaf 0x64 1, leaf 0x72 2, leaf 0x62 2, leaf 0x61 5]
      && t.res == ⟨.leaf, 0x63, 1, 0⟩) = true := by decide +kernel

/-- V2, step 6: the empty queue clears the register and zeroes `RES`. -/
theorem test_pqExtractmin_empty : nextIs
    (exec (.pqExtractmin .n0) { holding (.node (leaf 0x61 5)) .absent with res := ⟨.leaf, 0x61, 5, 7⟩ })
    (fun t => t.reg .n0 == .absent && t.res == ⟨.noNode, 0, 0, 7⟩ && statusIs 5 t) = true := by decide +kernel

/-- V4: `PQ.PEEKMIN` reports the root and leaves the heap. -/
theorem test_pqPeekmin : nextIs (exec .pqPeekmin (queued [leaf 0x42 1, leaf 0x41 3]))
    (fun t => t.res == ⟨.leaf, 0x42, 1, 0⟩ && t.heap == [leaf 0x42 1, leaf 0x41 3]) = true := by decide +kernel

/-- R89: `RES.COUNT = 2`, the rest of `RES` kept. -/
theorem test_pqSize : nextIs (exec .pqSize { queued [leaf 0x62 2, leaf 0x61 5] with res := ⟨.leaf, 0x62, 2, 9⟩ })
    (fun t => t.res == ⟨.leaf, 0x62, 2, 2⟩) = true := by decide +kernel

/-- R96. -/
theorem test_ndLeaf : nextIs (exec (.ndLeaf .n1 0x61) { State.reset with arg := 5 })
    (fun t => t.reg .n1 == .node (leaf 0x61 5) && statusIs 0 t) = true := by decide +kernel

/-- V8: the destination equal to the left source. -/
theorem test_ndBranch_into_source : nextIs
    (exec (.ndBranch .n0 .n0 .n1) (holding (.node (leaf 0x63 1)) (.node (leaf 0x64 1))))
    (fun t => t.reg .n0 == .node (branch 2 (leaf 0x63 1) (leaf 0x64 1)) && t.reg .n1 == .absent) = true := by
  decide +kernel

/-- V9: a sum of `2^32`; the sources keep their Nodes. -/
theorem test_ndBranch_overflow : nextIs
    (exec (.ndBranch .n2 .n0 .n1) (holding (.node (leaf 1 0xFFFFFFFF)) (.node (leaf 2 1))))
    (fun t => statusIs 0x17 t && t.reg .n0 == .node (leaf 1 0xFFFFFFFF) && t.reg .n1 == .node (leaf 2 1)
      && t.reg .n2 == .absent) = true := by decide +kernel

/-- V8: `ND.INFO` of a Branch. -/
theorem test_ndInfo_branch : nextIs (exec (.ndInfo .n0) (holding (.node (branch 2 (leaf 0x63 1) (leaf 0x64 1))) .absent))
    (fun t => t.res == ⟨.branch, 0, 2, 0⟩ && statusIs 0 t) = true := by decide +kernel

/-- V8: `ND.INFO` of an absent register. -/
theorem test_ndInfo_absent : nextIs (exec (.ndInfo .n1) { State.reset with res := ⟨.branch, 0, 2, 1⟩ })
    (fun t => t.res == ⟨.noNode, 0, 0, 1⟩ && statusIs 0 t) = true := by decide +kernel

/-- V10. -/
theorem test_freq : nextIs (exec .freq (loaded abra))
    (fun t => t.ft == [(0x61, 5), (0x62, 2), (0x63, 1), (0x64, 1), (0x72, 2)] && statusIs 0 t) = true := by
  decide +kernel

/-- V11: the empty input clears the table. -/
theorem test_freq_empty : nextIs (exec .freq { State.reset with ft := [(0x61, 5)] })
    (fun t => t.ft == [] && statusIs 1 t) = true := by decide +kernel

/-- V12. -/
theorem test_buildtree : nextIs
    (exec (.buildtree .n0) { queued [leaf 0x7A 9] with ft := [(0x61, 5), (0x62, 2), (0x63, 1), (0x64, 1), (0x72, 2)] })
    (fun t => t.reg .n0 == .node abraTree && t.heap == [] && statusIs 0 t) = true := by decide +kernel

/-- V13: one symbol gives a single Leaf. -/
theorem test_buildtree_single : nextIs (exec (.buildtree .n2) { State.reset with ft := [(0x61, 5)] })
    (fun t => t.reg .n2 == .node (leaf 0x61 5)) = true := by decide +kernel

/-- V15: the codes, and how the `CT` space shows entry 0x63. -/
theorem test_buildcode : nextIs (exec (.buildcode .n0) (holding (.node abraTree) .absent))
    (fun t => t.ct == (coded abraCodes []).ct && t.hostRead (.ct 0x63 0) == 0x104 && t.hostRead (.ct 0x63 1) == 0xE0000000
      && t.hostRead (.ct 0x63 8) == 0) = true := by decide +kernel

/-- V17: two Leaves with one symbol. -/
theorem test_buildcode_duplicate : nextIs
    (exec (.buildcode .n0) (holding (.node (branch 2 (leaf 0x61 1) (leaf 0x61 1))) .absent))
    (fun t => t.ct == [] && statusIs 0x18 t) = true := by decide +kernel

/-- V20. -/
theorem test_treefromcode : nextIs (exec (.treefromcode .n0) (coded abCodes []))
    (fun t => t.reg .n0 == .node (branch 0 (leaf 0x41 0) (branch 0 (leaf 0x1F 0) (leaf 0x42 0)))) = true := by
  decide +kernel

/-- V23: a code that ends on a Branch. -/
theorem test_treefromcode_not_prefix_free : nextIs
    (exec (.treefromcode .n0) { coded [(0x78, [0, 1]), (0x79, [0])] [] with regs := ⟨.node abraTree, .absent, .absent, .absent⟩ })
    (fun t => t.reg .n0 == .absent && statusIs 0x14 t) = true := by decide +kernel

/-- V14. -/
theorem test_encode : nextIs (exec .encode (loaded abra))
    (fun t => t.inputBits == code abraBits && t.bitn == 23 && t.ct == (coded abraCodes []).ct
      && t.reg .n0 == .node abraTree && t.hostRead (.bits 0) == 0x59 && t.hostRead (.bits 1) == 0xCF) = true := by
  decide +kernel

/-- V18: one symbol gives no bits, with success. -/
theorem test_encode_single_symbol : nextIs (exec .encode (loaded [0x61, 0x61, 0x61, 0x61, 0x61]))
    (fun t => t.bitn == 0 && t.ctEntry 0x61 == CtEntry.ofCode [] && statusIs 0 t) = true := by decide +kernel

/-- V26. -/
theorem test_decode_text : nextIs (exec .decode (coded abraCodes abraBits))
    (fun t => t.output == abra.map (BitVec.ofNat 8) && t.olen == 11 && statusIs 0 t) = true := by decide +kernel

/-- V28: a move to an absent child. -/
theorem test_decode_absent_child : nextIs (exec .decode (coded [(0x78, [0]), (0x79, [1, 1])] [0, 1, 0]))
    (fun t => t.reg .n0 == .absent && t.olen == 0 && statusIs 0x13 t) = true := by decide +kernel

/-- V30. -/
theorem test_compress : nextIs (exec .compress (loaded [0x41, 0x42]))
    (fun t => t.output == abContainer.map (BitVec.ofNat 8) && t.olen == 11 && t.bitn == 5 && statusIs 0 t) = true := by
  decide +kernel

/-- V34: the sentinel in the text. -/
theorem test_compress_sentinel : nextIs (exec .compress (loaded [0x61, 0x1F, 0x62]))
    (fun t => t.ft == [] && t.ct == [] && t.olen == 0 && statusIs 0x16 t) = true := by decide +kernel

/-- V36, and V36a, whose header lists `0x42`, `0x1F`, `0x41`: its code bits are cut in that order (R73). -/
theorem test_decompress :
    ([abContainer, [0x68, 0x66, 0x03, 0x42, 0x02, 0x1F, 0x02, 0x41, 0x01, 0xE3, 0x80]].all fun b =>
      nextIs (exec .decompress (loaded b)) fun t =>
        t.output == [0x41, 0x42] && t.olen == 2 && t.bitn == 11 && t.ct == (coded abCodes []).ct && statusIs 0 t
          && t.reg .n0 == .node (branch 0 (leaf 0x41 0) (branch 0 (leaf 0x1F 0) (leaf 0x42 0)))) = true := by decide +kernel

/-- V39: the content ends before the sentinel. -/
theorem test_decompress_no_sentinel : nextIs
    (exec .decompress (loaded [0x68, 0x66, 0x03, 0x1F, 0x02, 0x41, 0x01, 0x42, 0x02, 0x9B]))
    (fun t => t.ct == [] && t.olen == 0 && statusIs 0x13 t) = true := by decide +kernel

/-! ### Steps -/

/-- A command placed by `withFetchWord` runs as the first step after reset (R179: `DECOMPRESS` there gives
`FormatMismatch`). -/
theorem test_step_runs_word : nextIs (step (State.reset.withFetchWord 32 0x43000000)) (statusIs 0x12) = true := by
  decide +kernel

/-- E2: an illegal word is a step like any other and leaves `STATUS = 0x18`. -/
theorem test_step_illegal : nextIs (step (State.reset.withFetchWord 32 0)) (statusIs 0x18) = true := by decide +kernel

/-- R37, R41: a host write of `ARG`, then a host read of it. -/
theorem test_step_host_access : nextIs (step { State.reset with host := [.write (.reg 2) 5] }) (fun t => t.arg == 5)
    = true ∧ nextIs (step { State.reset with host := [.read (.reg 2)], arg := 5 }) (fun t => t.port == 5) = true := by
  decide +kernel

/-- R46: a host write of word 0 with bit 8 = 0 makes the entry absent, and it reads as 0. -/
theorem test_host_clears_entry : (((coded abCodes []).hostWrite (.ct 0x42 0) 0).codeOf 0x42).isNone = true ∧
    ((coded abCodes []).hostWrite (.ct 0x42 0) 0).hostRead (.ct 0x42 1) = 0 := by decide +kernel

/-- R46: a write of a word the code reaches stores all its bits, so a longer word 0 afterwards shows them; an absent entry
stores the bits too. -/
theorem test_host_writes_codes :
    ((((coded abCodes []).hostWrite (.ct 0x42 1) 0xFFFFFFFF).hostWrite (.ct 0x42 0) 0x104).codeOf 0x42) = some (code [1, 1, 1, 1])
      ∧ (((State.reset.hostWrite (.ct 0x42 1) 0xA0000000).hostWrite (.ct 0x42 0) 0x103).codeOf 0x42) = some (code [1, 0, 1]) := by
  decide +kernel

/-- P2-2: a write of a word beyond the code is ignored. -/
theorem test_host_word_beyond_code : (coded abCodes []).hostWrite (.ct 0x42 2) 0xFFFFFFFF = coded abCodes [] := by
  decide +kernel

/-! ### Witnesses: states and operands that meet the hypotheses of the obligations, clause by clause -/

/-- A complete tree of depth `d`. -/
def fullTree : Nat → Node
  | 0 => leaf 0 0
  | d + 1 => branch 0 (fullTree d) (fullTree d)

theorem fullTree_size (d : Nat) : (fullTree d).size + 1 = 2 ^ (d + 1) := by
  induction d with
  | zero => rfl
  | succ d ih => simp only [fullTree, branch, Node.size_branch, Slot.size_node, pow_succ] at ih ⊢; omega

/-- A tree of one Leaf at depth `d`. -/
def chain : Nat → Node
  | 0 => leaf 0x61 0
  | d + 1 => .branch 0 .absent (.node (chain d))

/-- A state past the node limit: two trees of `2^20 - 1` Nodes. -/
def crowded : State := holding (.node (fullTree 19)) (.node (fullTree 19))

/-- The queue of `crowded` is empty and each of the two trees fills the limit all but one Node. -/
theorem crowded_live (r : NReg) (v : Slot) : r ≠ .n0 → r ≠ .n1 → Config.nodeCap < (crowded.regs.set r v).live := by
  have h := fullTree_size 19
  intro h0 h1
  cases r <;> simp_all [crowded, holding, NodeRegs.live, NodeRegs.set, Config.nodeCap, State.reset] <;> omega

/-- A queue of 256 Leaves. -/
def fullQueue : List Node := List.replicate 256 (leaf 0x61 1)

theorem witness_EncodeOfDecodedWordIsTheWord : decode 0x21003210 = .ok (.ndBranch .n3 .n2 .n1) := by decide

theorem witness_StepRunsTheDecodedCommand : ∃ (s : State) (w : Word) (rest : List Move) (i : Instr),
    s.host = .write (.reg 0) w :: rest ∧ s.status.busy = false ∧ decode w = .ok i :=
  ⟨{ State.reset with host := [.write (.reg 0) 0x14000000, .read (.reg 9)] }, 0x14000000, _, .pqSize, rfl, rfl,
    by decide⟩

theorem witness_IllegalWordChangesOnlyStatus : ∃ (s : State) (w : Word) (rest : List Move) (x : Illegal),
    s.host = .write (.reg 0) w :: rest ∧ s.status.busy = false ∧ decode w = .error x :=
  ⟨{ State.reset with host := [.write (.reg 0) 0x11000400] }, 0x11000400, [], .registerAbove3, rfl, rfl, by decide⟩

theorem witness_HostReadChangesNothing : ∃ (s : State) (loc : Loc) (rest : List Move), s.host = .read loc :: rest :=
  ⟨{ State.reset with host := [.read (.ct 255 8)] }, _, _, rfl⟩

theorem witness_HardResetAndIdleSteps :
    (∃ (s : State) (rest : List Move), s.host = .hardReset :: rest ∧ s ≠ State.reset) ∧ ∃ s : State, s.host = [] :=
  ⟨⟨{ loaded abra with host := [.hardReset, .read (.reg 1)] }, _, rfl, by decide⟩, State.reset, rfl⟩

theorem witness_ControlRegistersReadAsLaidOut : ∃ (s : State) (r : Nat),
    s.status.busy = false ∧ s.status.fatal = true ∧ r = 11 ∧ 10 < r :=
  ⟨{ State.reset with status := ⟨.illegalOperation, true, false⟩ }, 11, by decide⟩

theorem witness_ControlRegisterWrites :
    (∃ (s : State) (loc : Loc) (x : Word) (rest : List Move), s.host = .write loc x :: rest ∧ loc ≠ .reg 0) ∧
    (∃ (s : State) (x : Word) (rest : List Move), s.host = .write (.reg 0) x :: rest ∧ s.status.busy = true) ∧
    ∃ s : State, s.status.busy = false ∧
      [1, 4, 6, 7, 8, 9, 10, 11].all (fun r => r != 0 && r != 2 && r != 3 && r != 5) = true :=
  ⟨⟨{ State.reset with host := [.write (.ibuf 65535) 5] }, _, _, _, rfl, by decide⟩,
    ⟨{ State.reset with host := [.write (.reg 0) 0x14000000], status := ⟨.ok, false, true⟩ }, _, _, rfl, rfl⟩,
    State.reset, by decide⟩

theorem witness_InputBufferReadAfterWrite :
    (∃ (s u : State) (a b : Nat) (x : Word), s.status.busy = false ∧ a < Config.ibufCap ∧ a + 1 = Config.ibufCap ∧
      b ≠ a ∧ Memory.wf s = true ∧ u.ibuf = (s.hostWrite (.ibuf a) x).ibuf ∧ a < u.ilen.toNat) ∧
    (∃ (s : State) (a : Nat), s.status.busy = false ∧ Config.ibufCap ≤ a ∧ a = Config.ibufCap) ∧
    ∃ (s : State) (b : Nat), s.status.busy = false ∧ Memory.wf s = true ∧ b < s.ilen.toNat ∧ b < Config.ibufCap ∧
      b + 1 = Config.ibufCap :=
  ⟨⟨State.reset, { State.reset.hostWrite (.ibuf 65535) 0x141 with ilen := 65536 }, 65535, 65534, 0x141, by decide +kernel⟩,
    ⟨State.reset, 65536, by decide⟩, { loaded [0x61] with ilen := 65536 }, 65535, by decide +kernel⟩

theorem witness_BitBufferWriteIsMsbFirst :
    (∃ (s u : State) (a k : Nat) (x : Word), s.status.busy = false ∧ a < Config.bitCap / 8 ∧ Memory.wf s = true ∧
      u.bits = (s.hostWrite (.bits a) x).bits ∧ k / 8 = a ∧ k < u.bitn.toNat ∧ k + 1 = Config.bitCap) ∧
    (∃ (s : State) (a k : Nat), s.status.busy = false ∧ a < Config.bitCap / 8 ∧ k / 8 ≠ a) ∧
    ∃ (s : State) (k : Nat), s.status.busy = false ∧ Memory.wf s = true ∧ k < s.bitn.toNat ∧ k < Config.bitCap ∧
      k + 1 = Config.bitCap :=
  ⟨⟨State.reset, { State.reset.hostWrite (.bits 65535) 0x141 with bitn := 524288 }, 65535, 524287, 0x141,
      by decide +kernel⟩,
    ⟨State.reset, 65535, 524279, by decide⟩, { coded abCodes [0, 1] with bitn := 524288 }, 524287, by decide +kernel⟩

theorem witness_CodeTableEntryWrites :
    (∃ (s : State) (x y : Word), Memory.wf s = true ∧ s.status.busy = false ∧
      0xFF < 256 ∧ x.getLsbD 8 = true ∧ y.getLsbD 8 = false ∧ s.codeOf 0xFF = none ∧ 254 ≠ 255 ∧ 254 < 255) ∧
    (∃ s : State, Memory.wf s = true ∧ s.status.busy = false ∧ s.codeOf 0x42 ≠ none ∧
      ((s.codeOf 0x42).getD []).length = 32 * 1) ∧
    ∃ s : State, Memory.wf s = true ∧ s.status.busy = false ∧ s.codeOf 0x42 ≠ none ∧
      ((s.codeOf 0x42).getD []).length = 32 * 1 + 1 :=
  ⟨⟨coded abCodes [0, 1], 0x1FF, 0xFF, by decide +kernel⟩,
    ⟨coded [(0x42, List.replicate 32 1)] [], by decide +kernel⟩, coded [(0x42, List.replicate 33 1)] [], by decide +kernel⟩

theorem witness_ReadOnlySpacesIgnoreWrites :
    (∃ (s : State) (a : Nat), s.status.busy = false ∧ Memory.wf s = true ∧ a < s.olen.toNat ∧ a < Config.obufCap ∧
      a + 1 = s.olen.toNat) ∧
    Config.bitCap / 8 ≤ 65536 ∧ (256 ≤ 256 ∨ 9 ≤ 0) ∧ (256 ≤ 255 ∨ 9 ≤ 9) :=
  ⟨⟨{ State.reset with obuf := Cells.run 0 [0x41, 0x42], olen := 2 }, 1, by decide +kernel⟩, by decide⟩

theorem witness_ClrstatClearsOnlyStatus : ∃ (i : Instr) (s : State), i ≠ .clrstat ∧ i ≠ .reset ∧ s.status.fatal = true ∧
    nextIs (exec i s) (fun t => t.status.code == .ok) = true :=
  ⟨.pqSize, { State.reset with status := ⟨.formatMismatch, true, false⟩ }, by decide⟩

theorem witness_QueueClearAndSize : ∃ s : State, s.status.busy = false ∧ s.heap.length = 2 :=
  ⟨queued [leaf 0x62 2, leaf 0x61 5], rfl, rfl⟩

/-- A reset state with a command pending meets the invariant, and its step gives a next state. -/
theorem witness_EveryStepKeepsInvariant : ∃ s t : State, s.Inv ∧ step s = .next t ∧ t ≠ s :=
  ⟨State.reset.withFetchWord 32 0x20FF3000, _,
    ⟨by decide +kernel, by decide +kernel, fun i hi => absurd hi (Nat.not_lt_zero i), by decide +kernel,
      by simp [State.withFetchWord, placeWord, State.reset], fun r => by cases r <;> rfl, by decide +kernel,
      by decide +kernel, by decide +kernel, by decide +kernel, rfl⟩, rfl, by decide +kernel⟩

theorem witness_FatalFlagIsSticky : (∃ t, exec .clrstat State.reset = .next t) ∧ (∃ t, exec .reset State.reset = .next t) ∧
    ∃ t, exec (.pqInsert .n0) State.reset = .next t ∧ (Instr.pqInsert .n0) ≠ .clrstat ∧ (Instr.pqInsert .n0) ≠ .reset :=
  ⟨⟨_, rfl⟩, ⟨_, rfl⟩, _, rfl, by decide, by decide⟩

theorem witness_FailedCommandsLeaveDestinationsCleared :
    nextIs (exec .compress (loaded [0x61, 0x1F, 0x62])) (fun t => t.status.code != .ok) = true := by decide +kernel

theorem witness_CommandsRaiseOnlyTheirCodes :
    nextIs (exec .decode State.reset) (fun t => t.status.code != .ok) = true ∧
    nextIs (exec .pqClear State.reset) (fun t => t.status.code == .ok) = true := by decide +kernel

theorem witness_RegistersAndQueueFrame : (∃ t, exec (.ndBranch .n2 .n0 .n1) State.reset = .next t) ∧
    writesReg (.ndBranch .n2 .n0 .n1) .n3 = false ∧ writesQueue (.ndBranch .n2 .n0 .n1) = false ∧
    writesReport (.ndBranch .n2 .n0 .n1) = false ∧ Instr.ndBranch .n2 .n0 .n1 ≠ .pqSize ∧
    Instr.ndBranch .n2 .n0 .n1 ≠ .reset := ⟨⟨_, rfl⟩, by decide⟩

theorem witness_TablesAndBuffersFrame : (∃ t, exec (.pqInsert .n0) State.reset = .next t) ∧
    Instr.pqInsert .n0 ≠ .reset ∧ writesOut (.pqInsert .n0) = false ∧
    writesBits (.pqInsert .n0) = false ∧ writesFt (.pqInsert .n0) = false ∧ writesCt (.pqInsert .n0) = false :=
  ⟨⟨_, rfl⟩, by decide⟩

theorem witness_QueueInsertMovesTheNode :
    (∃ (s : State) (n : Node), s.reg .n1 = .node n ∧ s.heap.length < Config.pqCap ∧ heapOrdered s.heap) ∧
    (∃ (s : State) (n : Node), s.reg .n1 = .node n ∧ s.heap.length + 1 = Config.pqCap) ∧
    (∃ s : State, s.reg .n1 = .absent) ∧ ∃ s : State, s.reg .n1 ≠ .absent ∧ Config.pqCap ≤ s.heap.length :=
  ⟨⟨holding .absent (.node (leaf 1 2)), leaf 1 2, rfl, by decide, fun i hi => absurd hi (Nat.not_lt_zero i)⟩,
    ⟨{ holding .absent (.node (leaf 1 2)) with heap := List.replicate 255 (leaf 0x61 1) }, leaf 1 2, rfl, by decide +kernel⟩,
    ⟨State.reset, rfl⟩,
    ⟨{ holding .absent (.node (leaf 1 2)) with heap := fullQueue }, by decide, by decide +kernel⟩⟩

theorem witness_QueueExtractTakesTheMinimum :
    (∃ s : State, s.heap ≠ [] ∧ heapOrdered s.heap ∧ s.heap.length = 3) ∧ ∃ s : State, s.heap = [] :=
  ⟨⟨queued [leaf 0x63 1, leaf 0x61 5, leaf 0x62 2], by decide +kernel⟩, State.reset, rfl⟩

theorem witness_QueuePeekReportsTheRoot : (∃ (s : State) (m : Node) (h : List Node), s.heap = m :: h) ∧
    ∃ s : State, s.heap = [] := ⟨⟨queued [leaf 0x42 1, leaf 0x41 3], _, _, rfl⟩, State.reset, rfl⟩

theorem witness_DrainingTheQueueIsSorted : heapOrdered [leaf 0x42 1, leaf 0x44 1, leaf 0x47 2, leaf 0x41 3] := by
  decide +kernel

theorem witness_EqualFrequenciesComeOutXZY :
    ((leaf 0x58 1).freq = (leaf 0x59 1).freq ∧ (leaf 0x59 1).freq = (leaf 0x5A 1).freq) ∧
    ((leaf 0x58 1).freq = (leaf 0x59 1).freq ∧ (leaf 0x59 1).freq.toNat < (leaf 0x5A 2).freq.toNat) ∧
    (∃ h : List Node, h.length = 3 ∧ keyAt h 1 < keyAt h 0 ∧ keyAt h 1 = keyAt h 2) ∧
    (∃ h : List Node, h.length = 2 ∧ keyAt h 1 < keyAt h 0) ∧
    (∃ h : List Node, h.length = 3 ∧ keyAt h 2 < keyAt h 0 ∧ keyAt h 2 < keyAt h 1) ∧
    ∃ h : List Node, h.length = 3 ∧ keyAt h 0 = keyAt h 1 ∧ keyAt h 0 = keyAt h 2 :=
  ⟨by decide, by decide, ⟨[leaf 0x58 2, leaf 0x59 1, leaf 0x5A 1], by decide⟩, ⟨[leaf 0x58 2, leaf 0x59 1], by decide⟩,
    ⟨[leaf 0x58 3, leaf 0x59 2, leaf 0x5A 1], by decide⟩, [leaf 0x58 1, leaf 0x59 1, leaf 0x5A 1], by decide⟩

theorem witness_LeafTakesSymbolAndArg :
    ({ State.reset with regs := State.reset.regs.set .n3 (.node (.leaf 0x61 State.reset.arg)) } : State).live
      ≤ Config.nodeCap ∧
    Config.nodeCap < ({ crowded with regs := crowded.regs.set .n3 (.node (.leaf 0x61 crowded.arg)) } : State).live := by
  refine ⟨by decide, ?_⟩
  have := crowded_live .n3 (.node (.leaf 0x61 crowded.arg)) (by decide) (by decide)
  simpa [State.live, crowded, holding, State.reset] using this

/-- The state `ND.BRANCH N2, N0, N1` leaves when it makes the Branch `n`. -/
def joined (s : State) (n : Node) : State :=
  { s with regs := ((s.regs.set .n0 .absent).set .n1 .absent).set .n2 (.node n) }

theorem witness_BranchJoinsTwoNodes :
    (∃ s : State, s.reg .n0 = .absent) ∧ (∃ s : State, s.reg .n1 = .absent) ∧
    (∃ (s : State) (a b : Node), s.reg .n0 = .node a ∧ s.reg .n1 = .node b ∧ 2 ^ 32 = a.freq.toNat + b.freq.toNat) ∧
    (∃ (s : State) (a b : Node), s.reg .n0 = .node a ∧ s.reg .n1 = .node b ∧
      a.freq.toNat + b.freq.toNat = 2 ^ 32 - 1 ∧ (joined s (.branch 0xFFFFFFFF (.node a) (.node b))).live ≤ Config.nodeCap) ∧
    ∃ (s : State) (a b : Node), s.reg .n0 = .node a ∧ s.reg .n1 = .node b ∧ a.freq.toNat + b.freq.toNat < 2 ^ 32 ∧
      Config.nodeCap < (joined s (.branch 0 (.node a) (.node b))).live := by
  refine ⟨⟨State.reset, rfl⟩, ⟨State.reset, rfl⟩, ⟨holding (.node (leaf 1 0xFFFFFFFF)) (.node (leaf 2 1)), _, _, rfl, rfl, by decide⟩,
    ⟨holding (.node (leaf 1 0xFFFFFFFE)) (.node (leaf 2 1)), _, _, rfl, rfl, by decide, by decide⟩,
    crowded, fullTree 19, fullTree 19, rfl, rfl, by decide, ?_⟩
  have h := fullTree_size 19
  simp [joined, crowded, holding, State.live, NodeRegs.live, NodeRegs.set, Config.nodeCap, State.reset]
  omega

theorem witness_InfoReportsARegister : (∃ s : State, s.reg .n1 = .absent) ∧ ∃ (s : State) (n : Node), s.reg .n1 = .node n :=
  ⟨⟨State.reset, rfl⟩, holding .absent (.node abraTree), abraTree, rfl⟩

theorem witness_FreqCountsTheInput :
    (∃ s : State, s.ilen ≠ 0 ∧ s.ilen.toNat ≤ Config.ibufCap ∧ s.ilen = 1) ∧
    (∃ s : State, s.ilen ≠ 0 ∧ s.ilen.toNat = Config.ibufCap) ∧
    (∃ s : State, s.ilen.toNat = Config.ibufCap + 1) ∧ ∃ s : State, s.ilen = 0 :=
  ⟨⟨loaded [0x61], by decide⟩, ⟨{ State.reset with ilen := 65536 }, by decide⟩,
    ⟨{ State.reset with ilen := 65537 }, by decide⟩, State.reset, rfl⟩

theorem witness_BuiltTreeProperties :
    (∃ (h h1 h2 : List Node) (a b : Node), pqExtract h = some (a, h1) ∧ pqExtract h1 = some (b, h2) ∧
      a.freq.toNat + b.freq.toNat = 2 ^ 32 - 1 ∧ heapOrdered h) ∧
    (∃ (h h1 h2 : List Node) (a b : Node), pqExtract h = some (a, h1) ∧ pqExtract h1 = some (b, h2) ∧
      2 ^ 32 = a.freq.toNat + b.freq.toNat) ∧
    keysOf [(0, 0xFFFFFFFE), (255, 1)] ≠ [] ∧
    (allSyms.map fun y => (countAt [(0, 0xFFFFFFFE), (255, 1)] y).toNat).sum = 2 ^ 32 - 1 :=
  ⟨⟨[leaf 1 1, leaf 2 0xFFFFFFFE], _, _, _, _, rfl, rfl, by decide, by decide⟩,
    ⟨[leaf 1 1, leaf 2 0xFFFFFFFF], _, _, _, _, rfl, rfl, by decide⟩, by decide +kernel⟩

theorem witness_BuildtreeLeavesTheTree :
    (∃ s : State, keysOf s.ft ≠ [] ∧ (allSyms.map fun y => (countAt s.ft y).toNat).sum < 2 ^ 32 ∧
      (s.regs.set .n0 .absent).live + (2 * (keysOf s.ft).length - 1) ≤ Config.nodeCap) ∧
    (∃ s : State, keysOf s.ft ≠ [] ∧ 2 ^ 32 = (allSyms.map fun y => (countAt s.ft y).toNat).sum) ∧
    (∃ s : State, keysOf s.ft ≠ [] ∧
      Config.nodeCap < (s.regs.set .n3 .absent).live + (2 * (keysOf s.ft).length - 1)) ∧
    ∃ s : State, ∀ y, countAt s.ft y = 0 := by
  refine ⟨⟨{ State.reset with ft := [(0x61, 5), (0x62, 2)] }, by decide +kernel⟩,
    ⟨{ State.reset with ft := [(0x61, 0xFFFFFFFF), (0x62, 1)] }, by decide +kernel⟩,
    ⟨{ crowded with ft := [(0x61, 5)] }, by decide +kernel, ?_⟩, State.reset, fun y => rfl⟩
  exact Nat.lt_add_right _ (crowded_live .n3 .absent (by decide) (by decide))

theorem witness_BuildcodeRecordsThePaths :
    (∃ (s : State) (n : Node), s.reg .n0 = .node n ∧ (n.leaves.map (·.2.1)).Nodup ∧ ∀ p ∈ n.leaves, p.1.length ≤ 255) ∧
    ∃ (s : State) (n : Node), s.reg .n0 = .node n ∧ (n.leaves.map (·.2.1)).Nodup ∧ ∀ p ∈ n.leaves, p.1.length = 255 :=
  ⟨⟨holding (.node abraTree) .absent, abraTree, rfl, by decide +kernel⟩,
    holding (.node (chain 255)) .absent, chain 255, rfl, by decide +kernel⟩

theorem witness_BuildcodeRaises : (∃ s : State, s.reg .n0 = .absent) ∧
    (∃ (s : State) (n : Node), s.reg .n0 = .node n ∧ ¬ (n.leaves.map (·.2.1)).Nodup ∧
      ∀ p ∈ n.leaves, p.1.length ≤ 255) ∧
    ∃ (s : State) (n : Node), s.reg .n0 = .node n ∧ (n.leaves.map (·.2.1)).Nodup ∧ ∃ p ∈ n.leaves, p.1.length = 256 :=
  ⟨⟨State.reset, rfl⟩,
    ⟨holding (.node (branch 2 (leaf 0x61 1) (leaf 0x61 1))) .absent, _, rfl, by decide +kernel⟩,
    holding (.node (chain 256)) .absent, _, rfl, by decide +kernel⟩

/-- Trees with both faults of R168: a repeated symbol first, a deep Leaf first, and one Leaf with both. -/
theorem witness_BuildcodeRaises_first :
    let twice : Node := branch 2 (leaf 0x62 1) (leaf 0x62 1)
    (∃ (n : Node) (p q : Code × Sym × Freq) (after : List (Code × Sym × Freq)), n = branch 2 twice (chain 255) ∧
      n.leaves = [q] ++ p :: after ∧ q.1.length ≤ 255 ∧ p.2.1 ∈ [q.2.1] ∧ ∃ d ∈ after, 255 < d.1.length) ∧
    (∃ (n : Node) (p : Code × Sym × Freq) (after : List (Code × Sym × Freq)), n = branch 2 (chain 255) twice ∧
      n.leaves = [] ++ p :: after ∧ 255 < p.1.length ∧ ¬ (after.map (·.2.1)).Nodup) ∧
    ∃ (n : Node) (p q : Code × Sym × Freq), n = branch 2 (leaf 0x61 1) (chain 255) ∧ n.leaves = [q] ++ p :: [] ∧
      q.1.length ≤ 255 ∧ p.2.1 ∈ [q.2.1] ∧ 255 < p.1.length :=
  ⟨⟨branch 2 (branch 2 (leaf 0x62 1) (leaf 0x62 1)) (chain 255), ([false, true], 0x62, 1), ([false, false], 0x62, 1),
      [(List.replicate 256 true, 0x61, 0)], rfl, by decide +kernel, by decide, by decide, by decide +kernel⟩,
    ⟨branch 2 (chain 255) (branch 2 (leaf 0x62 1) (leaf 0x62 1)), (false :: List.replicate 255 true, 0x61, 0),
      [([true, false], 0x62, 1), ([true, true], 0x62, 1)], rfl, by decide +kernel, by decide +kernel, by decide⟩,
    branch 2 (leaf 0x61 1) (chain 255), (List.replicate 256 true, 0x61, 0), ([false], 0x61, 1), rfl, by decide +kernel,
    by decide, by decide, by decide +kernel⟩

theorem witness_ExtractedCodesArePrefixFree :
    buildCode abraTree = .ok (abraCodes.map fun e => (e.1, code e.2)) := by decide +kernel

/-- A prefix-free table with two entries, and one that is not. -/
theorem prefixFree_ab : prefixFree [(0x41, code [0]), (0x42, code [1, 1])] := by
  rw [prefixFree_iff]
  have h : entriesOf [(0x41, code [0]), (0x42, code [1, 1])] = [(0x41, [false]), (0x42, [true, true])] := by
    decide +kernel
  rw [h]
  simp

theorem not_prefixFree_xy : ¬ prefixFree [(0x78, code [0]), (0x79, code [0, 1])] :=
  fun h => h 0x78 0x79 (code [0]) (code [0, 1]) (by decide) rfl rfl (by decide)

theorem witness_ReconstructorRaisesExactlyWhenNotPrefixFree :
    (∃ c, entriesOf c ≠ [] ∧ prefixFree c) ∧ ∃ c, entriesOf c ≠ [] ∧ ¬ prefixFree c :=
  ⟨⟨_, by decide +kernel, prefixFree_ab⟩, _, by decide +kernel, not_prefixFree_xy⟩

theorem witness_ReconstructedTreeProperties : ∃ (c : CodeTable) (n : Node), treeFromCode c = .ok n ∧ entriesOf c ≠ [] ∧
    ∀ y b, codeAt c y = some b → b.length ≤ 255 :=
  ⟨[(0x41, code [0])], _, rfl, by decide +kernel, fun y b h => by
    have := Cells.mem_of_get h
    simp only [List.mem_singleton, Prod.mk.injEq] at this
    rw [this.2]; decide⟩

/-- What the reset state with a table holds, as a command reads it. -/
theorem coded_codes : (coded [(0x41, [0]), (0x42, [1, 1])] [0, 1, 1]).codes = [(0x41, code [0]), (0x42, code [1, 1])] ∧
    (coded [(0x78, [0]), (0x79, [0, 1])] []).codes = [(0x78, code [0]), (0x79, code [0, 1])] := by decide +kernel

/-- A state whose registers hold `2^20 - 1` Nodes beside `N0`, with a table of one empty code. -/
def nearlyFull : State :=
  { coded [(0x41, [])] [] with regs := ⟨.node abraTree, .node (fullTree 19), .absent, .absent⟩ }

theorem nearlyFull_codes : nearlyFull.codes = [(0x41, [])] :=
  show (coded [(0x41, [])] []).codes = _ by decide +kernel

/-- A state past the limit once `N0` takes a tree of two or more Nodes, with a table of two entries. -/
def crowdedTable : State := { coded [(0x41, [0]), (0x42, [1, 1])] [0, 1, 1] with regs := crowded.regs }

theorem crowdedTable_codes : crowdedTable.codes = [(0x41, code [0]), (0x42, code [1, 1])] := coded_codes.1

/-- The tree of that table. -/
def abTree : Node := .branch 0 (.node (leaf 0x41 0)) (.node (.branch 0 .absent (.node (leaf 0x42 0))))

theorem treeFromCode_ab : treeFromCode [(0x41, code [0]), (0x42, code [1, 1])] = .ok abTree := by decide +kernel

theorem crowdedTable_live : Config.nodeCap < (crowdedTable.regs.set .n0 (.node abTree)).live := by
  have h := fullTree_size 19
  simp only [crowdedTable, crowded, holding, NodeRegs.set, NodeRegs.live, Slot.size_node, Slot.size_absent, Config.nodeCap,
    show abTree.size = 4 from rfl]
  omega

theorem witness_TreefromcodeLeavesTheTree :
    (∃ s : State, entriesOf s.codes ≠ [] ∧ prefixFree s.codes) ∧
    ∃ (s : State) (n : Node), treeFromCode s.codes = .ok n ∧
      (s.regs.set .n0 .absent).live + heapLive s.heap + n.size = Config.nodeCap := by
  refine ⟨⟨crowdedTable, by rw [crowdedTable_codes]; decide +kernel, by rw [crowdedTable_codes]; exact prefixFree_ab⟩,
    nearlyFull, leaf 0x41 0, by rw [nearlyFull_codes]; rfl, ?_⟩
  have h := fullTree_size 19
  simp only [nearlyFull, coded, State.reset, NodeRegs.set, NodeRegs.live, Slot.size_node, Slot.size_absent, Config.nodeCap, leaf,
    Node.size_leaf, heapLive_nil]
  omega

theorem witness_TreefromcodeRaises : (∃ s : State, ∀ y : Sym, s.codeOf y.toNat = none) ∧
    (∃ s : State, ¬ prefixFree s.codes) ∧
    ∃ (s : State) (n : Node), entriesOf s.codes ≠ [] ∧ treeFromCode s.codes = .ok n ∧
      Config.nodeCap < (s.regs.set .n2 .absent).live + heapLive s.heap + n.size :=
  ⟨⟨State.reset, fun _ => rfl⟩,
    ⟨coded [(0x78, [0]), (0x79, [0, 1])] [], by rw [coded_codes.2]; exact not_prefixFree_xy⟩,
    crowdedTable, abTree, by rw [crowdedTable_codes]; decide +kernel, by rw [crowdedTable_codes]; exact treeFromCode_ab,
    Nat.lt_add_right _ (Nat.lt_add_right _ (crowded_live .n2 .absent (by decide) (by decide)))⟩

theorem witness_ExtractorInvertsReconstructor : ∃ (c : CodeTable) (n : Node), treeFromCode c = .ok n ∧
    ∀ y b, codeAt c y = some b → b.length ≤ 255 :=
  have ⟨c, n, h, _, hl⟩ := witness_ReconstructedTreeProperties
  ⟨c, n, h, hl⟩

theorem witness_EncodeLeavesThePayload :
    (∃ s : State, s.ilen.toNat = Config.ibufCap + 1) ∧ (∃ s : State, s.ilen = 0) ∧
    (∃ s : State, s.ilen ≠ 0 ∧ s.ilen.toNat ≤ Config.ibufCap ∧ s.ilen = 1) ∧
    ∃ s : State, s.ilen ≠ 0 ∧ s.ilen.toNat = Config.ibufCap :=
  ⟨⟨{ State.reset with ilen := 65537 }, by decide⟩, ⟨State.reset, rfl⟩, ⟨loaded [0x61], by decide⟩,
    { State.reset with ilen := 65536 }, by decide⟩

theorem witness_EncodeIsItsThreeStages : nextIs (exec .encode (loaded abra)) (fun t => t.status.code == .ok) = true := by
  decide +kernel

theorem witness_EncodedLengthIsTheWeightedSum :
    nextIs (exec .encode (loaded [0x61])) (fun t => t.status.code == .ok) = true := by decide +kernel

/-- The tree of two symbols with codes 0 and 1. -/
def twoTree (y z : Nat) : Node := .branch 0 (.node (leaf y 0)) (.node (leaf z 0))

/-- A state whose bits are 65537 codes of the symbol 0x61. -/
def tooLong : State :=
  { coded [(0x61, [0]), (0x62, [1])] [] with bits := Cells.run 0 (List.replicate 65537 false), bitn := 65537 }

theorem tooLong_bits : tooLong.inputBits = List.replicate 65537 false :=
  State.inputBits_of_written rfl (by rw [List.length_replicate]; rfl)

/-- The walk of 65537 codes of one symbol appends as many symbols. -/
theorem walk_replicate (g : Freq) (l r : Slot) (require : Bool) (y : Sym) (hy : y ≠ Config.sentinel)
    (h : ([false], y, 0) ∈ (Node.branch g l r).leaves) (m : Nat) (bs : Bits) :
    decodeWalk (.branch g l r) (List.replicate m false ++ bs) require =
      walkBits (.branch g l r) require (.branch g l r) true bs (List.replicate m y) := by
  have := walkBits_codes (require := require) (List.replicate m ([false], y))
    (fun p hp => by rw [List.eq_of_mem_replicate hp]; exact ⟨hy, 0, h⟩) bs []
  have hf : ∀ m, (List.replicate m (([false], y) : Code × Sym)).flatMap (·.1) = List.replicate m false := by
    intro m
    induction m with
    | zero => rfl
    | succ m ih => simp [List.replicate_succ, ih]
  simpa [decodeWalk, hf] using this

/-- The raises of `DECODE`, one state for each, and a state in which it succeeds. -/
theorem witness_DecodeLeavesTheOutput :
    (∃ s : State, ∀ y : Sym, s.codeOf y.toNat = none) ∧
    (∃ s : State, entriesOf s.codes ≠ [] ∧ s.bitn.toNat = Config.bitCap + 1) ∧
    (∃ s : State, entriesOf s.codes ≠ [] ∧ s.bitn.toNat ≤ Config.bitCap ∧ ¬ prefixFree s.codes) ∧
    (∃ (s : State) (n : Node), entriesOf s.codes ≠ [] ∧ s.bitn.toNat ≤ Config.bitCap ∧ treeFromCode s.codes = .ok n ∧
      Config.nodeCap < (s.regs.set .n0 (.node n)).live + heapLive s.heap) ∧
    (∃ (s : State) (n : Node) (x : Completion), entriesOf s.codes ≠ [] ∧ s.bitn.toNat ≤ Config.bitCap ∧
      treeFromCode s.codes = .ok n ∧ (s.regs.set .n0 (.node n)).live + heapLive s.heap ≤ Config.nodeCap ∧
      decodeWalk n s.inputBits false = .error x) ∧
    (∃ (s : State) (n : Node) (out : List Sym), entriesOf s.codes ≠ [] ∧ s.bitn.toNat ≤ Config.bitCap ∧
      treeFromCode s.codes = .ok n ∧ (s.regs.set .n0 (.node n)).live + heapLive s.heap ≤ Config.nodeCap ∧
      decodeWalk n s.inputBits false = .ok out ∧ out.length = Config.obufCap + 1) ∧
    ∃ (s : State) (n : Node) (out : List Sym), entriesOf s.codes ≠ [] ∧ s.bitn.toNat ≤ Config.bitCap ∧
      treeFromCode s.codes = .ok n ∧ (s.regs.set .n0 (.node n)).live + heapLive s.heap ≤ Config.nodeCap ∧
      decodeWalk n s.inputBits false = .ok out ∧ out.length ≤ Config.obufCap := by
  have hlong : tooLong.codes = [(0x61, [false]), (0x62, [true])] :=
    show (coded [(0x61, [0]), (0x62, [1])] []).codes = _ by decide +kernel
  refine ⟨⟨State.reset, fun _ => rfl⟩, ⟨{ coded abCodes [] with bitn := 524289 }, by decide +kernel⟩,
    ⟨coded [(0x78, [0]), (0x79, [0, 1])] [], by decide +kernel, by decide, by rw [coded_codes.2]; exact not_prefixFree_xy⟩,
    ⟨crowdedTable, abTree, by rw [crowdedTable_codes]; decide +kernel, by decide,
      by rw [crowdedTable_codes]; exact treeFromCode_ab, Nat.lt_add_right _ crowdedTable_live⟩,
    ⟨coded [(0x41, [0]), (0x42, [1, 1])] [0, 1, 0], abTree, .malformedBitstream, by decide +kernel⟩,
    ⟨tooLong, twoTree 0x61 0x62, List.replicate 65537 0x61, by rw [hlong]; decide +kernel, by decide,
      by rw [hlong]; decide +kernel, by decide, ?_, by rw [List.length_replicate]; rfl⟩,
    coded [(0x41, [0]), (0x42, [1, 1])] [0, 1, 1], abTree, [0x41, 0x42], by decide +kernel⟩
  have := walk_replicate 0 (.node (leaf 0x61 0)) (.node (leaf 0x62 0)) false 0x61 (by decide) (by decide) 65537 []
  rw [tooLong_bits, twoTree, ← List.append_nil (List.replicate 65537 false), this]
  simp only [walkBits, Bool.not_true, Bool.false_eq_true, if_false, List.reverse_replicate]

/-- The walk on a Branch: an absent child, an end away from the root, an end at the root, the sentinel. -/
theorem witness_DecodeLeavesTheOutput_walk :
    (∀ p ∈ [(code [0], (0x41 : Sym)), (code [1, 1], 0x42)], p.2 ≠ Config.sentinel ∧
      p ∈ abTree.leaves.map fun q => (q.1, q.2.1)) ∧
    (∃ (q : Bits) (d : Bool) (m : Node), m.kind = .branch ∧ Slot.follow (.node abTree) q = .node m ∧ m.child d = .absent ∧
      q = [true] ∧ d = false) ∧
    (∃ (tail : Bits) (m : Node), m.kind = .branch ∧ tail ≠ [] ∧ Slot.follow (.node abTree) tail = .node m) ∧
    ∃ (q : Bits) (f : Freq), (q, Config.sentinel, f) ∈ (branch 0 (leaf 0x41 0) (branch 0 (leaf 0x1F 0) (leaf 0x42 0))).leaves :=
  ⟨by decide +kernel, ⟨[true], false, .branch 0 .absent (.node (leaf 0x42 0)), by decide +kernel⟩,
    ⟨[true], .branch 0 .absent (.node (leaf 0x42 0)), by decide +kernel⟩, [true, false], 0, by decide +kernel⟩

theorem witness_DecodeWalkInvertsEncodeBits : ∃ (c : CodeTable) (n : Node) (l : List Sym), treeFromCode c = .ok n ∧
    2 ≤ (entriesOf c).length ∧ (∀ y ∈ l, (codeAt c y).isSome) ∧ Config.sentinel ∉ l ∧
    (codeAt c Config.sentinel).isSome :=
  ⟨abCodes.map fun e => (e.1, code e.2), branch 0 (leaf 0x41 0) (branch 0 (leaf 0x1F 0) (leaf 0x42 0)), [0x41, 0x42],
    by decide +kernel⟩

theorem witness_EncodeThenDecodeReturnsTheText : nextIs (exec .encode (loaded [0x61, 0x62]))
    (fun t => t.status.code == .ok && decide (2 ≤ (keysOf t.ft).length)
      && !(loaded [0x61, 0x62]).inputBytes.contains Config.sentinel) = true := by decide +kernel

theorem witness_UnpackOfPackAddsZeroPadding : 7 < 8 * (pack (code [1])).length ∧ 0 < 8 * (pack (code [1])).length := by
  decide +kernel

theorem witness_CompressLeavesTheContainer : ∃ s : State, s.ilen ≠ 0 ∧ s.ilen.toNat ≤ Config.ibufCap ∧
    Config.sentinel ∉ s.inputBytes ∧ (keysOf (freqTable (s.inputBytes ++ [Config.sentinel]))).length ≤ 255 :=
  ⟨loaded [0x41, 0x42], by decide +kernel⟩

/-- V35: every byte but the sentinel. -/
def allBytes : List Nat := List.range 0x1F ++ List.range' 0x20 224

/-- With the sentinel appended, that text has all 256 symbols. -/
theorem allBytes_keys :
    (keysOf (freqTable ((loaded allBytes).inputBytes ++ [Config.sentinel]))).length = 256 := by
  have hb : (loaded allBytes).inputBytes = allBytes.map (BitVec.ofNat 8) := by
    have h := Cells.window_run (Config.freeInput 0) (allBytes.map (BitVec.ofNat 8)) 0
    rwa [show (allBytes.map (BitVec.ofNat 8)).length = (loaded allBytes).ilen.toNat by decide +kernel] at h
  rw [keysOf_freqTable (by decide +kernel), hb, List.filter_eq_self.mpr, allSyms_length]
  intro y _
  rw [List.contains_iff_mem, List.mem_append]
  by_cases h : y = Config.sentinel
  · exact .inr (by simp [h])
  · refine .inl (List.mem_map.mpr ⟨y.toNat, ?_, by simp⟩)
    have h31 : y.toNat ≠ 31 := fun hc => h (BitVec.eq_of_toNat_eq hc)
    have := y.isLt
    simp only [allBytes, List.mem_append, List.mem_range, List.mem_range'_1]
    omega

theorem witness_CompressRefusals :
    (∃ s : State, s.ilen.toNat = Config.ibufCap + 1) ∧ (∃ s : State, s.ilen = 0) ∧
    (∃ s : State, s.ilen ≠ 0 ∧ s.ilen.toNat ≤ Config.ibufCap ∧ Config.sentinel ∈ s.inputBytes) ∧
    ∃ s : State, s.ilen ≠ 0 ∧ s.ilen.toNat ≤ Config.ibufCap ∧ Config.sentinel ∉ s.inputBytes ∧
      (keysOf (freqTable (s.inputBytes ++ [Config.sentinel]))).length = 256 :=
  ⟨⟨{ State.reset with ilen := 65537 }, by decide⟩, ⟨State.reset, rfl⟩, ⟨loaded [0x61, 0x1F, 0x62], by decide +kernel⟩,
    loaded allBytes, by decide +kernel, by decide +kernel, by decide +kernel, allBytes_keys⟩

theorem witness_ContainerStartAndLength : nextIs (exec .compress (loaded [0x41])) (fun t => t.status.code == .ok) = true := by
  decide +kernel

theorem witness_DecompressLeavesTheText : ∃ (s : State) (c : CodeTable) (rest : Bits) (n : Node) (out : List Sym),
    s.ilen.toNat ≤ Config.ibufCap ∧ parseContainer s.inputBytes = .ok (c, rest) ∧ rest.length ≤ Config.bitCap ∧
    treeFromCode c = .ok n ∧ (s.regs.set .n0 (.node n)).live + heapLive s.heap ≤ Config.nodeCap ∧
    decodeWalk n rest true = .ok out ∧ out.length ≤ Config.obufCap :=
  ⟨loaded abContainer, abCodes.map fun e => (e.1, code e.2), code [0, 1, 1, 1, 0, 0, 0, 0, 0, 0, 0],
    branch 0 (leaf 0x41 0) (branch 0 (leaf 0x1F 0) (leaf 0x42 0)), [0x41, 0x42], by decide +kernel⟩

theorem witness_DecompressTestsTheMagicFirst :
    (∃ s : State, s.ilen.toNat = Config.ibufCap + 1) ∧
    (∃ s : State, s.ilen.toNat ≤ Config.ibufCap ∧ s.inputBytes.length < 2 ∧ s.inputBytes[0]? = some 0x68) ∧
    (∃ s : State, s.ilen.toNat ≤ Config.ibufCap ∧ s.inputBytes[0]? ≠ some 0x68) ∧
    (∃ s : State, s.ilen.toNat ≤ Config.ibufCap ∧ s.inputBytes[0]? = some 0x68 ∧ s.inputBytes[1]? ≠ some 0x66) ∧
    ∃ (s : State) (x : Completion), s.ilen.toNat ≤ Config.ibufCap ∧ parseContainer s.inputBytes = .error x ∧
      x = .malformedBitstream :=
  ⟨⟨{ State.reset with ilen := 65537 }, by decide⟩, ⟨loaded [0x68], by decide +kernel⟩,
    ⟨loaded [0x69, 0x66, 0x03], by decide +kernel⟩, ⟨loaded [0x68, 0x67, 0x03], by decide +kernel⟩,
    loaded [0x68, 0x66], .malformedBitstream, by decide +kernel⟩

/-- A container whose content is 65537 codes of 0x61 and the sentinel's. -/
def longContainer : List Byte := container [(0x1F, [true]), (0x61, [false])] (List.replicate 65537 false ++ [true])

theorem longContainer_length : longContainer.length = 8200 := by
  rw [longContainer, container_length, List.length_append, List.length_replicate]
  have h : entriesOf [(0x1F, [true]), (0x61, [false])] = [(0x1F, [true]), (0x61, [false])] := by decide +kernel
  rw [h]
  rfl

/-- The raises of `DECOMPRESS` on a parsed container, one state for each (V39 among them). -/
theorem witness_DecompressTestsTheMagicFirst_parsed :
    (∃ (s : State) (c : CodeTable) (rest : Bits), s.ilen.toNat ≤ Config.ibufCap ∧
      parseContainer s.inputBytes = .ok (c, rest) ∧ ¬ prefixFree c) ∧
    (∃ (s : State) (c : CodeTable) (rest : Bits) (n : Node), s.ilen.toNat ≤ Config.ibufCap ∧
      parseContainer s.inputBytes = .ok (c, rest) ∧ treeFromCode c = .ok n ∧
      Config.nodeCap < (s.regs.set .n0 (.node n)).live + heapLive s.heap) ∧
    (∃ (s : State) (c : CodeTable) (rest : Bits) (n : Node) (x : Completion), s.ilen.toNat ≤ Config.ibufCap ∧
      parseContainer s.inputBytes = .ok (c, rest) ∧ treeFromCode c = .ok n ∧
      (s.regs.set .n0 (.node n)).live + heapLive s.heap ≤ Config.nodeCap ∧ decodeWalk n rest true = .error x) ∧
    ∃ (s : State) (c : CodeTable) (rest : Bits) (n : Node) (out : List Sym), s.ilen.toNat ≤ Config.ibufCap ∧
      parseContainer s.inputBytes = .ok (c, rest) ∧ treeFromCode c = .ok n ∧
      (s.regs.set .n0 (.node n)).live + heapLive s.heap ≤ Config.nodeCap ∧ decodeWalk n rest true = .ok out ∧
      out.length = Config.obufCap + 1 := by
  obtain ⟨d, k, hp, -, hd⟩ := parseContainer_container (c := [(0x1F, [true]), (0x61, [false])]) (by decide +kernel)
    (by decide +kernel) (fun y b h => by
      have h := Cells.mem_of_get h
      simp only [List.mem_cons, Prod.mk.injEq, List.not_mem_nil, or_false] at h
      rcases h with ⟨-, rfl⟩ | ⟨-, rfl⟩ <;> decide) (List.replicate 65537 false ++ [true])
  have ht : treeFromCode d = .ok (twoTree 0x61 0x1F) := by
    rw [treeFromCode, entriesOf_congr hd]
    exact show treeFromCode [(0x1F, [true]), (0x61, [false])] = _ by decide +kernel
  refine ⟨⟨loaded [0x68, 0x66, 0x02, 0x78, 0x01, 0x79, 0x02, 0x20], [(0x78, code [0]), (0x79, code [0, 1])], code [0, 0, 0, 0, 0],
      by decide +kernel, by decide +kernel, not_prefixFree_xy⟩,
    ⟨{ loaded [0x68, 0x66, 0x02, 0x41, 0x01, 0x42, 0x02, 0x60] with regs := crowded.regs },
      [(0x41, code [0]), (0x42, code [1, 1])], code [0, 0, 0, 0, 0], abTree, by decide, ?_, treeFromCode_ab,
      Nat.lt_add_right _ crowdedTable_live⟩,
    ⟨loaded [0x68, 0x66, 0x03, 0x1F, 0x02, 0x41, 0x01, 0x42, 0x02, 0x9B], abCodes.map fun e => (e.1, code e.2),
      code [0, 1, 1], branch 0 (leaf 0x41 0) (branch 0 (leaf 0x1F 0) (leaf 0x42 0)), .malformedBitstream, by decide +kernel⟩,
    ⟨{ State.reset with ibuf := Cells.run 0 longContainer, ilen := 8200 }, d,
      List.replicate 65537 false ++ [true] ++ List.replicate k false, twoTree 0x61 0x1F, List.replicate 65537 0x61, by decide, ?_, ht, by decide, ?_, by rw [List.length_replicate]; rfl⟩⟩
  · exact show parseContainer (loaded [0x68, 0x66, 0x02, 0x41, 0x01, 0x42, 0x02, 0x60]).inputBytes = _ by decide +kernel
  · have h := Cells.window_run (Config.freeInput 0) longContainer 0
    rw [longContainer_length] at h
    exact (congrArg parseContainer h).trans hp
  · have hw := walk_replicate 0 (.node (leaf 0x61 0)) (.node (leaf 0x1F 0)) true 0x61 (by decide) (by decide) 65537
      ([true] ++ List.replicate k false)
    rw [twoTree, List.append_assoc, hw, walkBits_code (y := 0x1F) (f := 0) (by decide), if_pos (by decide),
      List.reverse_replicate]

/-- V38: the six header faults, each as the bytes after the magic, meet each alternative of the hypothesis; and a state
with such an input; then V36a's header, which has none of them and lists its symbols in another order. -/
theorem witness_HeaderFaultsAreMalformed :
    (∃ s : State, s.ilen.toNat ≤ Config.ibufCap ∧ s.inputBytes = 0x68 :: 0x66 :: [0x00]) ∧
    let n (x : List Byte) : Nat := match x with | nb :: _ => nb.toNat | [] => 0
    let syms (x : List Byte) := (List.range (n x)).map fun i => x[1 + 2 * i]?
    let lens (x : List Byte) := (List.range (n x)).map fun i => ((x[2 + 2 * i]?).getD 0).toNat
    ([] : List Byte) = [] ∧ n [0] = 0 ∧
    ([0x03, 0x1F, 0x02, 0x41, 0x01] : List Byte).length < 1 + 2 * n [0x03, 0x1F, 0x02, 0x41, 0x01] ∧
    0 ∈ lens [0x03, 0x1F, 0x02, 0x41, 0x00, 0x42, 0x02, 0x9B, 0x80] ∧
    ¬ (syms [0x03, 0x1F, 0x02, 0x41, 0x01, 0x41, 0x02, 0x9B, 0x80]).Nodup ∧
    8 * (([0x02, 0x1F, 0x05, 0x41, 0x05, 0x9B] : List Byte).length - (1 + 2 * 2))
      < (lens [0x02, 0x1F, 0x05, 0x41, 0x05, 0x9B]).sum ∧
    let x : List Byte := [0x03, 0x42, 0x02, 0x1F, 0x02, 0x41, 0x01, 0xE3, 0x80]
    ¬ (x = [] ∨ n x = 0 ∨ x.length < 1 + 2 * n x ∨ 0 ∈ lens x ∨ ¬ (syms x).Nodup ∨
      8 * (x.length - (1 + 2 * n x)) < (lens x).sum) ∧ 2 < n x ∧ some 0x42 ∈ syms x ∧ some 0x43 ∉ syms x := by
  exact ⟨⟨loaded [0x68, 0x66, 0x00], by decide +kernel⟩, by decide +kernel⟩

theorem witness_CompressThenDecompressReturnsTheText : nextIs (exec .compress (loaded [0x41, 0x42])) (fun t =>
    t.status.code == .ok && t.olen == (loaded abContainer).ilen && t.output == (loaded abContainer).inputBytes
      && decide (((loaded abContainer).regs.set .n0 .absent).live + heapLive (loaded abContainer).heap + 511
        ≤ Config.nodeCap)) = true := by decide +kernel

theorem witness_PipelineCommandsComplete :
    (∃ s : State, s.ilen ≠ 0 ∧ s.ilen.toNat ≤ 1024 ∧ s.regs.live + 511 ≤ Config.nodeCap ∧
      Config.sentinel ∉ s.inputBytes ∧ (keysOf (freqTable (s.inputBytes ++ [Config.sentinel]))).length ≤ 255) ∧
    ∃ s : State, s.ilen ≠ 0 ∧ s.ilen.toNat = 1024 ∧ s.regs.live + 511 ≤ Config.nodeCap :=
  ⟨⟨loaded [0x41, 0x42], by decide +kernel⟩, { State.reset with ilen := 1024 }, by decide⟩

end Sys2Proof.Tests
end

section
/-! PROOFS. Packing and unpacking of bit sequences (spec/00_scope.md R12). -/

namespace Sys2Proof.Machine

/-- Bit `j` of the eight a byte gives is bit `7 - j` of the byte (R12). -/
theorem bitsOfByte_getElem? (x : Byte) {j : Nat} (hj : j < 8) :
    (bitsOfByte x)[j]? = some (x.getLsbD (7 - j)) := by
  simp [bitsOfByte, hj]

theorem unpack_cons (x : Byte) (l : List Byte) : unpack (x :: l) = bitsOfByte x ++ unpack l :=
  List.flatMap_cons

/-- Bit `k` of the unpacked bytes is bit `7 - (k mod 8)` of byte `k div 8`, and neither exists past the end (R12). -/
theorem unpack_getElem? (l : List Byte) (k : Nat) :
    (unpack l)[k]? = (l[k / 8]?).map fun x => x.getLsbD (7 - k % 8) := by
  induction l generalizing k with
  | nil => rfl
  | cons x l ih =>
    rw [unpack_cons]
    by_cases hk : k < 8
    · rw [List.getElem?_append_left (by simpa using hk), bitsOfByte_getElem? x hk, Nat.div_eq_of_lt hk,
        Nat.mod_eq_of_lt hk]
      rfl
    · obtain ⟨j, rfl⟩ : ∃ j, k = j + 8 := ⟨k - 8, by omega⟩
      rw [List.getElem?_append_right (by simp), bitsOfByte_length, Nat.add_sub_cancel, ih,
        Nat.add_div_right j (by decide), Nat.add_mod_right, List.getElem?_cons_succ]

/-- `Pack` adds only what completes the last byte, and the added bits are 0 (R12). -/
theorem unpack_pack (b : Bits) :
    unpack (pack b) = b ++ List.replicate (8 * (pack b).length - b.length) false := by
  rw [pack_length]
  exact unpack_packBytes _ b (by omega)

/-- Settles O52: the two bit positions by recursion on the bytes, the padding from the length of the packed sequence. -/
theorem unpackOfPackAddsZeroPadding : Obligations.UnpackOfPackAddsZeroPadding := by
  refine ⟨fun b k hk => ?_, unpack_getElem?, fun b => ?_⟩
  · rw [pack_length] at hk
    exact packBytes_getElem? _ b k hk
  · have hlen := pack_length b
    exact ⟨8 * (pack b).length - b.length, by omega, unpack_pack b, by omega⟩

end Sys2Proof.Machine
end

section
/-! PROOFS. What the invariant of the machine (Sys2Proof/Safety.lean) asks of the pieces of state, and that every named
update of the state keeps it: one rule an update (spec/10_state.md R21, R24 to R26, R33, R35 to R37). -/

namespace Sys2Proof.Machine

/-! ### The pieces -/

/-- What the invariant asks of the node registers and the queue (R21, R24, R25, R26). -/
structure NodesFit (n : NodeRegs) (h : List Node) : Prop where
  queueFits : h.length ≤ Config.pqCap
  ordered : heapOrdered h
  liveFits : n.live + heapLive h ≤ Config.nodeCap
  heapSums : ∀ m ∈ h, m.sumOk = true
  regSums : ∀ r : NReg, (n.get r).sumOk = true

/-- What the invariant asks of `FT` beside its form (spec/41_node_and_tree_builder.md R100). -/
def CountsFit (t : Cells Freq) : Prop := (t.map (·.2.toNat)).sum ≤ Config.ibufCap + 1

/-- What the invariant asks of `OLEN` and `OBUF` beside its form (R33, R37). -/
structure OutFits (n : Word) (b : Cells Byte) : Prop where
  fits : n.toNat ≤ Config.obufCap
  defined : b.map (·.1) = List.range n.toNat

/-- The invariant, all but `BUSY`: what holds inside a command too. -/
structure State.Sound (s : State) : Prop where
  wf : Memory.wf s = true
  nodes : NodesFit s.regs s.heap
  counts : CountsFit s.ft
  out : OutFits s.olen s.obuf
  res : s.res.legal = true

theorem State.inv_iff (s : State) : s.Inv ↔ s.Sound ∧ s.status.busy = false :=
  ⟨fun h => ⟨⟨h.wf, ⟨h.queueFits, h.ordered, h.liveFits, h.heapSums, h.regSums⟩, h.countsFit,
      ⟨h.outFits, h.outDefined⟩, h.resLegal⟩, h.notBusy⟩,
    fun ⟨h, hbusy⟩ => ⟨h.wf, h.nodes.queueFits, h.nodes.ordered, h.nodes.liveFits, h.nodes.heapSums, h.nodes.regSums,
      h.counts, h.out.fits, h.out.defined, h.res, hbusy⟩⟩

/-! ### Node registers and queue -/

theorem NodesFit.empty : NodesFit ⟨.absent, .absent, .absent, .absent⟩ [] where
  queueFits := Nat.zero_le _
  ordered := heapOrdered_nil
  liveFits := Nat.zero_le _
  heapSums := by simp
  regSums r := by cases r <;> rfl

/-- A register takes a Node, or is cleared: the limit is the only thing to test (R23, R24). -/
theorem NodesFit.setReg {n : NodeRegs} {h : List Node} (hn : NodesFit n h) {r : NReg} {v : Slot}
    (hv : v.sumOk = true) (hl : (n.set r v).live + heapLive h ≤ Config.nodeCap) : NodesFit (n.set r v) h where
  queueFits := hn.queueFits
  ordered := hn.ordered
  liveFits := hl
  heapSums := hn.heapSums
  regSums q := by
    rw [NodeRegs.get_set]
    split
    · exact hv
    · exact hn.regSums q

theorem NodesFit.clearReg {n : NodeRegs} {h : List Node} (hn : NodesFit n h) (r : NReg) :
    NodesFit (n.set r .absent) h := by
  have hlive := NodeRegs.live_set n r .absent
  have hfits := hn.liveFits
  rw [Slot.size_absent] at hlive
  exact hn.setReg rfl (by omega)

theorem NodesFit.clearHeap {n : NodeRegs} {h : List Node} (hn : NodesFit n h) : NodesFit n [] where
  queueFits := Nat.zero_le _
  ordered := heapOrdered_nil
  liveFits := Nat.le_trans (Nat.le_add_right _ _) hn.liveFits
  heapSums := by simp
  regSums := hn.regSums

/-- The Node in a register moves into the queue (spec/40_priority_queue.md R85): `Live` stays. -/
theorem NodesFit.insert {n : NodeRegs} {h : List Node} (hn : NodesFit n h) {r : NReg} {m : Node}
    (hr : n.get r = .node m) (hl : h.length < Config.pqCap) : NodesFit (n.set r .absent) (pqInsert h m) where
  queueFits := by rw [(pqInsert_perm h m).length_eq, List.length_cons]; exact hl
  ordered := pqInsert_ordered hn.ordered m
  liveFits := by
    have hlive := NodeRegs.live_set n r .absent
    have hfits := hn.liveFits
    rw [hr, Slot.size_node, Slot.size_absent] at hlive
    rw [heapLive_pqInsert]
    omega
  heapSums k hk := by
    rcases List.mem_cons.mp ((pqInsert_perm h m).subset hk) with rfl | hk
    · have hsum := hn.regSums r
      rwa [hr] at hsum
    · exact hn.heapSums k hk
  regSums := (hn.clearReg r).regSums

/-- The root of the queue moves into a register (R87): `Live` does not grow. -/
theorem NodesFit.extract {n : NodeRegs} {h h' : List Node} (hn : NodesFit n h) {m : Node}
    (he : pqExtract h = some (m, h')) (r : NReg) : NodesFit (n.set r (.node m)) h' := by
  have hperm := pqExtract_perm he
  have hfits := hn.liveFits
  have hheap := heapLive_pqExtract he
  have hlive := NodeRegs.live_set n r (.node m)
  rw [Slot.size_node] at hlive
  have hrest : NodesFit n h' :=
    { queueFits := by
        have hlen := pqExtract_length he
        have hcap := hn.queueFits
        omega
      ordered := pqExtract_ordered hn.ordered he
      liveFits := by omega
      heapSums := fun k hk => hn.heapSums k (hperm.symm.subset (List.mem_cons_of_mem _ hk))
      regSums := hn.regSums }
  exact hrest.setReg (hn.heapSums m (hperm.symm.subset (List.mem_cons_self ..))) (by omega)

/-! ### `FT`, `OBUF`, `RES` -/

/-- The counts of a table add up to the text's length (R100). -/
theorem sum_freqTable (b : List Byte) (hb : b.length < 2 ^ 32) : ((freqTable b).map (·.2.toNat)).sum = b.length := by
  have hcount := sum_countAt_freqTable hb
  have hskip : ∀ l : List Sym, (((l.filterMap fun y => if b.count y = 0 then none
      else some (y.toNat, BitVec.ofNat 32 (b.count y))).map (·.2.toNat)).sum) =
        (l.map fun y => (countAt (freqTable b) y).toNat).sum := by
    intro l
    induction l with
    | nil => rfl
    | cons y l ih =>
      rw [List.filterMap_cons, List.map_cons, List.sum_cons, ← ih, countAt_freqTable]
      by_cases hy : b.count y = 0 <;> simp [hy]
  rw [freqTable, hskip, hcount]

theorem CountsFit.freqTable {b : List Byte} (hb : b.length ≤ Config.ibufCap + 1) : CountsFit (freqTable b) := by
  rw [CountsFit, sum_freqTable b (Nat.lt_of_le_of_lt hb (by decide))]
  exact hb

theorem Cells.run_keys {α : Type} (vs : List α) (k : Nat) : (Cells.run k vs).map (·.1) = List.range' k vs.length := by
  induction vs generalizing k with
  | nil => rfl
  | cons v vs ih => rw [Cells.run, List.map_cons, ih, List.length_cons, List.range'_succ]

/-- An output a command writes has a value at every byte below its length and nowhere else (R33). -/
theorem OutFits.run {b : List Byte} (hb : b.length ≤ Config.obufCap) :
    OutFits (BitVec.ofNat 32 b.length) (Cells.run 0 b) := by
  have hlen : (BitVec.ofNat 32 b.length).toNat = b.length :=
    Nat.mod_eq_of_lt (Nat.lt_of_le_of_lt hb (by decide))
  exact ⟨by rw [hlen]; exact hb, by rw [Cells.run_keys, hlen, List.range_eq_range']⟩

theorem Res.legal_iff (r : Res) : r.legal = true ↔
    (r.kind = .leaf ∨ r.sym = 0) ∧ (r.kind = .noNode → r.freq = 0) ∧ r.count.toNat ≤ Config.pqCap := by
  simp only [Res.legal, Bool.and_eq_true, Bool.or_eq_true, beq_iff_eq, bne_iff_ne, decide_eq_true_eq, and_assoc, ne_eq,
    ← imp_iff_not_or]

/-- A report of a slot is legal, whatever it holds (R35). -/
theorem State.report_legal {s : State} (h : s.res.legal = true) (v : Slot) : (s.report v).res.legal = true := by
  obtain ⟨-, -, hcount⟩ := (Res.legal_iff _).mp h
  rw [Res.legal_iff]
  cases v with
  | absent => exact ⟨.inr rfl, fun _ => rfl, hcount⟩
  | node n =>
    cases n with
    | leaf y f => exact ⟨.inl rfl, by simp [Node.kind], hcount⟩
    | branch f l r => exact ⟨.inr rfl, by simp [Node.kind], hcount⟩

/-! ### Code tables -/

/-- A code table a command can store: in canonical form, and no code longer than an entry holds (R29). -/
structure Storable (c : CodeTable) : Prop where
  rising : Cells.rising 256 0 c = true
  fits : ∀ e ∈ c, e.2.length ≤ Config.maxCodeLen

theorem Cells.get_of_mem {α : Type} {hi lo : Nat} {c : Cells α} (h : Cells.rising hi lo c = true) {k : Nat} {v : α}
    (hm : (k, v) ∈ c) : k < hi ∧ Cells.get c k = some v := by
  induction c generalizing lo with
  | nil => simp at hm
  | cons e c ih =>
    obtain ⟨a, x⟩ := e
    simp only [Cells.rising, Bool.and_eq_true, decide_eq_true_eq] at h
    obtain ⟨⟨-, hhi⟩, hrest⟩ := h
    rcases List.mem_cons.mp hm with heq | hm
    · cases heq; exact ⟨hhi, by simp [Cells.get]⟩
    · obtain ⟨hk, hget⟩ := ih hrest hm
      refine ⟨hk, ?_⟩
      have hne : a ≠ k := by
        rintro rfl
        rw [Cells.get_of_rising_lt hrest (Nat.lt_succ_self a)] at hget
        cases hget
      rw [Cells.get, if_neg hne, hget]

/-- The extractor's table can be stored (spec/42_code_extractor.md R112). -/
theorem buildCode_storable {n : Node} {c : CodeTable} (h : buildCode n = .ok c) : Storable c := by
  have hrising : Cells.rising 256 0 c = true := walkNode_rising n [] (c := []) rfl h
  obtain ⟨-, hlen, hcode⟩ := buildCode_ok h
  refine ⟨hrising, fun e he => ?_⟩
  obtain ⟨hk, hget⟩ := Cells.get_of_mem hrising he
  obtain ⟨f, hf⟩ := (hcode (BitVec.ofNat 8 e.1) e.2).mp (by
    rwa [codeAt, BitVec.toNat_ofNat, Nat.mod_eq_of_lt hk])
  exact hlen _ hf

theorem readPairs_le (n : Nat) (l : List Byte) : ∀ p ∈ readPairs n l, p.2 ≤ Config.maxCodeLen := by
  induction n generalizing l with
  | zero => simp [readPairs]
  | succ n ih =>
    match l with
    | [] | [_] => simp [readPairs]
    | y :: len :: rest =>
      intro p hp
      rcases List.mem_cons.mp hp with rfl | hp
      · exact Nat.le_of_lt_succ len.isLt
      · exact ih rest p hp

theorem sliceCodes_storable {ps : List (Sym × Nat)} (hps : ∀ p ∈ ps, p.2 ≤ Config.maxCodeLen) (stream : Bits) :
    Storable (sliceCodes ps stream) := by
  induction ps generalizing stream with
  | nil => exact ⟨rfl, by simp [sliceCodes]⟩
  | cons p ps ih =>
    obtain ⟨y, n⟩ := p
    obtain ⟨hrising, hfits⟩ := ih (fun p hp => hps p (List.mem_cons_of_mem _ hp)) (stream.drop n)
    refine ⟨Cells.put_rising hrising (Nat.zero_le _) y.isLt _, fun e he => ?_⟩
    rcases Cells.mem_put he with rfl | he
    · exact (List.length_take_le n stream).trans (hps _ (List.mem_cons_self ..))
    · exact hfits e he

theorem parseBody_storable {n : Nat} {l : List Byte} {c : CodeTable} {rest : Bits}
    (h : parseBody n l = .ok (c, rest)) : Storable c := by
  simp only [parseBody] at h
  repeat' split at h
  all_goals cases h
  exact sliceCodes_storable (readPairs_le _ _) _

/-- The table parsed from a container can be stored (spec/46_container_codec.md R145). -/
theorem parseContainer_storable {l : List Byte} {c : CodeTable} {rest : Bits}
    (h : parseContainer l = .ok (c, rest)) : Storable c := by
  unfold parseContainer at h
  split at h
  · split at h
    · cases h
    · split at h
      · cases h
      · exact parseBody_storable h
  · cases h

/-! ### The named updates -/

namespace State.Sound

variable {s : State}

theorem setNode (h : s.Sound) {r : NReg} {m : Node} (hm : m.sumOk = true)
    (hl : (s.setReg r (.node m)).live ≤ Config.nodeCap) : (s.setReg r (.node m)).Sound :=
  ⟨h.wf, h.nodes.setReg (v := .node m) hm hl, h.counts, h.out, h.res⟩

theorem clearReg (h : s.Sound) (r : NReg) : (s.setReg r .absent).Sound :=
  ⟨h.wf, h.nodes.clearReg r, h.counts, h.out, h.res⟩

theorem clearHeap (h : s.Sound) : (s.setHeap []).Sound := ⟨h.wf, h.nodes.clearHeap, h.counts, h.out, h.res⟩

theorem insert (h : s.Sound) {r : NReg} {m : Node} (hr : s.reg r = .node m) (hl : s.heap.length < Config.pqCap) :
    ((s.setHeap (pqInsert s.heap m)).setReg r .absent).Sound := ⟨h.wf, h.nodes.insert hr hl, h.counts, h.out, h.res⟩

theorem extract (h : s.Sound) {m : Node} {q : List Node} (he : pqExtract s.heap = some (m, q)) (r : NReg) :
    ((s.setHeap q).setReg r (.node m)).Sound := ⟨h.wf, h.nodes.extract he r, h.counts, h.out, h.res⟩

theorem clearFt (h : s.Sound) : (s.setFt []).Sound :=
  ⟨Memory.wf_clearFt h.wf, h.nodes, Nat.zero_le _, h.out, h.res⟩

theorem setFt (h : s.Sound) {b : List Byte} (hb : b.length ≤ Config.ibufCap + 1) : (s.setFt (freqTable b)).Sound :=
  ⟨Memory.wf_setFt h.wf (Nat.lt_of_le_of_lt hb (by decide)), h.nodes, .freqTable hb, h.out, h.res⟩

theorem clearCt (h : s.Sound) : (s.setCt []).Sound := ⟨Memory.wf_clearCt h.wf, h.nodes, h.counts, h.out, h.res⟩

theorem writeCodes (h : s.Sound) {c : CodeTable} (hc : Storable c) : (s.writeCodes c).Sound :=
  ⟨Memory.wf_writeCodes h.wf hc.rising hc.fits, h.nodes, h.counts, h.out, h.res⟩

theorem clearBits (h : s.Sound) : ((s.setBits []).setBitn 0).Sound :=
  have hwf := Memory.wf_clearBits h.wf
  ⟨hwf, h.nodes, h.counts, h.out, h.res⟩

theorem writeBits (h : s.Sound) {b : Bits} (hb : b.length ≤ Config.bitCap) : (s.writeBits b).Sound :=
  ⟨Memory.wf_writeBits h.wf hb, h.nodes, h.counts, h.out, h.res⟩

theorem clearOut (h : s.Sound) : ((s.setObuf []).setOlen 0).Sound :=
  have hwf := Memory.wf_clearOut h.wf
  ⟨hwf, h.nodes, h.counts, ⟨Nat.zero_le _, rfl⟩, h.res⟩

theorem writeOut (h : s.Sound) {b : List Byte} (hb : b.length ≤ Config.obufCap) : (s.writeOut b).Sound :=
  ⟨Memory.wf_writeOut h.wf hb, h.nodes, h.counts, .run hb, h.res⟩

theorem setRes (h : s.Sound) {r : Res} (hr : r.legal = true) : State.Sound { s with res := r } :=
  ⟨h.wf, h.nodes, h.counts, h.out, hr⟩

theorem report (h : s.Sound) (v : Slot) : (s.report v).Sound := by
  have hlegal := State.report_legal h.res v
  cases v <;> exact h.setRes hlegal

/-- `PQN` fits `RES.COUNT` (R35, R89). -/
theorem countQueue (h : s.Sound) : (s.setCount (BitVec.ofNat 32 s.heap.length)).Sound := by
  obtain ⟨hsym, hfreq, -⟩ := (Res.legal_iff _).mp h.res
  exact h.setRes ((Res.legal_iff _).mpr ⟨hsym, hfreq, (Nat.mod_le _ _).trans h.nodes.queueFits⟩)

theorem toReset (s : State) : s.toReset.Sound :=
  ⟨Memory.wf_toReset s, .empty, Nat.zero_le _, ⟨Nat.zero_le _, rfl⟩, rfl⟩

theorem clearEncoding (h : s.Sound) : s.clearEncoding.Sound :=
  (((h.clearFt.clearReg .n0).clearHeap).clearCt).clearBits

theorem clearDecoding (h : s.Sound) : s.clearDecoding.Sound := (h.clearReg .n0).clearOut

theorem clearCompress (h : s.Sound) : s.clearCompress.Sound := h.clearEncoding.clearOut

theorem clearDecompress (h : s.Sound) : s.clearDecompress.Sound := h.clearCt.clearBits.clearDecoding

/-- A command ends in a state that meets the invariant: `BUSY` falls (R36). -/
theorem endWith (h : s.Sound) (x : Completion) : (s.endWith x).Inv :=
  (State.inv_iff _).mpr ⟨⟨h.wf, h.nodes, h.counts, h.out, h.res⟩, rfl⟩

end State.Sound

end Sys2Proof.Machine
end

section
/-! PROOFS. Every step keeps the invariant (spec/10_state.md R21, R24 to R26, R33, R35 to R37): the trees the commands
make, command by command, then the host's moves. -/

namespace Sys2Proof.Machine

/-! ### The trees the commands make -/

/-- A Branch whose frequency is the exact sum of its children's keeps the frequency invariant (R21). -/
theorem Node.sumOk_branch {a b : Node} {f : Freq} (ha : a.sumOk = true) (hb : b.sumOk = true)
    (hf : f.toNat = a.freq.toNat + b.freq.toNat) : (Node.branch f (.node a) (.node b)).sumOk = true := by
  simp only [Node.sumOk, Slot.sumOk, Slot.freq, ha, hb, hf, beq_self_eq_true, Bool.and_self]

theorem leavesOf_sumOk (t : Cells Freq) : ∀ n ∈ leavesOf t, n.sumOk = true := by
  intro n hn
  obtain ⟨y, -, rfl⟩ := List.mem_map.mp hn
  rfl

theorem buildTree_of_no_keys {t : Cells Freq} (h : keysOf t = []) : buildTree t = .error .emptyInput := by
  simp [buildTree, leavesOf, h, mergeLoop, pqExtract]

/-- A built tree keeps the Branch frequency invariant (R21, spec/41_node_and_tree_builder.md R109). -/
theorem buildTree_sumOk {t : Cells Freq} {n : Node} (h : buildTree t = .ok n) : n.sumOk = true := by
  by_cases hsum : (allSyms.map fun y => (countAt t y).toNat).sum < 2 ^ 32
  · by_cases hk : keysOf t = []
    · rw [buildTree_of_no_keys hk] at h; cases h
    · obtain ⟨m, hm, hall⟩ := buildTree_induct (fun q => ∀ n ∈ q, n.sumOk = true)
        (fun _ _ hp hq n hn => hq n (hp.symm.subset hn))
        (fun a b rest f hf hq n hn => by
          rcases List.mem_cons.mp hn with rfl | hn
          · exact Node.sumOk_branch (hq a (by simp)) (hq b (by simp)) hf
          · exact hq n (by simp [hn]))
        t hk hsum (leavesOf_sumOk t)
      rw [hm] at h
      cases h
      exact hall n (List.mem_singleton_self n)
  · rw [buildTree_overflow t (Nat.le_of_not_lt hsum)] at h; cases h

theorem insertCode_zeroFreq {y : Sym} {c : Code} {v : Slot} {n : Node} (h : insertCode y c v = .ok n)
    (hv : v.zeroFreq = true) : n.zeroFreq = true := by
  induction c generalizing v n with
  | nil =>
    cases v with
    | absent => cases h; rfl
    | node m => cases h
  | cons d c ih =>
    match v with
    | .absent =>
      simp only [insertCode] at h
      split at h
      · cases h
      · next m hm =>
        cases h
        have hz := ih hm rfl
        cases d <;> simp [Node.zeroFreq, Slot.zeroFreq, hz]
    | .node (.leaf _ _) => cases h
    | .node (.branch f l r) =>
      simp only [Slot.zeroFreq, Node.zeroFreq, Bool.and_eq_true] at hv
      obtain ⟨⟨-, hl⟩, hr⟩ := hv
      simp only [insertCode] at h
      split at h
      · cases h
      · next m hm =>
        cases h
        have hz := ih hm (by cases d <;> simp [hl, hr])
        cases d <;> simp [Node.zeroFreq, Slot.zeroFreq, hz, hl, hr]

theorem insertCodes_zeroFreq {es : List (Sym × Code)} {root n : Node} (h : insertCodes es root = .ok n)
    (hr : root.zeroFreq = true) : n.zeroFreq = true := by
  induction es generalizing root with
  | nil => cases h; exact hr
  | cons e es ih =>
    simp only [insertCodes] at h
    split at h
    · cases h
    · split at h
      · cases h
      · next m hm => exact ih h (insertCode_zeroFreq hm hr)

/-- "every frequency is 0" in a reconstructed tree (spec/44_tree_reconstructor.md R127 (d)). -/
theorem treeFromCode_zeroFreq {c : CodeTable} {n : Node} (h : treeFromCode c = .ok n) : n.zeroFreq = true := by
  unfold treeFromCode treeFromEntries at h
  split at h
  · cases h; rfl
  · exact insertCodes_zeroFreq h rfl

mutual

theorem Node.freq_of_zeroFreq (n : Node) (h : n.zeroFreq = true) : n.freq = 0 := by
  match n with
  | .leaf y f => simpa [Node.zeroFreq] using h
  | .branch f l r => simp only [Node.zeroFreq, Bool.and_eq_true, beq_iff_eq] at h; exact h.1.1

theorem Slot.freq_of_zeroFreq (v : Slot) (h : v.zeroFreq = true) : v.freq = 0 := by
  match v with
  | .absent => rfl
  | .node n => exact Node.freq_of_zeroFreq n h

end

mutual

/-- Where every frequency is 0 the Branch frequency invariant holds (R21). -/
theorem Node.sumOk_of_zeroFreq (n : Node) (h : n.zeroFreq = true) : n.sumOk = true := by
  match n with
  | .leaf _ _ => rfl
  | .branch f l r =>
    simp only [Node.zeroFreq, Bool.and_eq_true, beq_iff_eq] at h
    obtain ⟨⟨rfl, hl⟩, hr⟩ := h
    simp [Node.sumOk, Slot.freq_of_zeroFreq l hl, Slot.freq_of_zeroFreq r hr, Slot.sumOk_of_zeroFreq l hl,
      Slot.sumOk_of_zeroFreq r hr]

theorem Slot.sumOk_of_zeroFreq (v : Slot) (h : v.zeroFreq = true) : v.sumOk = true := by
  match v with
  | .absent => rfl
  | .node n => exact Node.sumOk_of_zeroFreq n h

end

theorem treeFromCode_sumOk {c : CodeTable} {n : Node} (h : treeFromCode c = .ok n) : n.sumOk = true :=
  Node.sumOk_of_zeroFreq n (treeFromCode_zeroFreq h)

/-! ### The commands -/

section Commands

variable {s t : State}

theorem execPqInsert_inv {ra : NReg} (h : s.Sound) (ht : execPqInsert ra s = .next t) : t.Inv := by
  rcases execPqInsert_cases ra s with ⟨x, -, he⟩ | ⟨n, hr, hl, he⟩ <;> cases he.symm.trans ht
  · exact h.endWith x
  · exact (h.insert hr hl).endWith .ok

theorem execPqExtractmin_inv {rd : NReg} (h : s.Sound) (ht : execPqExtractmin rd s = .next t) : t.Inv := by
  rcases execPqExtractmin_cases rd s with ⟨-, he⟩ | ⟨m, q, hq, he⟩ <;> cases he.symm.trans ht
  · exact ((h.clearReg rd).report .absent).endWith .queueEmpty
  · exact ((h.extract hq rd).report (.node m)).endWith .ok

theorem execPqPeekmin_inv (h : s.Sound) (ht : execPqPeekmin s = .next t) : t.Inv := by
  rcases execPqPeekmin_cases s with ⟨-, he⟩ | ⟨m, q, -, he⟩ <;> cases he.symm.trans ht
  · exact (h.report .absent).endWith .queueEmpty
  · exact (h.report (.node m)).endWith .ok

theorem execNdLeaf_inv {rd : NReg} {y : Sym} (h : s.Sound) (ht : execNdLeaf rd y s = .next t) : t.Inv := by
  rcases execNdLeaf_cases rd y s with he | ⟨hl, he⟩ <;> cases he.symm.trans ht
  · exact h.endWith .capacityExceeded
  · exact (h.setNode rfl hl).endWith .ok

/-- Both children come out of registers, where the frequency invariant holds, and their sum is exact (R97, R98). -/
theorem execNdBranch_inv {rd ra rb : NReg} (h : s.Sound) (ht : execNdBranch rd ra rb s = .next t) : t.Inv := by
  rcases execNdBranch_cases rd ra rb s with ⟨x, -, he⟩ | ⟨a, b, -, ha, hb, hf, hl, he⟩ <;> cases he.symm.trans ht
  · exact h.endWith x
  · have hsa : (s.reg ra).sumOk = true := h.nodes.regSums ra
    have hsb : (s.reg rb).sumOk = true := h.nodes.regSums rb
    rw [ha] at hsa
    rw [hb] at hsb
    have hsum := Node.sumOk_branch hsa hsb (f := a.freq + b.freq) (by rw [BitVec.toNat_add, Nat.mod_eq_of_lt hf])
    exact (((h.clearReg ra).clearReg rb).setNode hsum hl).endWith .ok

theorem execFreq_inv (h : s.Sound) (ht : execFreq s = .next t) : t.Inv := by
  rcases execFreq_cases s with ⟨x, -, he⟩ | ⟨-, hl, he⟩ <;> cases he.symm.trans ht
  · exact h.clearFt.endWith x
  · exact (h.setFt (by rw [State.inputBytes_length]; omega)).endWith .ok

theorem execBuildtree_inv {rd : NReg} (h : s.Sound) (ht : execBuildtree rd s = .next t) : t.Inv := by
  rcases execBuildtree_cases rd s with ⟨x, -, he⟩ | ⟨n, -, hn, hl, he⟩ <;> cases he.symm.trans ht
  · exact (h.clearReg rd).clearHeap.endWith x
  · exact ((h.clearReg rd).clearHeap.setNode (buildTree_sumOk hn) hl).endWith .ok

theorem execBuildcode_inv {ra : NReg} (h : s.Sound) (ht : execBuildcode ra s = .next t) : t.Inv := by
  rcases execBuildcode_cases ra s with ⟨x, -, he⟩ | ⟨n, c, -, hc, he⟩ <;> cases he.symm.trans ht
  · exact h.clearCt.endWith x
  · exact (h.writeCodes (buildCode_storable hc)).endWith .ok

theorem execTreefromcode_inv {rd : NReg} (h : s.Sound) (ht : execTreefromcode rd s = .next t) : t.Inv := by
  rcases execTreefromcode_cases rd s with ⟨x, -, he⟩ | ⟨n, -, hn, hl, he⟩ <;> cases he.symm.trans ht
  · exact (h.clearReg rd).endWith x
  · exact ((h.clearReg rd).setNode (treeFromCode_sumOk hn) hl).endWith .ok

theorem execEncode_inv (h : s.Sound) (ht : execEncode s = .next t) : t.Inv := by
  rcases execEncode_cases s with ⟨x, -, he⟩ | ⟨n, c, -, hi, hn, hc, hl, hb, he⟩ <;> cases he.symm.trans ht
  · exact h.clearEncoding.endWith x
  · have hft := h.clearEncoding.setFt (b := s.inputBytes) (by rw [State.inputBytes_length]; omega)
    exact (((hft.setNode (buildTree_sumOk hn) hl).writeCodes (buildCode_storable hc)).writeBits hb).endWith .ok

theorem execDecode_inv (h : s.Sound) (ht : execDecode s = .next t) : t.Inv := by
  rcases execDecode_cases s with ⟨x, -, he⟩ | ⟨n, out, -, -, hn, -, hl, ho, he⟩ <;> cases he.symm.trans ht
  · exact h.clearDecoding.endWith x
  · exact ((h.clearDecoding.setNode (treeFromCode_sumOk hn) hl).writeOut ho).endWith .ok

/-- The sentinel makes the text one symbol longer than the input (spec/46_container_codec.md R139, R100). -/
theorem execCompress_inv (h : s.Sound) (ht : execCompress s = .next t) : t.Inv := by
  rcases execCompress_cases s with ⟨x, -, he⟩ | ⟨n, c, -, hi, -, -, hn, hc, hl, hb, ho, he⟩ <;> cases he.symm.trans ht
  · exact h.clearCompress.endWith x
  · have hft := h.clearCompress.clearEncoding.setFt (b := s.inputBytes ++ [Config.sentinel])
      (by rw [List.length_append, State.inputBytes_length, List.length_singleton]; omega)
    exact ((((hft.setNode (buildTree_sumOk hn) hl).writeCodes (buildCode_storable hc)).writeBits hb).writeOut
      ho).endWith .ok

theorem execDecompress_inv (h : s.Sound) (ht : execDecompress s = .next t) : t.Inv := by
  rcases execDecompress_cases s with ⟨x, -, he⟩ | ⟨c, rest, n, out, -, hp, hb, hn, -, hl, ho, he⟩ <;>
    cases he.symm.trans ht
  · exact h.clearDecompress.endWith x
  · have htree := h.clearDecompress.clearDecoding.setNode (treeFromCode_sumOk hn) hl
    exact (((htree.writeOut ho).writeCodes (parseContainer_storable hp)).writeBits hb).endWith .ok

/-- Every command ends in a state that meets the invariant. -/
theorem exec_inv {i : Instr} (h : s.Sound) (ht : exec i s = .next t) : t.Inv := by
  cases i with
  | clrstat => cases ht; exact (State.inv_iff _).mpr ⟨⟨h.wf, h.nodes, h.counts, h.out, h.res⟩, rfl⟩
  | reset => cases ht; exact (State.inv_iff _).mpr ⟨.toReset s, rfl⟩
  | pqClear => cases ht; exact h.clearHeap.endWith .ok
  | pqInsert ra => exact execPqInsert_inv h ht
  | pqExtractmin rd => exact execPqExtractmin_inv h ht
  | pqPeekmin => exact execPqPeekmin_inv h ht
  | pqSize => cases ht; exact h.countQueue.endWith .ok
  | ndLeaf rd y => exact execNdLeaf_inv h ht
  | ndBranch rd ra rb => exact execNdBranch_inv h ht
  | ndInfo ra => cases ht; exact (h.report _).endWith .ok
  | freq => exact execFreq_inv h ht
  | buildtree rd => exact execBuildtree_inv h ht
  | buildcode ra => exact execBuildcode_inv h ht
  | treefromcode rd => exact execTreefromcode_inv h ht
  | encode => exact execEncode_inv h ht
  | decode => exact execDecode_inv h ht
  | compress => exact execCompress_inv h ht
  | decompress => exact execDecompress_inv h ht

end Commands

/-! ### The host's moves -/

/-- A host write leaves alone all the host cannot write (spec/20_memory.md R54). -/
theorem State.hostWrite_frame (s : State) (loc : Loc) (x : Word) :
    (s.hostWrite loc x).regs = s.regs ∧ (s.hostWrite loc x).heap = s.heap ∧ (s.hostWrite loc x).ft = s.ft ∧
    (s.hostWrite loc x).olen = s.olen ∧ (s.hostWrite loc x).obuf = s.obuf ∧ (s.hostWrite loc x).res = s.res ∧
    (s.hostWrite loc x).status = s.status := by
  unfold State.hostWrite
  split
  · simp
  · cases loc with
    | reg r => simp only [State.writePlace, State.writeReg]; split <;> simp
    | ibuf a => simp only [State.writePlace]; split <;> simp
    | obuf a => simp [State.writePlace]
    | bits a => simp only [State.writePlace]; split <;> simp [State.writeBitsByte]
    | ft y => simp [State.writePlace]
    | ct k w => simp only [State.writePlace]; split <;> simp [State.writeCt, State.putEntry]

theorem State.Sound.hostWrite {s : State} (h : s.Sound) (loc : Loc) (x : Word) : (s.hostWrite loc x).Sound := by
  obtain ⟨hregs, hheap, hft, holen, hobuf, hres, -⟩ := s.hostWrite_frame loc x
  exact ⟨Memory.wf_hostWrite h.wf loc x, by rw [hregs, hheap]; exact h.nodes, by rw [hft]; exact h.counts,
    by rw [holen, hobuf]; exact h.out, by rw [hres]; exact h.res⟩

theorem State.Inv.hostWrite {s : State} (h : s.Inv) (loc : Loc) (x : Word) : (s.hostWrite loc x).Inv := by
  obtain ⟨hsound, hbusy⟩ := (State.inv_iff s).mp h
  obtain ⟨-, -, -, -, -, -, hstatus⟩ := s.hostWrite_frame loc x
  exact (State.inv_iff _).mpr ⟨hsound.hostWrite loc x, by rw [hstatus]; exact hbusy⟩

/-- A command issued by the host: it runs in the state in which `BUSY` is 1 (R36). -/
theorem issue_inv {s t : State} {w : Word} (h : s.Inv) (ht : issue w s = .next t) : t.Inv := by
  obtain ⟨hsound, -⟩ := (State.inv_iff s).mp h
  have hstart : s.startCommand.Sound := ⟨hsound.wf, hsound.nodes, hsound.counts, hsound.out, hsound.res⟩
  unfold issue at ht
  split at ht
  · exact exec_inv hstart ht
  · cases ht; exact hstart.endWith .illegalOperation

theorem takeStep_inv {s t : State} {m : Move} (h : s.Inv) (ht : takeStep m s = .next t) : t.Inv := by
  unfold takeStep at ht
  split at ht
  · split at ht
    · cases ht; exact h
    · exact issue_inv h ht
  · cases ht; exact h.hostWrite _ _
  · cases ht
    obtain ⟨hsound, hbusy⟩ := (State.inv_iff s).mp h
    exact (State.inv_iff _).mpr ⟨⟨hsound.wf, hsound.nodes, hsound.counts, hsound.out, hsound.res⟩, hbusy⟩
  · cases ht; exact (State.inv_iff _).mpr ⟨.toReset s, rfl⟩

/-- Taking a move off the host's list touches no piece of state the invariant speaks of. -/
theorem State.Inv.takeMove {s : State} (h : s.Inv) (rest : List Move) : (s.takeMove rest).Inv := by
  obtain ⟨hsound, hbusy⟩ := (State.inv_iff s).mp h
  exact (State.inv_iff _).mpr ⟨⟨hsound.wf, hsound.nodes, hsound.counts, hsound.out, hsound.res⟩, hbusy⟩

/-- Settles O20: command by command from the rules of the updates, then the host's other moves. -/
theorem everyStepKeepsInvariant : Obligations.EveryStepKeepsInvariant := by
  intro s t h ht
  unfold step stepHost at ht
  split at ht
  · cases ht; exact h
  · exact takeStep_inv (h.takeMove _) ht

/-- Settles O19: the reset state is what a reset of it leaves. -/
theorem resetStateMeetsInvariant : Obligations.ResetStateMeetsInvariant :=
  (State.inv_iff _).mpr ⟨.toReset State.reset, rfl⟩

end Sys2Proof.Machine
end

section
/-! PROOFS. The host's port (spec/20_memory.md R41 to R44, R51 to R57; spec/10_state.md R37): what its reads show, what its
writes store, and what the next command reads of it. -/

namespace Sys2Proof.Machine

/-! ### The register words -/

theorem toNat_append_eq_add {m n : Nat} (x : BitVec m) (y : BitVec n) :
    (x ++ y).toNat = x.toNat * 2 ^ n + y.toNat := by
  rw [BitVec.toNat_append, ← Nat.shiftLeft_add_eq_or_of_lt y.isLt, Nat.shiftLeft_eq]

theorem Status.word_toNat {st : Status} (h : st.busy = false) :
    st.word.toNat = st.code.number.toNat + 16 * st.fatal.toNat := by
  have hcode := st.code.number.isLt
  have hfatal := Bool.toNat_lt st.fatal
  simp only [Status.word, BitVec.toNat_setWidth, toNat_append_eq_add, BitVec.toNat_ofBool, h, Bool.toNat_false]
  omega

theorem Res.nodeWord_toNat (r : Res) : r.nodeWord.toNat = r.kind.number.toNat + 256 * r.sym.toNat := by
  have hkind := r.kind.number.isLt
  have hsym := r.sym.isLt
  simp only [Res.nodeWord, BitVec.toNat_setWidth, toNat_append_eq_add]
  omega

theorem NodeRegs.validWord_toNat (n : NodeRegs) : n.validWord.toNat =
    n.n0.present.toNat + 2 * n.n1.present.toNat + 4 * n.n2.present.toNat + 8 * n.n3.present.toNat := by
  have h0 := Bool.toNat_lt n.n0.present
  have h1 := Bool.toNat_lt n.n1.present
  have h2 := Bool.toNat_lt n.n2.present
  have h3 := Bool.toNat_lt n.n3.present
  simp only [NodeRegs.validWord, BitVec.toNat_setWidth, toNat_append_eq_add, BitVec.toNat_ofBool]
  omega

theorem State.hostRead_of_idle {s : State} (h : s.status.busy = false) (loc : Loc) :
    s.hostRead loc = s.readPlace loc := by
  simp [State.hostRead, h]

theorem State.hostWrite_of_idle {s : State} (h : s.status.busy = false) (loc : Loc) (x : Word) :
    s.hostWrite loc x = s.writePlace loc x := by
  simp [State.hostWrite, h]

theorem State.hostWrite_of_busy {s : State} (h : s.status.busy = true) (loc : Loc) (x : Word) :
    s.hostWrite loc x = s := by
  simp [State.hostWrite, h]

/-- A register number the layout table does not list reads 0 (R37). -/
theorem State.readReg_of_unlisted (s : State) {r : Nat} (h : 10 < r) : s.readReg r = 0 := by
  obtain ⟨k, rfl⟩ : ∃ k, r = k + 11 := ⟨r - 11, by omega⟩
  rfl

/-- Settles O11: the words put together from fields by their values, the rest as the read is defined. -/
theorem controlRegistersReadAsLaidOut : Obligations.ControlRegistersReadAsLaidOut := by
  intro s h
  simp only [State.hostRead_of_idle h]
  exact ⟨Status.word_toNat h, rfl, rfl, rfl, rfl, BitVec.toNat_ofNat _ _, Res.nodeWord_toNat _, rfl, rfl,
    NodeRegs.validWord_toNat _, rfl, fun r hr => s.readReg_of_unlisted hr⟩

/-! ### Control register writes -/

/-- A register number that is none of the three writable ones ignores a write (R37). -/
theorem State.writeReg_of_readOnly (s : State) {r : Nat} (h2 : r ≠ 2) (h3 : r ≠ 3) (h5 : r ≠ 5) (x : Word) :
    s.writeReg r x = s := by
  unfold State.writeReg
  split
  · exact absurd rfl h2
  · exact absurd rfl h3
  · exact absurd rfl h5
  · rfl

/-- A write of a place that is not `CMD` is the host write (R54, R57). -/
theorem takeStep_write {s : State} {loc : Loc} (h : loc ≠ .reg 0) (x : Word) :
    takeStep (.write loc x) s = .next (s.hostWrite loc x) := by
  unfold takeStep
  split
  · next heq => cases heq; exact absurd rfl h
  · next heq => cases heq; rfl
  · next heq => cases heq
  · next heq => cases heq

theorem step_of_host {s : State} {m : Move} {rest : List Move} (h : s.host = m :: rest) :
    step s = takeStep m { s with host := rest, draws := s.draws + 1 } := by
  simp only [step, stepHost, h, State.takeMove]

/-- Settles O12: the step by its move, then the places one by one. -/
theorem controlRegisterWrites : Obligations.ControlRegisterWrites := by
  refine ⟨fun s loc x rest hh hloc => ?_, fun s x rest hh hb => ?_, fun s loc x hb => s.hostWrite_of_busy hb loc x,
    fun s x hb => ?_, fun s loc x => ?_⟩
  · rw [step_of_host hh, takeStep_write hloc]
  · rw [step_of_host hh]
    exact if_pos hb
  · simp only [State.hostWrite_of_idle hb]
    exact ⟨rfl, rfl, rfl, fun r _ h2 h3 h5 => s.writeReg_of_readOnly h2 h3 h5 x⟩
  · cases hb : s.status.busy
    · rw [State.hostWrite_of_idle hb]
      split
      · rfl
      · rfl
      · rfl
      · simp only [State.writePlace]; split <;> rfl
      · simp only [State.writePlace]; split <;> rfl
      · simp only [State.writePlace]; split <;> rfl
      · next r h2 h3 h5 => exact s.writeReg_of_readOnly h2 h3 h5 x
      · rfl
      · rfl
    · rw [State.hostWrite_of_busy hb]
      split <;> rfl

/-- Settles O6: the move is a write of `CMD`, and the word decodes. -/
theorem stepRunsTheDecodedCommand : Obligations.StepRunsTheDecodedCommand := by
  intro s w rest i hh hb hd
  rw [step_of_host hh]
  have hissue : ∀ u : State, u.status.busy = false → takeStep (.write (.reg 0) w) u = exec i u.startCommand := by
    intro u hu
    simp only [takeStep, hu, issue, hd]
    rfl
  exact hissue _ hb

/-! ### `IBUF` (R42) -/

theorem State.hostWrite_ibuf {s : State} (hb : s.status.busy = false) {a : Nat} (ha : a < Config.ibufCap) (x : Word) :
    s.hostWrite (.ibuf a) x = s.setIbuf (Cells.put s.ibuf a (x.setWidth 8)) := by
  rw [State.hostWrite_of_idle hb, State.writePlace, if_pos ha]

theorem State.hostWrite_ibuf_out (s : State) {a : Nat} (ha : Config.ibufCap ≤ a) (x : Word) :
    s.hostWrite (.ibuf a) x = s := by
  simp [State.hostWrite, State.writePlace, Nat.not_lt.mpr ha]

theorem State.hostRead_ibuf {s : State} (hb : s.status.busy = false) {a : Nat} (ha : a < Config.ibufCap) :
    s.hostRead (.ibuf a) = ((Cells.get s.ibuf a).getD (Config.freeInput s.draws a)).setWidth 32 := by
  rw [State.hostRead_of_idle hb, State.readPlace, if_pos ha]

/-- Settles O13: a read after a write of `IBUF`, cell by cell, and the window a command reads. -/
theorem inputBufferReadAfterWrite : Obligations.InputBufferReadAfterWrite := by
  intro s a x hb
  refine ⟨fun ha => ?_, fun ha => s.hostWrite_ibuf_out ha x,
    fun hwf => ⟨s.inputBytes_length, fun b hbl hbc => ?_⟩⟩
  · rw [State.hostWrite_ibuf hb ha]
    have hb' : (s.setIbuf (Cells.put s.ibuf a (x.setWidth 8))).status.busy = false := hb
    refine ⟨?_, fun b hne => ?_, fun hwf u hu hlen => ?_⟩
    · rw [State.hostRead_ibuf hb' ha, State.setIbuf_ibuf, Cells.get_put, if_pos rfl, Option.getD_some,
        BitVec.toNat_setWidth, BitVec.toNat_setWidth]
      omega
    · rw [State.hostRead_of_idle hb, State.hostRead_of_idle hb']
      simp only [State.readPlace, State.setIbuf_ibuf, State.setIbuf_draws, Cells.get_put, if_neg hne]
    · obtain ⟨hrising, -⟩ := (Memory.wf_iff _).mp (Memory.wf_putInput hwf ha (x.setWidth 8))
      rw [← hu] at hrising
      rw [State.inputBytes, Cells.getElem?_window _ _ _ hrising hlen, hu, State.setIbuf_ibuf, Cells.get_put, if_pos rfl,
        Option.getD_some]
  · rw [State.inputBytes_getElem? hwf hbl, State.hostRead_ibuf hb hbc, BitVec.setWidth_setWidth_of_le _ (by decide),
      BitVec.setWidth_eq]

/-! ### `BITS` (R44) -/

theorem State.hostWrite_bits {s : State} (hb : s.status.busy = false) {a : Nat} (ha : a < Config.bitCap / 8) (x : Word) :
    s.hostWrite (.bits a) x = s.writeBitsByte a (x.setWidth 8) := by
  rw [State.hostWrite_of_idle hb, State.writePlace, if_pos ha]

/-- A byte written stores bit `k` of the sequence from bit `7 - (k mod 8)` of byte `k div 8`, and no other bit. -/
theorem State.get_writeBitsByte (s : State) (a k : Nat) (x : Byte) :
    Cells.get (s.writeBitsByte a x).bits k =
      if k / 8 = a then some (x.getLsbD (7 - k % 8)) else Cells.get s.bits k := by
  rw [State.writeBitsByte, State.setBits_bits, Cells.get_putRun, bitsOfByte_length]
  by_cases hk : k / 8 = a
  · rw [if_pos hk, if_pos (by omega), show k - 8 * a = k % 8 by omega, bitsOfByte_getElem? x (by omega)]
  · rw [if_neg hk, if_neg (by omega)]

/-- The byte of a word, bit by bit. -/
theorem getLsbD_lowByte (x : Word) (k : Nat) : (x.setWidth 8).getLsbD (7 - k % 8) = x.getLsbD (7 - k % 8) := by
  rw [BitVec.getLsbD_setWidth, decide_eq_true (by omega), Bool.true_and]

/-- Bit `7 - (k mod 8)` of byte `k div 8` of the space is bit `k` as the port shows it. -/
theorem State.hostRead_bits {s : State} (hb : s.status.busy = false) {k : Nat} (hk : k < Config.bitCap) :
    (s.hostRead (.bits (k / 8))).getLsbD (7 - k % 8) = s.readBit k := by
  have ha : k / 8 < Config.bitCap / 8 := by simp only [Config.bitCap] at hk ⊢; omega
  rw [State.hostRead_of_idle hb, State.readPlace, if_pos ha, BitVec.getLsbD_setWidth, decide_eq_true (by omega),
    Bool.true_and, State.readBitsByte_getLsbD s _ _ (Nat.mod_lt k (by decide)), Nat.div_add_mod]

/-- Settles O14: the bits a write stores, and the window a command reads, bit by bit. -/
theorem bitBufferWriteIsMsbFirst : Obligations.BitBufferWriteIsMsbFirst := by
  intro s a k x hb
  refine ⟨fun ha => ?_, fun hwf => ⟨s.inputBits_length, fun hkn hkc => ?_⟩⟩
  · have hget := s.get_writeBitsByte a k (x.setWidth 8)
    rw [getLsbD_lowByte] at hget
    rw [State.hostWrite_bits hb ha]
    refine ⟨rfl, hget, fun hwf u hu hk hlen => ?_⟩
    obtain ⟨-, -, hrising, -⟩ := (Memory.wf_iff _).mp (Memory.wf_writeBitsByte hwf ha (x.setWidth 8))
    rw [← hu] at hrising
    rw [State.inputBits, Cells.getElem?_window _ _ _ hrising hlen, hu, hget, if_pos hk, Option.getD_some]
  · rw [State.inputBits_getElem? hwf hkn, State.hostRead_bits hb hkc, State.readBit, if_pos hkn]

end Sys2Proof.Machine
end

section
/-! PROOFS. What the commands leave: the reset state, the end of a command and its frame over the tables and buffers
(spec/60_exceptions.md R159, R163; spec/70_reset_and_hazards.md R183), and the raises of `TREEFROMCODE`. -/

namespace Sys2Proof.Machine

/-! ### `RESET` -/

/-- Settles O17: field by field. -/
theorem resetLeavesTheResetState : Obligations.ResetLeavesTheResetState :=
  ⟨by decide, fun s => ⟨s.toReset, rfl, fun r => by cases r <;> rfl, rfl, fun _ => rfl, fun _ => rfl, rfl, rfl, rfl, rfl,
    rfl, rfl, rfl, rfl, rfl, rfl⟩⟩

/-! ### The end and the frame of every command -/

/-- What command `i` leaves as it was in `s`: the input, and of the tables and buffers those its row of R183 does not
name. -/
structure Keeps (i : Instr) (s u : State) : Prop where
  input : u.ilen = s.ilen ∧ u.ibuf = s.ibuf
  out : writesOut i = false → u.olen = s.olen ∧ u.obuf = s.obuf
  bits : writesBits i = false → u.bitn = s.bitn ∧ u.bits = s.bits
  ft : writesFt i = false → u.ft = s.ft
  ct : writesCt i = false → u.ct = s.ct
  draws : u.draws = s.draws

/-- Every command but the two that write `STATUS` themselves ends with a code, which is all it does to `STATUS`, and
keeps its frame (R163, R183). -/
theorem exec_ends {i : Instr} (s : State) (hc : i ≠ .clrstat) (hr : i ≠ .reset) :
    ∃ u x, exec i s = .next (State.endWith x u) ∧ u.status = s.status ∧ Keeps i s u := by
  cases i with
  | clrstat => exact absurd rfl hc
  | reset => exact absurd rfl hr
  | pqClear => exact ⟨_, _, rfl, by simp, by constructor <;> simp⟩
  | pqInsert ra =>
    rcases execPqInsert_cases ra s with ⟨x, -, he⟩ | ⟨n, -, -, he⟩ <;> exact ⟨_, _, he, by simp, by constructor <;> simp⟩
  | pqExtractmin rd =>
    rcases execPqExtractmin_cases rd s with ⟨-, he⟩ | ⟨m, h, -, he⟩ <;> exact ⟨_, _, he, by simp, by constructor <;> simp⟩
  | pqPeekmin =>
    rcases execPqPeekmin_cases s with ⟨-, he⟩ | ⟨m, h, -, he⟩ <;> exact ⟨_, _, he, by simp, by constructor <;> simp⟩
  | pqSize => exact ⟨_, _, rfl, by simp, by constructor <;> simp⟩
  | ndLeaf rd y =>
    rcases execNdLeaf_cases rd y s with he | ⟨-, he⟩ <;> exact ⟨_, _, he, by simp, by constructor <;> simp⟩
  | ndBranch rd ra rb =>
    rcases execNdBranch_cases rd ra rb s with ⟨x, -, he⟩ | ⟨a, b, -, -, -, -, -, he⟩ <;>
      exact ⟨_, _, he, by simp, by constructor <;> simp⟩
  | ndInfo ra => exact ⟨_, _, rfl, by simp, by constructor <;> simp⟩
  | freq =>
    rcases execFreq_cases s with ⟨x, -, he⟩ | ⟨-, -, he⟩ <;> exact ⟨_, _, he, by simp, by constructor <;> simp [writesFt]⟩
  | buildtree rd =>
    rcases execBuildtree_cases rd s with ⟨x, -, he⟩ | ⟨n, -, -, -, he⟩ <;> exact ⟨_, _, he, by simp, by constructor <;> simp⟩
  | buildcode ra =>
    rcases execBuildcode_cases ra s with ⟨x, -, he⟩ | ⟨n, c, -, -, he⟩ <;>
      exact ⟨_, _, he, by simp, by constructor <;> simp [writesCt]⟩
  | treefromcode rd =>
    rcases execTreefromcode_cases rd s with ⟨x, -, he⟩ | ⟨n, -, -, -, he⟩ <;>
      exact ⟨_, _, he, by simp, by constructor <;> simp⟩
  | encode =>
    rcases execEncode_cases s with ⟨x, -, he⟩ | ⟨n, c, -, -, -, -, -, -, he⟩ <;>
      exact ⟨_, _, he, by simp, by constructor <;> simp [writesFt, writesCt, writesBits]⟩
  | decode =>
    rcases execDecode_cases s with ⟨x, -, he⟩ | ⟨n, out, -, -, -, -, -, -, he⟩ <;>
      exact ⟨_, _, he, by simp, by constructor <;> simp [writesOut]⟩
  | compress =>
    rcases execCompress_cases s with ⟨x, -, he⟩ | ⟨n, c, -, -, -, -, -, -, -, -, -, he⟩ <;>
      exact ⟨_, _, he, by simp, by constructor <;> simp [writesFt, writesCt, writesBits, writesOut]⟩
  | decompress =>
    rcases execDecompress_cases s with ⟨x, -, he⟩ | ⟨c, rest, n, out, -, -, -, -, -, -, -, he⟩ <;>
      exact ⟨_, _, he, by simp, by constructor <;> simp [writesCt, writesBits, writesOut]⟩

/-- Settles O21: every other command ends as R163 says, and these two write `STATUS` themselves. -/
theorem fatalFlagIsSticky : Obligations.FatalFlagIsSticky := by
  intro i s t ht
  by_cases hc : i = .clrstat
  · subst hc; cases ht
    exact ⟨rfl, fun _ => rfl, fun h => absurd rfl h⟩
  by_cases hr : i = .reset
  · subst hr; cases ht
    exact ⟨rfl, fun _ => rfl, fun _ h => absurd rfl h⟩
  obtain ⟨u, x, he, hstatus, -⟩ := exec_ends s hc hr
  cases he.symm.trans ht
  rw [State.endWith_status, hstatus]
  exact ⟨rfl, fun h => absurd h (not_or_intro hc hr), fun _ _ => rfl⟩

/-! ### The frame as the port shows it -/

section Ports

variable {s t : State}

theorem State.readPlace_ibuf_congr (hbuf : t.ibuf = s.ibuf) (hdraws : t.draws = s.draws) (a : Nat) :
    t.readPlace (.ibuf a) = s.readPlace (.ibuf a) := by
  simp only [State.readPlace, hbuf, hdraws]

theorem State.readPlace_obuf_congr (hlen : t.olen = s.olen) (hbuf : t.obuf = s.obuf) (hdraws : t.draws = s.draws)
    (a : Nat) : t.readPlace (.obuf a) = s.readPlace (.obuf a) := by
  simp only [State.readPlace, hlen, hbuf, hdraws]

theorem State.readPlace_bits_congr (hlen : t.bitn = s.bitn) (hbuf : t.bits = s.bits) (hdraws : t.draws = s.draws)
    (a : Nat) : t.readPlace (.bits a) = s.readPlace (.bits a) := by
  simp only [State.readPlace, State.readBitsByte, State.readBit, hlen, hbuf, hdraws]

theorem State.readPlace_ft_congr (hft : t.ft = s.ft) (hdraws : t.draws = s.draws) (y : Nat) :
    t.readPlace (.ft y) = s.readPlace (.ft y) := by
  simp only [State.readPlace, hft, hdraws]

theorem State.readPlace_ct_congr (hct : t.ct = s.ct) (hdraws : t.draws = s.draws) (y w : Nat) :
    t.readPlace (.ct y w) = s.readPlace (.ct y w) := by
  simp only [State.readPlace, State.readCt, State.ctEntry, hct, hdraws]

end Ports

/-- The frame of a command that is not `RESET`; of `CLRSTAT` too, which writes nothing but `STATUS`. -/
theorem exec_keeps {i : Instr} {s t : State} (hr : i ≠ .reset) (ht : exec i s = .next t) :
    Keeps i s t := by
  by_cases hc : i = .clrstat
  · subst hc; cases ht
    constructor <;> simp
  · obtain ⟨u, x, he, -, hkeeps⟩ := exec_ends s hc hr
    cases he.symm.trans ht
    exact ⟨hkeeps.input, hkeeps.out, hkeeps.bits, hkeeps.ft, hkeeps.ct, hkeeps.draws⟩

/-- Settles O25: what a command keeps, and what the port shows of it; the reset writes every table and buffer. -/
theorem tablesAndBuffersFrame : Obligations.TablesAndBuffersFrame := by
  intro i s t ht
  by_cases hr : i = .reset
  · subst hr
    exact ⟨fun h => absurd rfl h, nofun, nofun, nofun, nofun⟩
  obtain ⟨⟨hilen, hibuf⟩, hout, hbits, hft, hct, hdraws⟩ := exec_keeps hr ht
  refine ⟨fun _ => ⟨hilen, hibuf, State.readPlace_ibuf_congr hibuf hdraws⟩, fun h => ?_, fun h => ?_,
    fun h => ⟨hft h, State.readPlace_ft_congr (hft h) hdraws⟩, fun h => ⟨hct h, State.readPlace_ct_congr (hct h) hdraws⟩⟩
  · obtain ⟨holen, hobuf⟩ := hout h
    exact ⟨holen, hobuf, State.readPlace_obuf_congr holen hobuf hdraws⟩
  · obtain ⟨hbitn, hbuf⟩ := hbits h
    exact ⟨hbitn, hbuf, State.readPlace_bits_congr hbitn hbuf hdraws⟩

/-! ### The raises of `TREEFROMCODE` (spec/44_tree_reconstructor.md R126) -/

theorem execTreefromcode_of_no_entries {s : State} (rd : NReg) (h : entriesOf s.codes = []) :
    execTreefromcode rd s = .next ((s.setReg rd .absent).endWith .emptyInput) := by
  simp only [execTreefromcode, h, if_true, State.conclude_error]

theorem execTreefromcode_of_error {s : State} (rd : NReg) {x : Completion} (hne : entriesOf s.codes ≠ [])
    (h : treeFromCode s.codes = .error x) :
    execTreefromcode rd s = .next ((s.setReg rd .absent).endWith x) := by
  simp only [execTreefromcode, hne, h, if_false, State.conclude_error]

theorem execTreefromcode_of_live {s : State} (rd : NReg) {n : Node} (hne : entriesOf s.codes ≠ [])
    (h : treeFromCode s.codes = .ok n) (hl : Config.nodeCap < ((s.setReg rd .absent).setReg rd (.node n)).live) :
    execTreefromcode rd s = .next ((s.setReg rd .absent).endWith .capacityExceeded) := by
  simp only [execTreefromcode, hne, h, if_false, State.checkLive_of_lt hl, State.conclude_error]

/-- `Live` with a Node put into a cleared register (R24). -/
theorem State.live_setReg_cleared (s : State) (r : NReg) (n : Node) :
    ((s.setReg r .absent).setReg r (.node n)).live = (s.regs.set r .absent).live + heapLive s.heap + n.size := by
  have hlive := NodeRegs.live_set (s.regs.set r .absent) r (.node n)
  rw [NodeRegs.get_set_same, Slot.size_absent, Slot.size_node] at hlive
  simp only [State.live, State.setReg_regs, State.setReg_heap]
  omega

theorem prefixFree_of_no_entries {c : CodeTable} (h : entriesOf c = []) : prefixFree c := by
  intro x y b d _ hx
  rw [(entriesOf_eq_nil c).mp h x] at hx
  cases hx

/-- Settles O44: the three tests in their order, each ending in the cleared register. -/
theorem treefromcodeRaises : Obligations.TreefromcodeRaises := by
  intro s rd failed
  have hfailed (x : Completion) : .next ((s.setReg rd .absent).endWith x) = failed (s.status.ending x) := rfl
  refine ⟨fun h => ?_, fun h => ?_, fun n hne hn hl => ?_⟩
  · have hnone : entriesOf s.codes = [] := (entriesOf_eq_nil _).mpr fun y => (s.codeAt_codes y).trans (h y)
    rw [← Status.ending_emptyInput, ← hfailed]
    exact execTreefromcode_of_no_entries rd hnone
  · have hne : entriesOf s.codes ≠ [] := fun hnil => h (prefixFree_of_no_entries hnil)
    rw [← Status.ending_structuralInconsistency s.status, ← hfailed]
    rcases treeFromCode_cases hne with ⟨n, -, -, hfree, -⟩ | ⟨herr, -⟩
    · exact absurd hfree h
    · exact execTreefromcode_of_error rd hne herr
  · rw [← Status.ending_capacityExceeded s.status, ← hfailed]
    exact execTreefromcode_of_live rd hne hn (by rw [State.live_setReg_cleared]; exact hl)

end Sys2Proof.Machine
end

section
/-! PROOFS. The rest of the host's port: a read leaves the state, the spaces a host cannot write, and the entries of `CT`
as the host's words make them (spec/20_memory.md R41, R43, R45, R46, R49, R52; P2-2). -/

namespace Sys2Proof.Machine

/-! ### Reads -/

/-- Settles O9: the move is a read, which hands the word over to the port. -/
theorem hostReadChangesNothing : Obligations.HostReadChangesNothing := by
  intro s loc rest hh
  rw [step_of_host hh]
  rfl

/-! ### Writes that are ignored -/

/-- A place the model ignores a write of while `BUSY` is 0 ignores it always (R56). -/
theorem State.hostWrite_of_ignored {s : State} {loc : Loc} {x : Word} (h : s.writePlace loc x = s) :
    s.hostWrite loc x = s := by
  rw [State.hostWrite, h, ite_self]

theorem State.hostWrite_bits_out (s : State) {a : Nat} (ha : Config.bitCap / 8 ≤ a) (x : Word) :
    s.hostWrite (.bits a) x = s :=
  State.hostWrite_of_ignored (if_neg (Nat.not_lt.mpr ha))

theorem State.hostWrite_ct_outside (s : State) {k w : Nat} (h : 256 ≤ k ∨ 9 ≤ w) (x : Word) :
    s.hostWrite (.ct k w) x = s :=
  State.hostWrite_of_ignored (if_neg (by simp only [Bool.and_eq_true, decide_eq_true_eq]; omega))

/-! ### Reads of `FT` and `OBUF` -/

theorem State.hostRead_ft {s : State} (hb : s.status.busy = false) (y : Sym) :
    s.hostRead (.ft y.toNat) = countAt s.ft y := by
  rw [State.hostRead_of_idle hb, State.readPlace, if_pos y.isLt, BitVec.ofNat_toNat, BitVec.setWidth_eq]

theorem State.hostRead_obuf {s : State} (hb : s.status.busy = false) {a : Nat} (hcap : a < Config.obufCap)
    (hlen : a < s.olen.toNat) :
    s.hostRead (.obuf a) = ((Cells.get s.obuf a).getD (Config.freeOutput s.draws a)).setWidth 32 := by
  rw [State.hostRead_of_idle hb, State.readPlace, if_pos hcap, if_pos hlen]

/-- Settles O16: space by space, the output as the window of `OBUF` below `OLEN`. -/
theorem readOnlySpacesIgnoreWrites : Obligations.ReadOnlySpacesIgnoreWrites := by
  intro s x a w
  refine ⟨State.hostWrite_of_ignored rfl, State.hostWrite_of_ignored rfl, State.hostRead_ft,
    fun hb hwf => ⟨Cells.window_length _ _ _ _, fun hlen hcap => ?_⟩,
    fun ha => s.hostWrite_bits_out ha x, fun h => s.hostWrite_ct_outside h x⟩
  rw [State.output_getElem? hwf hlen, State.hostRead_obuf hb hcap hlen, BitVec.setWidth_setWidth_of_le _ (by decide),
    BitVec.setWidth_eq]

/-! ### One entry of `CT` -/

namespace CtEntry

variable {e : CtEntry}

theorem code_eq_none_iff : e.code = none ↔ e.len = none := Option.map_eq_none_iff

theorem wf_setCodeWords (h : e.wf = true) (ws : Nat → Word) (n : Nat) : (e.setCodeWords ws n).wf = true := by
  cases n with
  | zero => exact h
  | succ n => rw [setCodeWords_succ]; exact wf_setCodeWord _ _ _

/-- The code of a present entry by its stored bits, whatever function gives those below the length. -/
theorem code_of_bits (h : e.wf = true) {n : Byte} (hn : e.len = some n) {f : Nat → Bool}
    (hf : ∀ j < n.toNat, (e.bits[j]?).getD false = f j) : e.code = some ((List.range n.toNat).map f) := by
  rw [code_of_len hn h]
  exact congrArg some (List.map_congr_left fun j hj => hf j (List.mem_range.mp hj))

theorem code_length (h : e.wf = true) {n : Byte} (hn : e.len = some n) : (e.code.getD []).length = n.toNat := by
  rw [code_of_len hn h, Option.getD_some, List.length_map, List.length_range]

theorem takesWord_of_absent (h : e.len = none) (v : Nat) : e.takesWord v = true := by
  simp [takesWord, h]

theorem takesWord_of_present {n : Byte} (h : e.len = some n) (v : Nat) :
    e.takesWord v = decide (32 * v < n.toNat) := by
  simp [takesWord, inCode, h]

theorem code_length_lt (h : e.wf = true) : (e.code.getD []).length < 256 := by
  cases hn : e.len with
  | none => simp [code, hn]
  | some n => rw [code_length h hn]; exact n.isLt

/-- A present entry takes the code words its code reaches (P2-2). -/
theorem takesWord_eq_reaches (h : e.wf = true) (hpresent : e.code ≠ none) (v : Nat) :
    e.takesWord v = decide (32 * v < (e.code.getD []).length) := by
  obtain ⟨n, hn⟩ := Option.ne_none_iff_exists'.mp (mt code_eq_none_iff.mpr hpresent)
  rw [code_length h hn, takesWord_of_present hn]

/-! What word 0 makes of the stored bits (R46). -/

theorem setWord0_len_of_present {x : Word} (hx : x.getLsbD 8 = true) :
    (e.setWord0 x).len = some (x.extractLsb' 0 8) := by
  rw [setWord0_len, if_pos hx]

theorem code_setWord0_of_absent {x : Word} (hx : x.getLsbD 8 = false) : (e.setWord0 x).code = none := by
  rw [code_eq_none_iff, setWord0_len, hx]
  rfl

theorem lengthField_toNat (x : Word) : (x.extractLsb' 0 8).toNat = x.toNat % 256 := by
  rw [BitVec.extractLsb'_toNat, Nat.shiftRight_zero]

theorem code_setWord0_of_bits (h : e.wf = true) {x : Word} (hx : x.getLsbD 8 = true) {f : Nat → Bool}
    (hf : ∀ j < x.toNat % 256, (e.bits[j]?).getD false = f j) :
    (e.setWord0 x).code = some ((List.range (x.toNat % 256)).map f) := by
  rw [← lengthField_toNat] at hf ⊢
  exact code_of_bits (wf_setWord0 h x) (setWord0_len_of_present hx) hf

/-- The code that word 0 and the eight code words spell, word 0 written first: each code word that holds a bit of the
code starts below its length, so it is taken. -/
theorem code_setCodeWords_setWord0 (h : e.wf = true) {x : Word} (hx : x.getLsbD 8 = true) (ws : Nat → Word) :
    ((e.setWord0 x).setCodeWords ws 8).code =
      some ((List.range (x.toNat % 256)).map fun j => (ws (j / 32)).getLsbD (31 - j % 32)) := by
  have hlen := setWord0_len_of_present (e := e) hx
  rw [← lengthField_toNat]
  refine code_of_bits (wf_setCodeWords (wf_setWord0 h x) ws 8) ((setCodeWords_len _ _ _).trans hlen) fun j hj => ?_
  have hbyte := (x.extractLsb' 0 8).isLt
  have htakes : (e.setWord0 x).takesWord (j / 32) = true := by
    rw [takesWord_of_present hlen, decide_eq_true_eq]; omega
  rw [setCodeWords_bits _ _ _ (by simp only [Config.maxCodeLen]; omega), if_pos ⟨by omega, htakes⟩]

/-- The same with word 0 written last, in an entry that was absent: there every code word is taken. -/
theorem code_setWord0_setCodeWords (h : e.wf = true) (habsent : e.len = none) {x : Word} (hx : x.getLsbD 8 = true)
    (ws : Nat → Word) : ((e.setCodeWords ws 8).setWord0 x).code =
      some ((List.range (x.toNat % 256)).map fun j => (ws (j / 32)).getLsbD (31 - j % 32)) := by
  refine code_setWord0_of_bits (wf_setCodeWords h ws 8) hx fun j hj => ?_
  rw [setCodeWords_bits _ _ _ (by simp only [Config.maxCodeLen]; omega),
    if_pos ⟨by omega, takesWord_of_absent habsent _⟩]

/-- A code word that is taken changes its own bits and no others, whatever word 0 then says the length is. -/
theorem code_setWord0_setCodeWord_getElem? (h : e.wf = true) {v : Nat} (hv : e.takesWord v = true) (y x : Word)
    (j : Nat) : (((e.setCodeWord v y).setWord0 x).code).bind (·[j]?) =
      ((e.setWord0 x).code).bind fun d =>
        if j / 32 = v ∧ j < d.length then some (y.getLsbD (31 - j % 32)) else d[j]? := by
  cases hx : x.getLsbD 8 with
  | false => simp only [code_setWord0_of_absent hx, Option.bind_none]
  | true =>
    rw [code_setWord0_of_bits h hx fun _ _ => rfl, code_setWord0_of_bits (wf_setCodeWord e v y) hx fun _ _ => rfl]
    simp only [Option.bind_some, List.getElem?_map, List.length_map, List.length_range]
    by_cases hj : j < x.toNat % 256
    · rw [List.getElem?_range hj, Option.map_some, Option.map_some,
        setCodeWord_bits _ _ _ (by simp only [Config.maxCodeLen]; omega), Option.getD_some]
      by_cases hjv : j / 32 = v <;> simp [hjv, hv, hj]
    · rw [List.getElem?_eq_none (by simpa using hj)]
      simp [hj]

/-! What the host reads of an entry (R46). -/

/-- The port shows the bits of the code, and 0 past its length and in an absent entry. -/
theorem readBit_eq_code (e : CtEntry) (j : Nat) : e.readBit j = ((e.code.getD [])[j]?).getD false := by
  cases hn : e.len with
  | none => simp [readBit, inCode, code, hn]
  | some n => by_cases hj : j < n.toNat <;> simp [readBit, inCode, code, hn, hj]

theorem word0_toNat (h : e.wf = true) :
    e.word0.toNat = if e.code.isSome then 256 + (e.code.getD []).length else 0 := by
  cases hn : e.len with
  | none => simp [word0, code, hn]
  | some n =>
    rw [code_length h hn, word0, hn]
    have hbyte := n.isLt
    simp [code, hn]
    omega

end CtEntry

/-! ### The entries of `CT` through the port -/

theorem State.ctEntry_hostWrite_word0 {s : State} (hb : s.status.busy = false) {k : Nat} (hk : k < 256) (x : Word) :
    (s.hostWrite (.ct k 0) x).ctEntry k = (s.ctEntry k).setWord0 x := by
  rw [State.hostWrite_ct hb hk (by decide), State.ctEntry_putEntry, if_pos rfl, if_pos rfl]

theorem State.ctEntry_hostWrite_codeWord {s : State} (hb : s.status.busy = false) {k v : Nat} (hk : k < 256)
    (hv : v < 8) (y : Word) : (s.hostWrite (.ct k (v + 1)) y).ctEntry k = (s.ctEntry k).setCodeWord v y := by
  rw [State.hostWrite_ct hb hk (by omega), State.ctEntry_putEntry, if_pos rfl, if_neg (by omega), Nat.add_sub_cancel]

/-- A host write into one entry of `CT` leaves every other entry. -/
theorem State.ctEntry_hostWrite_of_ne (s : State) {k j : Nat} (h : j ≠ k) (w : Nat) (y : Word) :
    (s.hostWrite (.ct k w) y).ctEntry j = s.ctEntry j := by
  cases hb : s.status.busy with
  | true => rw [State.hostWrite_of_busy hb]
  | false =>
    by_cases hin : k < 256 ∧ w < 9
    · rw [State.hostWrite_ct hb hin.1 hin.2, State.ctEntry_putEntry, if_neg h]
    · rw [s.hostWrite_ct_outside (by omega)]

theorem State.hostWrite_keeps_idle {s : State} (hb : s.status.busy = false) (loc : Loc) (x : Word) :
    (s.hostWrite loc x).status.busy = false := by
  obtain ⟨-, -, -, -, -, -, hstatus⟩ := s.hostWrite_frame loc x
  rw [hstatus, hb]

/-- The host writes the eight code words of entry `k`, in order. -/
def State.writeCodeWords (s : State) (k : Nat) (ws : Nat → Word) : State :=
  (List.range 8).foldl (fun t v => t.hostWrite (.ct k (v + 1)) (ws v)) s

theorem State.writeCodeWords_keeps_idle {s : State} (hb : s.status.busy = false) {k : Nat} (hk : k < 256) (ws : Nat → Word) :
    (s.writeCodeWords k ws).status.busy = false :=
  (State.codeWords_ctEntry hb hk ws 8 (Nat.le_refl 8) k).1

theorem State.ctEntry_writeCodeWords {s : State} (hb : s.status.busy = false) {k : Nat} (hk : k < 256) (ws : Nat → Word) :
    (s.writeCodeWords k ws).ctEntry k = (s.ctEntry k).setCodeWords ws 8 :=
  (State.codeWords_ctEntry hb hk ws 8 (Nat.le_refl 8) k).2.trans (if_pos rfl)

theorem State.ctEntry_writeCodeWords_of_ne {s : State} (hb : s.status.busy = false) {k j : Nat} (hk : k < 256)
    (h : j ≠ k) (ws : Nat → Word) : (s.writeCodeWords k ws).ctEntry j = s.ctEntry j :=
  (State.codeWords_ctEntry hb hk ws 8 (Nat.le_refl 8) j).2.trans (if_neg h)

/-- A code word wholly beyond the code of a present entry is ignored (P2-2), and so is one past word 8. -/
theorem State.ctEntry_hostWrite_codeWord_beyond {s : State} (hwf : Memory.wf s = true) (hb : s.status.busy = false)
    {k v : Nat} (hk : k < 256) (hpresent : s.codeOf k ≠ none) (hv : ((s.codeOf k).getD []).length ≤ 32 * v) (y : Word) :
    (s.hostWrite (.ct k (v + 1)) y).ctEntry k = s.ctEntry k := by
  have hentry := State.ctEntry_wf hwf k
  by_cases hv8 : v < 8
  · rw [State.ctEntry_hostWrite_codeWord hb hk hv8]
    exact CtEntry.setCodeWord_of_not_takes hentry
      ((CtEntry.takesWord_eq_reaches hentry hpresent v).trans (decide_eq_false (Nat.not_lt.mpr hv))) y
  · rw [s.hostWrite_ct_outside (by omega)]

/-- A code word the code of a present entry reaches stores all its bits, which a later word 0 shows as far as its length
goes (R46, P2-2). -/
theorem State.codeOf_hostWrite_codeWord {s : State} (hwf : Memory.wf s = true) (hb : s.status.busy = false)
    {k v : Nat} (hk : k < 256) (hpresent : s.codeOf k ≠ none) (hv : 32 * v < ((s.codeOf k).getD []).length)
    (y x : Word) (j : Nat) : (((s.hostWrite (.ct k (v + 1)) y).hostWrite (.ct k 0) x).codeOf k).bind (·[j]?) =
      ((s.hostWrite (.ct k 0) x).codeOf k).bind fun d =>
        if j / 32 = v ∧ j < d.length then some (y.getLsbD (31 - j % 32)) else d[j]? := by
  have hentry := State.ctEntry_wf hwf k
  have hlen : ((s.codeOf k).getD []).length < 256 := CtEntry.code_length_lt hentry
  have htakes : (s.ctEntry k).takesWord v = true :=
    (CtEntry.takesWord_eq_reaches hentry hpresent v).trans (decide_eq_true hv)
  simp only [State.codeOf]
  rw [State.ctEntry_hostWrite_word0 (State.hostWrite_keeps_idle hb _ _) hk, State.ctEntry_hostWrite_word0 hb hk,
    State.ctEntry_hostWrite_codeWord hb hk (by omega : v < 8)]
  exact CtEntry.code_setWord0_setCodeWord_getElem? hentry htakes y x j

theorem State.hostRead_ct {s : State} (hb : s.status.busy = false) {k w : Nat} (hk : k < 256) (hw : w < 9) :
    s.hostRead (.ct k w) = s.readCt k w := by
  rw [State.hostRead_of_idle hb]
  exact if_pos (by simp [hk, hw])

/-- Bit `31 - (j mod 32)` of word `1 + j div 32` reads as bit `j` of the code, and as 0 where the code has none. -/
theorem State.hostRead_codeWord_getLsbD {s : State} (hb : s.status.busy = false) {k j : Nat} (hk : k < 256)
    (hj : j < 256) :
    (s.hostRead (.ct k (1 + j / 32))).getLsbD (31 - j % 32) = (((s.codeOf k).getD [])[j]?).getD false := by
  rw [State.hostRead_ct hb hk (by omega), State.readCt, if_neg (by omega), Nat.add_sub_cancel_left,
    CtEntry.codeWord_getLsbD _ _ _ (Nat.mod_lt j (by decide)), Nat.div_add_mod, CtEntry.readBit_eq_code, State.codeOf]

/-- Settles O15: each write by what it makes of the entry, each read by the entry's code. -/
theorem codeTableEntryWrites : Obligations.CodeTableEntryWrites := by
  intro s k ws x hwf hb hk words c b
  have hwords (t : State) : words t = t.writeCodeWords k ws := rfl
  have hentry := State.ctEntry_wf hwf k
  have hidle := State.hostWrite_keeps_idle hb (.ct k 0) x
  simp only [hwords]
  refine ⟨fun hx => ⟨?_, fun habsent => ?_⟩, fun hx => ?_, fun v y hpresent => ⟨fun hv => ?_, fun hv j => ?_⟩,
    fun j hj => ⟨?_, ?_, fun w y => s.ctEntry_hostWrite_of_ne hj w y⟩, ?_, fun j hj => ?_⟩
  · rw [State.codeOf, State.ctEntry_writeCodeWords hidle hk, State.ctEntry_hostWrite_word0 hb hk]
    exact CtEntry.code_setCodeWords_setWord0 hentry hx ws
  · rw [State.codeOf, State.ctEntry_hostWrite_word0 (State.writeCodeWords_keeps_idle hb hk ws) hk,
      State.ctEntry_writeCodeWords hb hk]
    exact CtEntry.code_setWord0_setCodeWords hentry (CtEntry.code_eq_none_iff.mp habsent) hx ws
  · rw [State.codeOf, State.ctEntry_hostWrite_word0 hb hk]
    exact CtEntry.code_setWord0_of_absent hx
  · exact State.ctEntry_hostWrite_codeWord_beyond hwf hb hk hpresent hv y
  · exact State.codeOf_hostWrite_codeWord hwf hb hk hpresent hv y x j
  · rw [State.ctEntry_writeCodeWords_of_ne hidle hk hj, s.ctEntry_hostWrite_of_ne hj]
  · rw [State.ctEntry_hostWrite_of_ne _ hj, State.ctEntry_writeCodeWords_of_ne hb hk hj]
  · rw [State.hostRead_ct hb hk (by decide), State.readCt, if_pos rfl]
    exact CtEntry.word0_toNat hentry
  · exact State.hostRead_codeWord_getLsbD hb hk hj

end Sys2Proof.Machine
end

section
/-! PROOFS. The decoder and the encoder (spec/30_encoding.md R60 to R62, R65 to R67): a word spells a row of the opcode map
exactly when its opcode is the row's and its fields are well formed for the row's format, and all else follows from that. -/

namespace Sys2Proof

open Laws.EncodesWellFormed (fieldsOf_wordOf)

/-! ### Words as fields -/

/-- The fields of a word, put together again, are the word (R60). -/
theorem wordOf_fieldsOf (w : Word) : wordOf (fieldsOf w) = w := by
  apply BitVec.eq_of_getLsbD_eq
  intro k hk
  simp only [wordOf, fieldsOf, BitVec.getLsbD_append, BitVec.getLsbD_extractLsb']
  interval_cases k <;> rfl

/-- The bits two lots of fields have in common, field by field. -/
def Fields.and (f g : Fields) : Fields :=
  ⟨f.op &&& g.op, f.sym &&& g.sym, f.rd &&& g.rd, f.ra &&& g.ra, f.rb &&& g.rb, f.zero &&& g.zero⟩

theorem wordOf_and (f g : Fields) : wordOf (f.and g) = wordOf f &&& wordOf g := by
  simp only [wordOf, Fields.and, ← BitVec.and_append]

theorem wordOf_inj {f g : Fields} : wordOf f = wordOf g ↔ f = g :=
  ⟨fun h => by rw [← fieldsOf_wordOf f, h, fieldsOf_wordOf], congrArg wordOf⟩

/-! ### The mask of a format, field by field -/

/-- The mask of a register field: the whole field where the format does not use it, else the upper two bits (R62). -/
def registerMask (used : Bool) : BitVec 4 := if used then 0xC else 0xF

/-- The mask of the symbol field. -/
def symbolMask (used : Bool) : BitVec 8 := if used then 0 else 0xFF

/-- The mask of a format (R61), cut into fields. -/
def maskFields (fmt : Format) : Fields :=
  ⟨0xFF, symbolMask fmt.usesSym, registerMask fmt.usesRd, registerMask fmt.usesRa, registerMask fmt.usesRb, 0xF⟩

theorem maskOf_eq_wordOf (fmt : Format) : maskOf fmt = wordOf (maskFields fmt) := by
  cases fmt <;> rfl

theorem matchOf_eq_wordOf (op : BitVec 8) : matchOf op = wordOf ⟨op, 0, 0, 0, 0, 0⟩ := by
  apply BitVec.eq_of_getLsbD_eq
  intro k hk
  simp only [matchOf, wordOf, BitVec.getLsbD_append, BitVec.getLsbD_shiftLeft, BitVec.getLsbD_setWidth]
  interval_cases k <;> simp

/-- A register field under its mask is 0 exactly where it is well formed: 0 if unused, a legal number if used. -/
theorem registerMask_and_eq_zero (used : Bool) (r : BitVec 4) :
    r &&& registerMask used = 0 ↔ (used || r == 0) = true ∧ (!used || legalRegister r) = true := by
  revert used r; decide

theorem symbolMask_and_eq_zero (used : Bool) (y : BitVec 8) : y &&& symbolMask used = 0 ↔ (used || y == 0) = true := by
  have hall : y &&& 0xFF = y := BitVec.and_allOnes
  cases used
  · rw [symbolMask, if_neg Bool.false_ne_true, hall, Bool.false_or, beq_iff_eq]
  · simp [symbolMask]

/-- A word spells a row exactly when its opcode is the row's and its fields are well formed for the row's format (R61,
R62). -/
theorem spells_iff (w : Word) (row : OpRow) :
    spells w row = true ↔ row.op = (fieldsOf w).op ∧ (fieldsOf w).wellFormed row.fmt = true := by
  have hw : w &&& maskOf row.fmt = wordOf ((fieldsOf w).and (maskFields row.fmt)) := by
    rw [wordOf_and, wordOf_fieldsOf, maskOf_eq_wordOf]
  generalize fieldsOf w = f at *
  have hop : f.op &&& 0xFF = f.op := BitVec.and_allOnes
  have hzero : f.zero &&& 0xF = f.zero := BitVec.and_allOnes
  rw [spells, beq_iff_eq, hw, matchOf_eq_wordOf, wordOf_inj, Fields.and, maskFields]
  simp only [Fields.mk.injEq, hop, hzero, symbolMask_and_eq_zero, registerMask_and_eq_zero, Fields.wellFormed,
    Fields.unusedZero, Fields.registersLegal, Bool.and_eq_true, beq_iff_eq, eq_comm (a := f.op)]
  tauto

/-! ### The opcode map -/

theorem opcodeRows_ops_nodup : (opcodeRows.map OpRow.op).Nodup := by decide

/-- A row of the map is known by its opcode (R65). -/
theorem opcodeRows_eq_of_op {row row' : OpRow} (h : row ∈ opcodeRows) (h' : row' ∈ opcodeRows) (hop : row.op = row'.op) :
    row = row' :=
  List.inj_on_of_nodup_map opcodeRows_ops_nodup h h' hop

/-- What the decoder answers: the command of the row with the word's opcode, if the fields are well formed for it (R66). -/
theorem decode_eq_ok_iff (w : Word) (i : Instr) :
    decode w = .ok i ↔ ∃ row ∈ opcodeRows,
      row.op = (fieldsOf w).op ∧ (fieldsOf w).wellFormed row.fmt = true ∧ row.build (fieldsOf w) = i := by
  unfold decode
  constructor
  · intro h
    split at h
    · next row hrow =>
      cases h
      obtain ⟨hop, hwf⟩ := (spells_iff w row).mp (List.find?_some hrow)
      exact ⟨row, List.mem_of_find?_eq_some hrow, hop, hwf, rfl⟩
    · cases h
  · rintro ⟨row, hmem, hop, hwf, rfl⟩
    obtain ⟨row', hrow'⟩ : ∃ row', opcodeRows.find? (spells w) = some row' :=
      Option.isSome_iff_exists.mp (List.find?_isSome.mpr ⟨row, hmem, (spells_iff w row).mpr ⟨hop, hwf⟩⟩)
    have hop' := ((spells_iff w row').mp (List.find?_some hrow')).1
    rw [hrow', opcodeRows_eq_of_op (List.mem_of_find?_eq_some hrow') hmem (hop'.trans hop.symm)]

/-- Settles O5: the decoder's answer, the command left open. -/
theorem decodableWordsAreTheWellFormedOnes : Obligations.DecodableWordsAreTheWellFormedOnes := by
  intro w
  simp only [decode_eq_ok_iff]
  constructor
  · rintro ⟨-, row, hmem, hop, hwf, -⟩
    exact ⟨row, hmem, hop, hwf⟩
  · rintro ⟨row, hmem, hop, hwf⟩
    exact ⟨_, row, hmem, hop, hwf, rfl⟩

/-- Settles O4: the rows a word spells all have its opcode, and no two rows share one. -/
theorem atMostOneRowMatches : Obligations.AtMostOneRowMatches := by
  intro w
  have hops : ((opcodeRows.filter (spells w)).map OpRow.op).Nodup :=
    opcodeRows_ops_nodup.sublist (List.filter_sublist.map _)
  have hsame : (opcodeRows.filter (spells w)).map OpRow.op =
      List.replicate (opcodeRows.filter (spells w)).length (fieldsOf w).op := by
    rw [List.eq_replicate_iff, List.length_map]
    refine ⟨rfl, fun op hop => ?_⟩
    obtain ⟨row, hrow, rfl⟩ := List.mem_map.mp hop
    exact ((spells_iff w row).mp (List.mem_filter.mp hrow).2).1
  rw [hsame] at hops
  exact List.nodup_replicate.mp hops

/-! ### Decoding what was encoded -/

/-- The encoder's fields are well formed for the command's format (R60 to R62). -/
theorem encodeFields_wellFormed (i : Instr) : (encodeFields i).wellFormed (formatOf i) = true := by
  open Laws.EncodesWellFormed in
  cases i with
  | clrstat => exact clrstat.1
  | reset => exact reset.1
  | pqClear => exact pqClear.1
  | pqInsert ra => exact (pqInsert ra).1
  | pqExtractmin rd => exact (pqExtractmin rd).1
  | pqPeekmin => exact pqPeekmin.1
  | pqSize => exact pqSize.1
  | ndLeaf rd y => exact (ndLeaf rd y).1
  | ndBranch rd ra rb => exact (ndBranch rd ra rb).1
  | ndInfo ra => exact (ndInfo ra).1
  | freq => exact freq.1
  | buildtree rd => exact (buildtree rd).1
  | buildcode ra => exact (buildcode ra).1
  | treefromcode rd => exact (treefromcode rd).1
  | encode => exact Laws.EncodesWellFormed.encode.1
  | decode => exact Laws.EncodesWellFormed.decode.1
  | compress => exact compress.1
  | decompress => exact decompress.1

@[simp] theorem nregOf_field (r : NReg) : nregOf r.field = r := by cases r <;> rfl

/-- The fields the encoder writes are those of a row of the map, which builds the command back from them (R65). -/
theorem exists_row_of_encodeFields (i : Instr) :
    ∃ row ∈ opcodeRows, row.op = (encodeFields i).op ∧ row.fmt = formatOf i ∧ row.build (encodeFields i) = i := by
  cases i <;> simp [opcodeRows, queueRows, stageRows, encodeFields, formatOf]

/-- Settles O2: the row whose opcode and format the encoder used is the one the decoder finds. -/
theorem decodeOfEncodeIsTheCommand : Obligations.DecodeOfEncodeIsTheCommand := by
  intro i
  obtain ⟨row, hmem, hop, hfmt, hbuild⟩ := exists_row_of_encodeFields i
  rw [decode_eq_ok_iff, encode, fieldsOf_wordOf]
  exact ⟨row, hmem, hop, hfmt ▸ encodeFields_wellFormed i, hbuild⟩

/-! ### Encoding what was decoded -/

/-- The fields an encoder writes for a row: the row's opcode, the operand fields its format uses, and 0 elsewhere. -/
def Fields.operandsOnly (f : Fields) (op : BitVec 8) (fmt : Format) : Fields where
  op := op
  sym := if fmt.usesSym then f.sym else 0
  rd := if fmt.usesRd then (nregOf f.rd).field else 0
  ra := if fmt.usesRa then (nregOf f.ra).field else 0
  rb := if fmt.usesRb then (nregOf f.rb).field else 0
  zero := 0

/-- The encoder writes back the opcode of the row a command was built by, and the operands read. -/
theorem encodeFields_build {row : OpRow} (h : row ∈ opcodeRows) (f : Fields) :
    encodeFields (row.build f) = f.operandsOnly row.op row.fmt := by
  fin_cases h <;> rfl

/-- A register field that is well formed is the number of the register it names, or 0 where it is not used (R62). -/
theorem field_of_registerMask {used : Bool} {r : BitVec 4} (hzero : (used || r == 0) = true)
    (hlegal : (!used || legalRegister r) = true) : (if used then (nregOf r).field else 0) = r := by
  revert used r; decide

/-- Well-formed fields hold nothing but the opcode and the operands. -/
theorem operandsOnly_of_wellFormed {f : Fields} {fmt : Format} (h : f.wellFormed fmt = true) :
    f.operandsOnly f.op fmt = f := by
  simp only [Fields.wellFormed, Fields.unusedZero, Fields.registersLegal, Bool.and_eq_true] at h
  obtain ⟨⟨⟨⟨⟨hz, hsym⟩, hrd⟩, hra⟩, hrb⟩, ⟨hld, hla⟩, hlb⟩ := h
  rw [Fields.operandsOnly, field_of_registerMask hrd hld, field_of_registerMask hra hla, field_of_registerMask hrb hlb,
    ← eq_of_beq hz]
  cases hu : fmt.usesSym
  · rw [hu, Bool.false_or] at hsym
    rw [if_neg Bool.false_ne_true, ← eq_of_beq hsym]
  · rfl

/-- Settles O3: the command came from a row and well-formed fields, and the encoder writes just those fields. -/
theorem encodeOfDecodedWordIsTheWord : Obligations.EncodeOfDecodedWordIsTheWord := by
  intro w i h
  obtain ⟨row, hmem, hop, hwf, rfl⟩ := (decode_eq_ok_iff w i).mp h
  rw [encode, encodeFields_build hmem, hop, operandsOnly_of_wellFormed hwf, wordOf_fieldsOf]

/-! ### Words written out -/

/-- Settles O1: fourteen closed words, each decoded. -/
theorem decoderReadsTheSpecsWords : Obligations.DecoderReadsTheSpecsWords := by
  unfold Obligations.DecoderReadsTheSpecsWords
  decide

end Sys2Proof

namespace Sys2Proof.Machine

/-- Settles O7: the move is a write of `CMD`, and the word does not decode. -/
theorem illegalWordChangesOnlyStatus : Obligations.IllegalWordChangesOnlyStatus := by
  intro s w rest why hh hb hd
  rw [step_of_host hh]
  have hissue : ∀ u : State, u.status.busy = false →
      takeStep (.write (.reg 0) w) u = .next { u with status := ⟨.illegalOperation, true, false⟩ } := by
    intro u hu
    simp only [takeStep, hu, issue, hd, State.illegalWord, State.endWith, Status.ending_illegalOperation]
    rfl
  exact hissue _ hb

end Sys2Proof.Machine
end

section
/-! PROOFS. The container: what `COMPRESS` leaves, and how a header parses (spec/46_container_codec.md R139 to R148,
spec/30_encoding.md R72 to R75). -/

namespace Sys2Proof.Machine

/-! ### The tree and the codes of a text -/

/-- A built tree has one Leaf for each symbol of the table, and one Branch fewer (spec/41_node_and_tree_builder.md R108). -/
theorem buildTree_leaves {t : Cells Freq} (hne : keysOf t ≠ [])
    (hsum : (allSyms.map fun y => (countAt t y).toNat).sum < 2 ^ 32) :
    ∃ n, buildTree t = .ok n ∧ (n.leaves.map (·.2.1)).Perm (keysOf t) ∧ n.branches + 1 = (keysOf t).length := by
  obtain ⟨n, hn, hsyms, hcount⟩ := buildTree_induct
    (fun h => (h.flatMap fun n => n.leaves.map (·.2.1)).Perm (keysOf t) ∧
      (h.map Node.branches).sum + h.length = (keysOf t).length)
    (fun h h' hp ⟨hsyms, hcount⟩ =>
      ⟨(hp.symm.flatMap_right fun n : Node => n.leaves.map (·.2.1)).trans hsyms,
        by rw [← (hp.map Node.branches).sum_eq, ← hp.length_eq, hcount]⟩)
    (fun a b rest f _ ⟨hsyms, hcount⟩ => by
      refine ⟨?_, ?_⟩
      · simpa [Node.leaves, Slot.leaves, Function.comp_def] using hsyms
      · simp only [List.map_cons, List.sum_cons, List.length_cons, Node.branches, Slot.branches] at hcount ⊢
        omega)
    t hne hsum
    ⟨by simp [leavesOf, List.flatMap_map, Node.leaves], by simp [leavesOf, Function.comp_def, Node.branches]⟩
  exact ⟨n, hn, by simpa using hsyms, by simpa using hcount⟩

/-- The tree and the codes of a text exist, and the symbols with a code are those of the text: at most 256 Leaves, so no
Leaf lies deeper than a code is long (spec/43_encoder.md R118). -/
theorem exists_codes_of_text {b : List Byte} (hne : b ≠ []) (hb : b.length < 2 ^ 32) :
    ∃ n c, buildTree (freqTable b) = .ok n ∧ buildCode n = .ok c ∧ ∀ y, (codeAt c y).isSome = true ↔ y ∈ b := by
  have hkeys : keysOf (freqTable b) ≠ [] := by
    obtain ⟨y, hy⟩ := List.exists_mem_of_ne_nil b hne
    exact List.ne_nil_of_mem ((mem_keysOf_freqTable hb y).mpr hy)
  obtain ⟨n, hn, hsyms, hcount⟩ := buildTree_leaves hkeys (by rw [sum_countAt_freqTable hb]; exact hb)
  have hdepth : ∀ p ∈ n.leaves, p.1.length ≤ Config.maxCodeLen := by
    intro p hp
    have hp := Node.depth_le_branches n p hp
    have hk := keysOf_length_le (freqTable b)
    rw [Config.maxCodeLen]
    omega
  obtain ⟨c, hc⟩ := buildCode_of_distinct (hsyms.nodup_iff.mpr (keysOf_nodup _)) hdepth
  obtain ⟨-, -, hcode⟩ := buildCode_ok hc
  refine ⟨n, c, hn, hc, fun y => ?_⟩
  rw [← mem_keysOf_freqTable hb, ← hsyms.mem_iff, Option.isSome_iff_exists]
  simp only [hcode, List.mem_map, Prod.exists, exists_and_right, exists_eq_right]

/-- The codes of a text, in order of symbol, are as many as its symbols. -/
theorem entriesOf_length_of_text {b : List Byte} {c : CodeTable} (hb : b.length < 2 ^ 32)
    (hc : ∀ y, (codeAt c y).isSome = true ↔ y ∈ b) : (entriesOf c).length = (keysOf (freqTable b)).length := by
  rw [entriesOf_length, keysOf_freqTable hb]
  congr 1
  refine List.filter_congr fun y _ => ?_
  rw [Bool.eq_iff_iff, hc, List.contains_iff_mem]

/-- The lengths of the codes together, entry by entry or symbol by symbol. -/
theorem sum_entriesOf_length (c : CodeTable) :
    ((entriesOf c).map fun e => e.2.length).sum = (allSyms.map fun y => ((codeAt c y).getD []).length).sum := by
  unfold entriesOf
  induction allSyms with
  | nil => rfl
  | cons y l ih => cases h : codeAt c y <;> simp [h, ih]

/-! ### `COMPRESS` -/

/-- The shared stages where the tree and the codes exist: the two limits are all that can fail (spec/43_encoder.md R118). -/
theorem State.encodeStages_of_codes (s : State) {b : List Byte} {n : Node} {c : CodeTable}
    (hn : buildTree (freqTable b) = .ok n) (hc : buildCode n = .ok c) :
    s.encodeStages b =
      if ((s.clearEncoding.setFt (freqTable b)).setReg .n0 (.node n)).live ≤ Config.nodeCap ∧
          (encodeBits c b).length ≤ Config.bitCap then
        .ok ((((s.clearEncoding.setFt (freqTable b)).setReg .n0 (.node n)).writeCodes c).writeBits (encodeBits c b), c,
          encodeBits c b)
      else .error .capacityExceeded := by
  simp only [State.encodeStages, hn]
  rcases ((s.clearEncoding.setFt (freqTable b)).setReg .n0 (.node n)).checkLive_cases with ⟨hlive, hr⟩ | ⟨hlive, hr⟩ <;>
    simp only [hr]
  · by_cases hbits : (encodeBits c b).length ≤ Config.bitCap
    · rw [if_pos ⟨hlive, hbits⟩]
      simp only [hc, Nat.not_lt.mpr hbits, if_false]
    · rw [if_neg fun h => hbits h.2]
      simp only [hc, Nat.lt_of_not_le hbits, if_true]
  · rw [if_neg fun h => Nat.not_le.mpr hlive h.1]

theorem State.textOperand_of_fits {s : State} (h0 : s.ilen ≠ 0) (h1 : s.ilen.toNat ≤ Config.ibufCap) :
    s.textOperand = .ok s.inputBytes := by
  rw [State.textOperand, if_neg (Nat.not_lt.mpr h1), if_neg h0]

/-- The state `COMPRESS` leaves, before `STATUS`, for a text's tree and codes (spec/46_container_codec.md R142). -/
def State.compressed (s : State) (b : List Byte) (n : Node) (c : CodeTable) : State :=
  (((((s.clearCompress.clearEncoding.setFt (freqTable b)).setReg .n0 (.node n)).writeCodes c).writeBits
    (encodeBits c b)).writeOut (container c (encodeBits c b)))

/-- `COMPRESS` of a text it does not refuse (R142): the container, or a limit is passed. -/
theorem execCompress_of_codes {s : State} (h0 : s.ilen ≠ 0) (h1 : s.ilen.toNat ≤ Config.ibufCap)
    (hs : Config.sentinel ∉ s.inputBytes) {l : List Byte} (hl : l = s.inputBytes ++ [Config.sentinel])
    (hk : (keysOf (freqTable l)).length ≤ Config.maxCount) {n : Node} {c : CodeTable}
    (hn : buildTree (freqTable l) = .ok n) (hc : buildCode n = .ok c) :
    execCompress s = .next (
      if (s.compressed l n c).live ≤ Config.nodeCap ∧ (encodeBits c l).length ≤ Config.bitCap ∧
          (container c (encodeBits c l)).length ≤ Config.obufCap then
        (s.compressed l n c).endWith .ok
      else s.clearCompress.endWith .capacityExceeded) := by
  have hs' : ¬ s.inputBytes.contains Config.sentinel = true := by simpa using hs
  have hlive : ((s.clearCompress.clearEncoding.setFt (freqTable l)).setReg .n0 (.node n)).live =
    (s.compressed l n c).live := rfl
  simp only [execCompress, State.textOperand_of_fits h0 h1, if_neg hs', ← hl, if_neg (Nat.not_lt.mpr hk),
    State.encodeStages_of_codes s.clearCompress hn hc, hlive]
  by_cases hfit : (s.compressed l n c).live ≤ Config.nodeCap ∧ (encodeBits c l).length ≤ Config.bitCap
  · by_cases hout : (container c (encodeBits c l)).length ≤ Config.obufCap
    · rw [if_pos hfit, if_pos ⟨hfit.1, hfit.2, hout⟩]
      simp only [if_neg (Nat.not_lt.mpr hout)]
      rfl
    · rw [if_pos hfit, if_neg fun h => hout h.2.2]
      simp only [if_pos (Nat.lt_of_not_le hout)]
      rfl
  · rw [if_neg hfit, if_neg fun h => hfit ⟨h.1, h.2.1⟩]
    rfl

theorem sentinelText_length_lt {s : State} (h : s.ilen.toNat ≤ Config.ibufCap) :
    (s.inputBytes ++ [Config.sentinel]).length < 2 ^ 32 := by
  rw [List.length_append, State.inputBytes_length, List.length_singleton]
  rw [Config.ibufCap] at h
  omega

/-- The tree and the codes `COMPRESS` works with exist (R142). -/
theorem exists_codes_of_sentinelText {s : State} (h : s.ilen.toNat ≤ Config.ibufCap) :
    ∃ n c, buildTree (freqTable (s.inputBytes ++ [Config.sentinel])) = .ok n ∧ buildCode n = .ok c ∧
      ∀ y, (codeAt c y).isSome = true ↔ y ∈ s.inputBytes ++ [Config.sentinel] :=
  exists_codes_of_text (by simp) (sentinelText_length_lt h)

/-- Settles O53: the text's tree and codes exist, and the limits are all that is left to test. -/
theorem compressLeavesTheContainer : Obligations.CompressLeavesTheContainer := by
  intro s h0 h1 hs hk
  obtain ⟨n, c, hn, hc, -⟩ := exists_codes_of_sentinelText h1
  refine ⟨n, c, hn, hc, ?_⟩
  intro l b out r
  have hr : (s.compressed l n c).endWith .ok = { r with status := ⟨.ok, s.status.fatal, false⟩ } := by
    rw [← Status.ending_ok]; rfl
  have hfailed : s.clearCompress.endWith .capacityExceeded =
      { failureState .compress s with status := ⟨.capacityExceeded, true, false⟩ } := by
    rw [← Status.ending_capacityExceeded s.status]; rfl
  rw [← hr, ← hfailed]
  exact execCompress_of_codes h0 h1 hs rfl hk hn hc

/-- A `COMPRESS` that succeeds leaves the container of its text (R142), within the limits of the buffers. -/
theorem execCompress_ok {s t : State} (h : exec .compress s = .next t) (hok : t.status.code = .ok) :
    ∃ l n c, l = s.inputBytes ++ [Config.sentinel] ∧ l.length < 2 ^ 32 ∧ buildTree (freqTable l) = .ok n ∧
      buildCode n = .ok c ∧ (∀ y, (codeAt c y).isSome = true ↔ y ∈ l) ∧
      (encodeBits c l).length ≤ Config.bitCap ∧ (container c (encodeBits c l)).length ≤ Config.obufCap ∧
      t = (s.compressed l n c).endWith .ok := by
  rcases execCompress_cases s with ⟨x, hx, he⟩ | ⟨n, c, -, h1, -, -, hn, hc, -, hbits, hout, he⟩ <;> cases he.symm.trans h
  · have hxok : x = .ok := hok
    subst hxok
    rcases hx with hx | hx | hx | ⟨h1, hx⟩
    · cases hx
    · cases hx
    · cases hx
    · obtain ⟨n, c, hn, hc, -⟩ := exists_codes_of_sentinelText h1
      rw [State.encodeStages_of_codes s.clearCompress hn hc] at hx
      split at hx <;> cases hx
  · obtain ⟨n', c', hn', hc', hsyms⟩ := exists_codes_of_sentinelText h1
    cases hn'.symm.trans hn
    cases hc'.symm.trans hc
    exact ⟨_, n, c, rfl, sentinelText_length_lt h1, hn, hc, hsyms, hbits, hout, rfl⟩

/-- Settles O55: the container's own start and length, read off the state `COMPRESS` leaves. -/
theorem containerStartAndLength : Obligations.ContainerStartAndLength := by
  intro s t ht hok
  obtain ⟨l, n, c, -, hl, -, hc, hsyms, hbits, hout, rfl⟩ := execCompress_ok ht hok
  have holen : (s.compressed l n c).olen.toNat = (container c (encodeBits c l)).length :=
    (BitVec.toNat_ofNat ..).trans (Nat.mod_eq_of_lt (hout.trans_lt (by decide)))
  have hbitn : (s.compressed l n c).bitn.toNat = (encodeBits c l).length :=
    (BitVec.toNat_ofNat ..).trans (Nat.mod_eq_of_lt (hbits.trans_lt (by decide)))
  have hcode (y : Sym) : (s.compressed l n c).codeOf y.toNat = codeAt c y := by
    obtain ⟨-, hlen, hpath⟩ := buildCode_ok hc
    refine State.codeOf_of_written rfl (fun y b hy => ?_) y
    obtain ⟨f, hf⟩ := (hpath y b).mp hy
    exact hlen _ hf
  have hcount := entriesOf_length_of_text hl hsyms
  refine ⟨?_, ?_⟩
  · have hout : ((s.compressed l n c).endWith .ok).output = container c (encodeBits c l) :=
      State.output_of_written rfl holen
    rw [hout]
    show [Config.magic0, Config.magic1, BitVec.ofNat 8 (entriesOf c).length] = _
    rw [hcount]
    rfl
  · show (s.compressed l n c).olen.toNat = 3 + 2 * (keysOf (freqTable l)).length +
      ((allSyms.map fun y => (((s.compressed l n c).codeOf y.toNat).getD []).length).sum +
        (s.compressed l n c).bitn.toNat + 7) / 8
    simp only [holen, hbitn, hcode, container_length, hcount, sum_entriesOf_length]

/-! ### Parsing a header -/

/-- The symbols that stand in the first `n` pairs after the count byte, the even bytes; `none` past the end. -/
def headerSyms (n : Nat) (body : List Byte) : List (Option Sym) := (List.range n).map fun i => body[2 * i]?

/-- The code lengths that stand in the first `n` pairs after the count byte, the odd bytes; 0 past the end. -/
def headerLens (n : Nat) (body : List Byte) : List Nat := (List.range n).map fun i => ((body[2 * i + 1]?).getD 0).toNat

theorem readPairs_syms {n : Nat} {body : List Byte} (h : 2 * n ≤ body.length) :
    ((readPairs n body).map (·.1)).map some = headerSyms n body := by
  rw [readPairs_eq n body h, List.map_map, List.map_map]
  refine List.map_congr_left fun i hi => ?_
  have hi := List.mem_range.mp hi
  simp [List.getElem?_eq_getElem (show 2 * i < body.length by omega)]

theorem readPairs_lens {n : Nat} {body : List Byte} (h : 2 * n ≤ body.length) :
    (readPairs n body).map (·.2) = headerLens n body := by
  rw [readPairs_eq n body h, List.map_map]
  rfl

/-- The header faults of R145, in the bytes after a count byte `n`. -/
def HeaderFault (n : Nat) (body : List Byte) : Prop :=
  n = 0 ∨ body.length < 2 * n ∨ 0 ∈ headerLens n body ∨ ¬ (headerSyms n body).Nodup ∨
    8 * (body.length - 2 * n) < (headerLens n body).sum

/-- The parse after the count byte raises exactly on a header fault (R145). -/
theorem parseBody_eq (n : Nat) (body : List Byte) :
    (HeaderFault n body ∧ parseBody n body = .error .malformedBitstream) ∨
    (¬ HeaderFault n body ∧ parseBody n body = .ok (sliceCodes (readPairs n body) (unpack (body.drop (2 * n))),
      (unpack (body.drop (2 * n))).drop (headerLens n body).sum)) := by
  by_cases hn : n = 0
  · exact .inl ⟨.inl hn, if_pos hn⟩
  by_cases hshort : body.length < 2 * n
  · exact .inl ⟨.inr (.inl hshort), (if_neg hn).trans (if_pos hshort)⟩
  have hlens := readPairs_lens (Nat.le_of_not_lt hshort)
  have hzero : (readPairs n body).any (fun p => p.2 == 0) = true ↔ 0 ∈ headerLens n body := by simp [← hlens]
  have hdup : (!allDistinct ((readPairs n body).map (·.1))) = true ↔ ¬ (headerSyms n body).Nodup := by
    rw [← readPairs_syms (Nat.le_of_not_lt hshort), List.nodup_map_iff (Option.some_injective _), ← allDistinct_iff,
      Bool.not_eq_true', Bool.not_eq_true]
  simp only [parseBody, HeaderFault, hn, hshort, hlens, hzero, hdup, unpack_length, List.length_drop, if_false, false_or]
  by_cases h0 : 0 ∈ headerLens n body
  · exact .inl ⟨.inl h0, if_pos h0⟩
  by_cases h1 : (headerSyms n body).Nodup
  · by_cases h2 : 8 * (body.length - 2 * n) < (headerLens n body).sum
    · exact .inl ⟨.inr (.inr h2), by simp only [h0, h1, h2, not_true_eq_false, if_false, if_true]⟩
    · exact .inr (by simp only [h0, h1, h2, not_true_eq_false, or_self, not_false_eq_true, if_false, and_self])
  · exact .inl ⟨.inr (.inl h1), by simp only [h0, h1, not_false_eq_true, if_false, if_true]⟩

/-- Without a header fault the bits after the header are cut in header order, one code for each symbol listed (R73,
R145). -/
theorem parseBody_of_not_fault {n : Nat} {body : List Byte} (h : ¬ HeaderFault n body) :
    ∃ c, parseBody n body = .ok (c, (unpack (body.drop (2 * n))).drop (headerLens n body).sum) ∧
      (∀ i < n, ∃ y len, body[2 * i]? = some y ∧ body[2 * i + 1]? = some len ∧ codeAt c y =
        some (((unpack (body.drop (2 * n))).drop ((headerLens n body).take i).sum).take len.toNat)) ∧
      ∀ y, some y ∉ headerSyms n body → codeAt c y = none := by
  have hlen : 2 * n ≤ body.length := Nat.le_of_not_lt fun hshort => h (.inr (.inl hshort))
  have hsyms : (headerSyms n body).Nodup := by
    by_contra hdup
    exact h (.inr (.inr (.inr (.inl hdup))))
  rw [← readPairs_syms hlen, List.nodup_map_iff (Option.some_injective _)] at hsyms
  obtain ⟨hcut, hnone⟩ := codeAt_sliceCodes_getElem hsyms (unpack (body.drop (2 * n)))
  rw [readPairs_lens hlen] at hcut
  rcases parseBody_eq n body with ⟨hf, -⟩ | ⟨-, hp⟩
  · exact absurd hf h
  refine ⟨_, hp, fun i hi => ?_, fun y hy => hnone y fun hmem => hy ?_⟩
  · have hsym : body[2 * i]? = some body[2 * i] := List.getElem?_eq_getElem (by omega)
    have hlength : body[2 * i + 1]? = some body[2 * i + 1] := List.getElem?_eq_getElem (by omega)
    refine ⟨_, _, hsym, hlength, hcut i (_, _) ?_⟩
    rw [readPairs_eq _ _ hlen, List.getElem?_map, List.getElem?_range hi, Option.map_some, hsym, hlength]
    rfl
  · rw [← readPairs_syms hlen]
    exact List.mem_map_of_mem hmem

/-- After the magic and a count byte the parse goes on with the count (R145). -/
theorem parseContainer_of_magic (nb : Byte) (body : List Byte) :
    parseContainer (0x68 :: 0x66 :: nb :: body) = parseBody nb.toNat body := rfl

/-- What fails to parse, `DECOMPRESS` refuses with the code the parse raised (R148). -/
theorem execDecompress_of_parse_error {s : State} {x : Completion} (hi : s.ilen.toNat ≤ Config.ibufCap)
    (h : parseContainer s.inputBytes = .error x) : execDecompress s = .next (s.clearDecompress.endWith x) := by
  simp only [execDecompress, if_neg (Nat.not_lt.mpr hi), h, State.conclude_error]

/-- Settles O58: with no count byte the parse ends at once; with one, the statement's indices are those of the bytes after
it, moved up by one. -/
theorem headerFaultsAreMalformed : Obligations.HeaderFaultsAreMalformed := by
  intro x
  have hrefused (h : parseContainer (0x68 :: 0x66 :: x) = .error .malformedBitstream) (s : State)
      (hi : s.ilen.toNat ≤ Config.ibufCap) (hx : s.inputBytes = 0x68 :: 0x66 :: x) :
      exec .decompress s = .next { failureState .decompress s with status := ⟨.malformedBitstream, true, false⟩ } := by
    rw [← Status.ending_malformedBitstream s.status]
    exact execDecompress_of_parse_error hi (hx ▸ h)
  cases x with
  | nil => exact ⟨fun _ => ⟨rfl, hrefused rfl⟩, fun h => absurd (.inl rfl) h⟩
  | cons nb body =>
    intro n syms lens stream faulty
    have heven (i : Nat) : (nb :: body)[1 + 2 * i]? = body[2 * i]? := by rw [Nat.add_comm, List.getElem?_cons_succ]
    have hodd (i : Nat) : (nb :: body)[2 + 2 * i]? = body[2 * i + 1]? := by
      rw [show 2 + 2 * i = 2 * i + 1 + 1 by omega, List.getElem?_cons_succ]
    have hsyms : syms = headerSyms nb.toNat body := List.map_congr_left fun i _ => heven i
    have hlens : lens = headerLens nb.toNat body := List.map_congr_left fun i _ => by rw [hodd]
    have hdrop : (nb :: body).drop (1 + 2 * n) = body.drop (2 * nb.toNat) := by
      rw [Nat.add_comm, List.drop_succ_cons]
    have hshort : (nb :: body).length < 1 + 2 * n ↔ body.length < 2 * nb.toNat := by
      rw [Nat.add_comm, List.length_cons, Nat.add_lt_add_iff_right]
    have hrest : (nb :: body).length - (1 + 2 * n) = body.length - 2 * nb.toNat := by
      rw [Nat.add_comm, List.length_cons, Nat.add_sub_add_right]
    have hfaulty : faulty ↔ HeaderFault nb.toNat body := by
      simp only [faulty, HeaderFault, hshort, hrest, hsyms, hlens, reduceCtorEq, false_or]
      rfl
    rw [hfaulty, parseContainer_of_magic, hsyms, hlens, show stream = unpack (body.drop (2 * nb.toNat)) from
      congrArg unpack hdrop]
    simp only [heven, hodd]
    refine ⟨fun hf => ?_, parseBody_of_not_fault⟩
    rcases parseBody_eq nb.toNat body with ⟨-, hp⟩ | ⟨hn, -⟩
    · exact ⟨hp, hrefused hp⟩
    · exact absurd hf hn

end Sys2Proof.Machine
end

section
/-! PROOFS. The priority queue (spec/40_priority_queue.md R82 to R92, R94): the state each `PQ` command leaves, the way a
Node takes through the heap, and the order in which Nodes come out. -/

namespace Sys2Proof.Machine

/-! ### The end of a command, as the fields it leaves -/

/-- Success, and a code that is not fatal, leave the sticky flag as it was (R159, R163). -/
theorem State.endWith_of_not_fatal {x : Completion} (hx : x.isFatal = false) (s : State) :
    s.endWith x = { s with status := ⟨x, s.status.fatal, false⟩ } :=
  congrArg s.setStatus (Status.ending_of_not_fatal hx s.status)

theorem State.endWith_of_fatal {x : Completion} (hx : x.isFatal = true) (s : State) :
    s.endWith x = { s with status := ⟨x, true, false⟩ } :=
  congrArg s.setStatus (Status.ending_of_fatal hx s.status)

/-! ### `PQ.CLEAR`, `PQ.SIZE`, `PQ.PEEKMIN` -/

/-- Settles O26: both end with success, and register 6 reads `PQN` between commands. -/
theorem queueClearAndSize : Obligations.QueueClearAndSize :=
  ⟨by decide, by decide, fun s => ⟨fun hidle => State.hostRead_of_idle hidle (.reg 6),
    congrArg Host.Outcome.next (State.endWith_of_not_fatal rfl _),
    congrArg Host.Outcome.next (State.endWith_of_not_fatal rfl _)⟩⟩

theorem execPqPeekmin_of_cons {s : State} {m : Node} {h : List Node} (hs : s.heap = m :: h) :
    execPqPeekmin s = .next ((s.report (.node m)).endWith .ok) := by
  simp only [execPqPeekmin, hs, heapTop, State.conclude_ok]

theorem execPqPeekmin_of_nil {s : State} (hs : s.heap = []) :
    execPqPeekmin s = .next ((s.report .absent).endWith .queueEmpty) := by
  simp only [execPqPeekmin, hs, heapTop, State.conclude_error]

/-- On a queue that is not empty an extract gives the root (R86). -/
theorem pqExtract_cons (m : Node) (h : List Node) : ∃ h', pqExtract (m :: h) = some (m, h') := by
  obtain ⟨m', h', he⟩ := pqExtract_of_ne_nil (List.cons_ne_nil m h)
  cases pqExtract_head he
  exact ⟨h', he⟩

/-- Settles O29: the root is what is reported and what an extract gives. -/
theorem queuePeekReportsTheRoot : Obligations.QueuePeekReportsTheRoot := by
  refine ⟨by decide, fun s => ⟨fun m h hs => ⟨?_, ?_⟩, fun hs => ?_⟩⟩
  · obtain ⟨h', he⟩ := pqExtract_cons m h
    rw [hs, he, Option.map_some]
  · exact (execPqPeekmin_of_cons hs).trans (congrArg _ (State.endWith_of_not_fatal rfl _))
  · exact (execPqPeekmin_of_nil hs).trans (congrArg _ (State.endWith_of_not_fatal rfl _))

/-! ### `PQ.EXTRACTMIN` -/

theorem execPqExtractmin_of_some {s : State} (rd : NReg) {m : Node} {h : List Node} (he : pqExtract s.heap = some (m, h)) :
    execPqExtractmin rd s = .next ((((s.setHeap h).setReg rd (.node m)).report (.node m)).endWith .ok) := by
  simp only [execPqExtractmin, he, State.conclude_ok]

theorem execPqExtractmin_of_nil {s : State} (rd : NReg) (hs : s.heap = []) :
    execPqExtractmin rd s = .next (((s.setReg rd .absent).report .absent).endWith .queueEmpty) := by
  simp only [execPqExtractmin, pqExtract_eq_none.mpr hs, State.conclude_error]

/-- Settles O28: the Node and the heap are those `PQExtract` gives, with its laws. -/
theorem queueExtractTakesTheMinimum : Obligations.QueueExtractTakesTheMinimum := by
  refine fun s rd => ⟨by cases rd <;> decide, fun hne => ?_, fun hs => ?_⟩
  · obtain ⟨m, h, he⟩ := pqExtract_of_ne_nil hne
    exact ⟨m, h, (execPqExtractmin_of_some rd he).trans (congrArg _ (State.endWith_of_not_fatal rfl _)), he,
      pqExtract_head he, pqExtract_perm he, fun ho => ⟨pqExtract_ordered ho he, pqExtract_least ho he⟩⟩
  · exact (execPqExtractmin_of_nil rd hs).trans (congrArg _ (State.endWith_of_not_fatal rfl _))

/-! ### `PQ.INSERT` -/

theorem execPqInsert_of_absent {s : State} {ra : NReg} (hr : s.reg ra = .absent) :
    execPqInsert ra s = .next (s.endWith .illegalOperation) := by
  simp only [execPqInsert, hr, State.conclude_error]

theorem execPqInsert_of_full {s : State} {ra : NReg} {n : Node} (hr : s.reg ra = .node n)
    (hfull : Config.pqCap ≤ s.heap.length) : execPqInsert ra s = .next (s.endWith .capacityExceeded) := by
  simp only [execPqInsert, hr, if_pos hfull, State.conclude_error]

theorem execPqInsert_of_room {s : State} {ra : NReg} {n : Node} (hr : s.reg ra = .node n)
    (hroom : s.heap.length < Config.pqCap) :
    execPqInsert ra s = .next (((s.setHeap (pqInsert s.heap n)).setReg ra .absent).endWith .ok) := by
  simp only [execPqInsert, hr, if_neg (Nat.not_le.mpr hroom), State.conclude_ok]

/-- Moving a Node from its register into the heap keeps `Live` (R24). -/
theorem State.live_pqInsert {s : State} {ra : NReg} {n : Node} (hr : s.reg ra = .node n) :
    (s.regs.set ra .absent).live + heapLive (pqInsert s.heap n) = s.live := by
  have hregs := NodeRegs.live_set s.regs ra .absent
  rw [show s.regs.get ra = .node n from hr, Slot.size_node, Slot.size_absent] at hregs
  rw [heapLive_pqInsert, State.live]
  omega

theorem getElem?_concat_of_ne {h : List Node} {j : Nat} (hj : j ≠ h.length) (n : Node) : (h ++ [n])[j]? = h[j]? := by
  rcases Nat.lt_or_gt_of_ne hj with hlt | hgt
  · exact List.getElem?_append_left hlt
  · rw [List.getElem?_eq_none (by simp; omega), List.getElem?_eq_none (by omega)]

/-- What `PQInsert` does slot by slot (R82, R84): the Node starts in slot `PQN` and rises `d` levels; all the slots it meets
above are slots of the heap before. -/
theorem pqInsert_path (h : List Node) (n : Node) :
    ∃ d, (∀ k < d, 0 < ancestor k h.length ∧ ∃ m, h[ancestor (k + 1) h.length]? = some m ∧ n.freq.toNat < m.freq.toNat ∧
        (pqInsert h n)[ancestor k h.length]? = some m) ∧
      (pqInsert h n)[ancestor d h.length]? = some n ∧
      (0 < ancestor d h.length → ∃ m, h[ancestor (d + 1) h.length]? = some m ∧ m.freq.toNat ≤ n.freq.toNat) ∧
      ∀ j, (∀ k ≤ d, j ≠ ancestor k h.length) → (pqInsert h n)[j]? = h[j]? := by
  obtain ⟨d, hpassed, hrest, hparent, hoff⟩ :=
    siftUp_path h.length (h := h ++ [n]) (n := n) (Nat.le_refl _) List.getElem?_concat_length
  have habove {k : Nat} (h0 : 0 < ancestor k h.length) :
      (h ++ [n])[ancestor (k + 1) h.length]? = h[ancestor (k + 1) h.length]? :=
    getElem?_concat_of_ne (Nat.ne_of_lt (ancestor_succ_lt h0)) n
  refine ⟨d, fun k hk => ?_, hrest, fun h0 => habove h0 ▸ hparent h0, fun j hj => ?_⟩
  · obtain ⟨h0, hm⟩ := hpassed k hk
    exact ⟨h0, habove h0 ▸ hm⟩
  · exact (hoff j hj).trans (getElem?_concat_of_ne (hj 0 (Nat.zero_le d)) n)

/-- Settles O27: the tests in their order, and past them the heap `PQInsert` gives, with its laws. -/
theorem queueInsertMovesTheNode : Obligations.QueueInsertMovesTheNode := by
  refine fun s ra => ⟨by cases ra <;> decide, fun n hr hroom => ⟨?_, State.live_pqInsert hr, pqInsert_perm s.heap n,
    fun ho => pqInsert_ordered ho n, pqInsert_path s.heap n⟩, fun hr => ?_, fun hr hfull => ?_⟩
  · exact (execPqInsert_of_room hr hroom).trans (congrArg _ (State.endWith_of_not_fatal rfl _))
  · exact (execPqInsert_of_absent hr).trans (congrArg _ (State.endWith_of_fatal rfl s))
  · cases hn : s.reg ra with
    | absent => exact absurd hn hr
    | node n => exact (execPqInsert_of_full hn hfull).trans (congrArg _ (State.endWith_of_fatal rfl s))

/-! ### Draining -/

theorem drain_succ_of_some {h h' : List Node} {m : Node} (he : pqExtract h = some (m, h')) (k : Nat) :
    drain (k + 1) h = m :: drain k h' := by
  simp only [drain, he]

/-- A heap of `k + 1` Nodes drains as its root and then what the extract leaves, a heap of `k` Nodes. -/
theorem drain_succ_of_length {h : List Node} {k : Nat} (hk : h.length = k + 1) :
    ∃ m h', pqExtract h = some (m, h') ∧ h'.length = k ∧ drain (k + 1) h = m :: drain k h' := by
  obtain ⟨m, h', he⟩ := pqExtract_of_ne_nil (List.ne_nil_of_length_eq_add_one hk)
  have hlen := pqExtract_length he
  exact ⟨m, h', he, by omega, drain_succ_of_some he k⟩

theorem drain_perm {k : Nat} {h : List Node} (hk : h.length = k) : (drain k h).Perm h := by
  induction k generalizing h with
  | zero => rw [List.eq_nil_of_length_eq_zero hk]; exact List.Perm.refl _
  | succ k ih =>
    obtain ⟨m, h', he, hk', hd⟩ := drain_succ_of_length hk
    rw [hd]
    exact ((ih hk').cons m).trans (pqExtract_perm he).symm

/-- The root is a Node of least frequency, and all that comes out later was below it (R92). -/
theorem drain_sorted {k : Nat} {h : List Node} (hk : h.length = k) (ho : heapOrdered h) :
    (drain k h).Pairwise fun a b => a.freq.toNat ≤ b.freq.toNat := by
  induction k generalizing h with
  | zero => exact List.Pairwise.nil
  | succ k ih =>
    obtain ⟨m, h', he, hk', hd⟩ := drain_succ_of_length hk
    rw [hd, List.pairwise_cons]
    refine ⟨fun n hn => pqExtract_least ho he n ?_, ih hk' (pqExtract_ordered ho he)⟩
    exact (pqExtract_perm he).mem_iff.mpr (List.mem_cons_of_mem m ((drain_perm hk').mem_iff.mp hn))

/-- Settles O30: by induction on the number of Nodes. -/
theorem drainingTheQueueIsSorted : Obligations.DrainingTheQueueIsSorted :=
  fun _ ho => ⟨drain_perm rfl, drain_sorted rfl ho⟩

/-! ### The way down (R82) -/

section WayDown

variable {h : List Node} {i : Nat}

theorem lessAt_eq_true {j : Nat} (hi : i < h.length) (hj : j < h.length) (hlt : keyAt h i < keyAt h j) :
    lessAt h i j = true := (lessAt_iff h i j).mpr ⟨hi, hj, hlt⟩

theorem lessAt_eq_false {j : Nat} (hle : i < h.length → keyAt h j ≤ keyAt h i) : lessAt h i j = false :=
  Bool.eq_false_iff.mpr fun hc =>
    have ⟨hi, _, hlt⟩ := (lessAt_iff h i j).mp hc
    absurd hlt (Nat.not_lt.mpr (hle hi))

theorem downTo_eq_left (hl : 2 * i + 1 < h.length) (hlt : keyAt h (2 * i + 1) < keyAt h i)
    (hle : 2 * i + 2 < h.length → keyAt h (2 * i + 1) ≤ keyAt h (2 * i + 2)) : downTo h i = 2 * i + 1 := by
  simp [downTo, lessAt_eq_true hl (by omega) hlt, lessAt_eq_false hle]

theorem downTo_eq_right (hr : 2 * i + 2 < h.length) (hlt : keyAt h (2 * i + 2) < keyAt h i)
    (hlt' : keyAt h (2 * i + 2) < keyAt h (2 * i + 1)) : downTo h i = 2 * i + 2 := by
  have hself : lessAt h (2 * i + 2) i = true := lessAt_eq_true hr (by omega) hlt
  have hleft : lessAt h (2 * i + 2) (2 * i + 1) = true := lessAt_eq_true hr (by omega) hlt'
  unfold downTo
  by_cases hl : lessAt h (2 * i + 1) i = true <;> simp [hl, hself, hleft]

theorem downTo_eq_self (hl : 2 * i + 1 < h.length → keyAt h i ≤ keyAt h (2 * i + 1))
    (hr : 2 * i + 2 < h.length → keyAt h i ≤ keyAt h (2 * i + 2)) : downTo h i = i := by
  simp [downTo, lessAt_eq_false hl, lessAt_eq_false hr]

theorem siftDown_of_downTo_self (fuel : Nat) (hd : downTo h i = i) : siftDown fuel h i = h := by
  cases fuel with
  | zero => rfl
  | succ fuel => rw [siftDown, if_pos hd]

theorem siftDown_of_downTo {j : Nat} (fuel : Nat) (hd : downTo h i = j) (hne : j ≠ i) :
    siftDown (fuel + 1) h i = siftDown fuel (swapAt h i j) j := by
  rw [siftDown, hd, if_neg hne]

end WayDown

/-- An extract puts the last element in the root's place and lets it sink (R86). -/
theorem pqExtract_concat (root last : Node) (others : List Node) :
    pqExtract (root :: (others ++ [last])) = some (root, siftDown (others.length + 1) (last :: others) 0) := by
  simp [pqExtract]

/-! ### Ties (R94) -/

/-- A Node that is no lighter than the parent of the first free slot stays there (R84). -/
theorem pqInsert_of_parent_le {h : List Node} {n : Node} (hle : keyAt h ((h.length - 1) / 2) ≤ n.freq.toNat) :
    pqInsert h n = h ++ [n] := by
  unfold pqInsert
  cases hlen : h.length with
  | zero => rfl
  | succ k =>
    have hparent : keyAt (h ++ [n]) (k / 2) = keyAt h ((h.length - 1) / 2) := by
      rw [keyAt_append_left (by omega), hlen, Nat.add_sub_cancel]
    have hplace : keyAt (h ++ [n]) (k + 1) = n.freq.toNat :=
      keyAt_of_getElem? (hlen ▸ List.getElem?_concat_length)
    rw [siftUp, Nat.add_sub_cancel, lessAt_eq_false fun _ => by rw [hparent, hplace]; exact hle, Bool.and_false,
      if_neg Bool.false_ne_true]

section Ties

variable {x y z : Node}

theorem pqInsert_three_equal (hxy : x.freq = y.freq) (hyz : y.freq = z.freq) :
    pqInsert (pqInsert (pqInsert [] x) y) z = [x, y, z] := by
  have hsecond : pqInsert [x] y = [x] ++ [y] := pqInsert_of_parent_le (by simp [keyAt, hxy])
  have hthird : pqInsert [x, y] z = [x, y] ++ [z] := pqInsert_of_parent_le (by simp [keyAt, hxy, hyz])
  exact (congrArg (pqInsert · z) hsecond).trans hthird

/-- The last of three takes the root's place and stays, since the second is no lighter. -/
theorem pqExtract_three_of_le (hle : z.freq.toNat ≤ y.freq.toNat) : pqExtract [x, y, z] = some (x, [z, y]) := by
  have hstay : downTo [z, y] 0 = 0 := downTo_eq_self (fun _ => hle) fun h2 => absurd h2 (by simp)
  rw [← siftDown_of_downTo_self 2 hstay]
  exact pqExtract_concat x z [y]

/-- The last of four takes the root's place and, heavier than its two children of one frequency, goes left. -/
theorem pqExtract_four_of_lt (m : Node) (hxy : x.freq = y.freq) (hlt : y.freq.toNat < z.freq.toNat) :
    pqExtract [m, x, y, z] = some (m, [x, z, y]) := by
  have hxy' : x.freq.toNat = y.freq.toNat := congrArg BitVec.toNat hxy
  have hleft : downTo [z, x, y] 0 = 1 :=
    downTo_eq_left (i := 0) (by simp) (hxy'.trans_lt hlt) fun _ => Nat.le_of_eq hxy'
  have hstay : downTo [x, z, y] 1 = 1 :=
    downTo_eq_self (fun h3 => absurd h3 (by simp)) fun h4 => absurd h4 (by simp)
  have hsink : siftDown 3 [z, x, y] 0 = [x, z, y] :=
    (siftDown_of_downTo 2 hleft Nat.one_ne_zero).trans (siftDown_of_downTo_self 2 hstay)
  rw [← hsink]
  exact pqExtract_concat m z [x, y]

theorem drain_three_equal (hyz : y.freq = z.freq) : drain 3 [x, y, z] = [x, z, y] := by
  rw [drain_succ_of_some (pqExtract_three_of_le (Nat.le_of_eq (congrArg BitVec.toNat hyz.symm)))]
  rfl

end Ties

/-- Settles O31: the ties by the way each Node takes, and an extract by the way its displaced root sinks. -/
theorem equalFrequenciesComeOutXZY : Obligations.EqualFrequenciesComeOutXZY := by
  refine ⟨fun x y z hxy hyz => ⟨pqInsert_three_equal hxy hyz, ?_, rfl, drain_three_equal hyz⟩,
    fun m x y z hxy hlt => pqExtract_four_of_lt m hxy hlt,
    fun h i => ⟨downTo_eq_left, downTo_eq_right, downTo_eq_self⟩, fun root last others => ?_⟩
  · exact pqExtract_three_of_le (Nat.le_of_eq (congrArg BitVec.toNat hyz.symm))
  · obtain ⟨place, e, hstart, hpassed, hrest, hchildren, hoff⟩ :=
      siftDown_path (others.length + 1) (h := last :: others) (i := 0) (n := last) (by simp) rfl
    exact ⟨_, place, e, pqExtract_concat root last others, hstart, hpassed, hrest, hchildren, hoff⟩

end Sys2Proof.Machine
end

section
/-! PROOFS. Nodes, the frequency table and the tree builder (spec/41_node_and_tree_builder.md R96 to R108): the states
`ND.LEAF`, `ND.BRANCH`, `ND.INFO`, `FREQ` and `BUILDTREE` leave, and the properties of a built tree. -/

namespace Sys2Proof.Machine

/-! ### Command words as sums -/

/-- The fields of a word do not overlap, so the word is the sum of its shifted fields (spec/30_encoding.md R60). -/
theorem wordOf_eq_sum (f : Fields) :
    wordOf f = (f.op.setWidth 32 <<< 24) + (f.sym.setWidth 32 <<< 16) + (f.rd.setWidth 32 <<< 12) +
      (f.ra.setWidth 32 <<< 8) + (f.rb.setWidth 32 <<< 4) + f.zero.setWidth 32 := by
  apply BitVec.eq_of_toNat_eq
  simp only [wordOf, toNat_append_eq_add, BitVec.toNat_add, BitVec.toNat_shiftLeft, BitVec.toNat_setWidth,
    Nat.shiftLeft_eq]
  omega

theorem decode_ndLeaf_word (rd : NReg) (y : Sym) :
    decode (0x20000000 + (y.setWidth 32 <<< 16) + (rd.field.setWidth 32 <<< 12)) = .ok (.ndLeaf rd y) := by
  rw [← decodeOfEncodeIsTheCommand (.ndLeaf rd y)]
  simp [encode, encodeFields, wordOf_eq_sum]

theorem decode_ndBranch_word (rd ra rb : NReg) :
    decode (0x21000000 + (rd.field.setWidth 32 <<< 12) + (ra.field.setWidth 32 <<< 8) + (rb.field.setWidth 32 <<< 4)) =
      .ok (.ndBranch rd ra rb) := by
  rw [← decodeOfEncodeIsTheCommand (.ndBranch rd ra rb)]
  simp [encode, encodeFields, wordOf_eq_sum]

/-! ### The node-limit test at the end of a command (spec/10_state.md R24) -/

theorem State.conclude_checkLive_of_le (c : State) {t : State} (h : t.live ≤ Config.nodeCap) :
    c.conclude t.checkLive = { t with status := ⟨.ok, t.status.fatal, false⟩ } := by
  rw [State.checkLive_of_le h, State.conclude_ok, State.endWith_of_not_fatal rfl]

theorem State.conclude_checkLive_of_lt (c : State) {t : State} (h : Config.nodeCap < t.live) :
    c.conclude t.checkLive = { c with status := ⟨.capacityExceeded, true, false⟩ } := by
  rw [State.checkLive_of_lt h, State.conclude_error, State.endWith_of_fatal rfl]

/-! ### `ND.LEAF` and `ND.INFO` -/

/-- Settles O32: the node-limit test on the state with the Leaf in its register. -/
theorem leafTakesSymbolAndArg : Obligations.LeafTakesSymbolAndArg := by
  refine fun s rd sym => ⟨decode_ndLeaf_word rd sym, fun hle => ?_, fun hlt => ?_⟩
  · exact congrArg Host.Outcome.next
      (s.conclude_checkLive_of_le (t := s.setReg rd (.node (.leaf sym s.arg))) hle)
  · exact congrArg Host.Outcome.next
      (s.conclude_checkLive_of_lt (t := s.setReg rd (.node (.leaf sym s.arg))) hlt)

theorem execNdInfo_of_reg {s : State} {ra : NReg} {v : Slot} (hr : s.reg ra = v) :
    execNdInfo ra s = .next ((s.report v).endWith .ok) := by
  rw [execNdInfo, hr]

/-- Settles O34: success in both cases, with what `RES` reports of the slot. -/
theorem infoReportsARegister : Obligations.InfoReportsARegister :=
  fun _ ra => ⟨by cases ra <;> decide,
    fun hr => (execNdInfo_of_reg hr).trans (congrArg _ (State.endWith_of_not_fatal rfl _)),
    fun _ hr => (execNdInfo_of_reg hr).trans (congrArg _ (State.endWith_of_not_fatal rfl _))⟩

/-! ### `ND.BRANCH` -/

/-- The state `ND.BRANCH` tests and leaves: the sources emptied, then the Branch of their Nodes written (R98). -/
def State.joinNodes (s : State) (rd ra rb : NReg) (a b : Node) : State :=
  ((s.setReg ra .absent).setReg rb .absent).setReg rd (.node (.branch (a.freq + b.freq) (.node a) (.node b)))

section Branch

variable {s : State} {ra rb : NReg} {a b : Node} (rd : NReg)

theorem execNdBranch_of_illegal (h : ra = rb ∨ s.reg ra = .absent ∨ s.reg rb = .absent) :
    execNdBranch rd ra rb s = .next (s.endWith .illegalOperation) := by
  unfold execNdBranch
  by_cases hab : ra = rb
  · rw [if_pos hab, State.conclude_error]
  rw [if_neg hab]
  rcases h with h | h | h
  · exact absurd h hab
  · rw [h, State.conclude_error]
  · rw [h]
    cases s.reg ra <;> rfl

variable (hab : ra ≠ rb) (ha : s.reg ra = .node a) (hb : s.reg rb = .node b)
include hab ha hb

theorem execNdBranch_of_overflow (hsum : 2 ^ 32 ≤ a.freq.toNat + b.freq.toNat) :
    execNdBranch rd ra rb s = .next (s.endWith .capacityExceeded) := by
  rcases mkBranch_cases a b with ⟨-, hm⟩ | ⟨hfits, -⟩
  · simp only [execNdBranch, if_neg hab, ha, hb, hm, State.conclude_error]
  · omega

theorem execNdBranch_of_fits (hsum : a.freq.toNat + b.freq.toNat < 2 ^ 32) :
    execNdBranch rd ra rb s = .next (s.conclude (s.joinNodes rd ra rb a b).checkLive) := by
  rcases mkBranch_cases a b with ⟨hover, -⟩ | ⟨-, -, hm⟩
  · omega
  · simp only [execNdBranch, if_neg hab, ha, hb, hm, State.joinNodes]

end Branch

/-- Settles O33: the tests in their order, the last one on the state with the Branch in its register. -/
theorem branchJoinsTwoNodes : Obligations.BranchJoinsTwoNodes := by
  refine fun s rd ra rb => ⟨decode_ndBranch_word rd ra rb, fun h => ?_,
    fun a b hab ha hb => ⟨fun hover => ?_, fun hfits => ?_⟩⟩
  · exact (execNdBranch_of_illegal rd h).trans (congrArg _ (State.endWith_of_fatal rfl s))
  · exact (execNdBranch_of_overflow rd hab ha hb hover).trans (congrArg _ (State.endWith_of_fatal rfl s))
  · have hexec := execNdBranch_of_fits rd hab ha hb hfits
    refine ⟨a.freq + b.freq, by rw [BitVec.toNat_add, Nat.mod_eq_of_lt hfits], fun hle => ?_, fun hlt => ?_⟩
    · exact hexec.trans (congrArg _ (s.conclude_checkLive_of_le (t := s.joinNodes rd ra rb a b) hle))
    · exact hexec.trans (congrArg _ (s.conclude_checkLive_of_lt (t := s.joinNodes rd ra rb a b) hlt))

/-! ### `FREQ` -/

theorem execFreq_of_fits {s : State} (h0 : s.ilen ≠ 0) (h1 : s.ilen.toNat ≤ Config.ibufCap) :
    execFreq s = .next ((s.setFt (freqTable s.inputBytes)).endWith .ok) := by
  simp only [execFreq, State.textOperand_of_fits h0 h1, State.conclude_ok]

theorem execFreq_of_long {s : State} (h : Config.ibufCap < s.ilen.toNat) :
    execFreq s = .next ((s.setFt []).endWith .capacityExceeded) := by
  simp only [execFreq, State.textOperand, if_pos h, State.conclude_error]

theorem execFreq_of_empty {s : State} (h : s.ilen = 0) :
    execFreq s = .next ((s.setFt []).endWith .emptyInput) := by
  have hshort : ¬ Config.ibufCap < s.ilen.toNat := by simp [h]
  simp only [execFreq, State.textOperand, if_neg hshort, if_pos h, State.conclude_error]

/-- Settles O35: the input is shorter than the frequency width can count, so every count is exact. -/
theorem freqCountsTheInput : Obligations.FreqCountsTheInput := by
  refine ⟨by decide, fun s => ⟨fun h0 h1 => ⟨freqTable s.inputBytes, ?_, fun y => ?_⟩, fun h => ?_, fun h => ?_⟩⟩
  · exact (execFreq_of_fits h0 h1).trans (congrArg _ (State.endWith_of_not_fatal rfl _))
  · exact countAt_freqTable_toNat (by rw [State.inputBytes_length]; exact s.ilen.isLt) y
  · exact (execFreq_of_long h).trans (congrArg _ (State.endWith_of_fatal rfl _))
  · exact (execFreq_of_empty h).trans (congrArg _ (State.endWith_of_not_fatal rfl _))

/-! ### The Leaves in the queue (R103) -/

/-- The Leaves put in key by key are the Leaves put in symbol by symbol, the symbols that do not occur left out. -/
theorem foldl_pqInsert_leavesOf (t : Cells Freq) :
    (leavesOf t).foldl pqInsert [] =
      allSyms.foldl (fun h y => if countAt t y = 0 then h else pqInsert h (.leaf y (countAt t y))) [] := by
  rw [leavesOf, List.foldl_map, keysOf, List.foldl_filter]
  congr 1
  funext h y
  by_cases hy : countAt t y = 0 <;> simp [hy]

theorem foldl_pqInsert_leavesOf_length (t : Cells Freq) :
    ((leavesOf t).foldl pqInsert []).length = (keysOf t).length := by
  rw [(foldl_pqInsert_perm (leavesOf t) []).length_eq, List.append_nil, keysOf_length_eq_leavesOf]

/-! ### The built tree (R105, R106, R108) -/

section Built

variable {t : Cells Freq} {n : Node} (h : buildTree t = .ok n)
include h

/-- The tree builder's induction, for a tree that was built: the table is not all zero and its counts' sum fits. -/
theorem buildTree_ok_induct (P : List Node → Prop) (hperm : ∀ q q' : List Node, q.Perm q' → P q → P q')
    (hmerge : ∀ (a b : Node) (rest : List Node) (f : Freq), f.toNat = a.freq.toNat + b.freq.toNat →
      P (a :: b :: rest) → P (.branch f (.node a) (.node b) :: rest))
    (hP : P (leavesOf t)) : P [n] := by
  have hne : keysOf t ≠ [] := fun hk => nomatch (buildTree_of_no_keys hk).symm.trans h
  have hsum : (allSyms.map fun y => (countAt t y).toNat).sum < 2 ^ 32 :=
    Nat.lt_of_not_le fun ho => nomatch (buildTree_overflow t ho).symm.trans h
  obtain ⟨m, hm, hPm⟩ := buildTree_induct P hperm hmerge t hne hsum hP
  cases hm.symm.trans h
  exact hPm

/-- The tree is what the merge loop leaves alone in the queue (R105). -/
theorem mergeLoop_of_buildTree :
    mergeLoop ((leavesOf t).foldl pqInsert []).length ((leavesOf t).foldl pqInsert []) = .ok [n] := by
  simp only [buildTree] at h
  split at h
  · cases h
  · next q hq =>
    have hlen := mergeLoop_length _ (Nat.le_refl _) hq
    match q, hlen with
    | [], _ => cases h
    | [m], _ => cases h; exact hq

/-- The merge steps from the Leaves in the queue to the tree, one fewer than there are keys (R105). -/
theorem buildTree_chain :
    ∃ q : Nat → List Node, q 0 = (leavesOf t).foldl pqInsert [] ∧
      (∀ i, i + 1 < (keysOf t).length → mergeStep (q i) = .ok (q (i + 1))) ∧ q ((keysOf t).length - 1) = [n] := by
  rw [← foldl_pqInsert_leavesOf_length]
  exact mergeLoop_chain _ (Nat.le_refl _) (mergeLoop_of_buildTree h)

/-- One Leaf for each key, with the key's count (R108). -/
theorem buildTree_leaves_perm : (n.leaves.map (·.2)).Perm ((keysOf t).map fun y => (y, countAt t y)) := by
  have hall := buildTree_ok_induct h
    (fun q => (q.flatMap fun m => m.leaves.map (·.2)).Perm ((keysOf t).map fun y => (y, countAt t y)))
    (fun q q' hp hq => (hp.symm.flatMap_right fun m : Node => m.leaves.map (·.2)).trans hq)
    (fun a b rest f _ hq => by simpa [Node.leaves, Slot.leaves, Function.comp_def] using hq)
    (by simp [leavesOf, List.flatMap_map, Node.leaves, ← List.map_eq_flatMap])
  simpa using hall

/-- No merge leaves a child out (R108). -/
theorem buildTree_complete : n.complete = true := by
  have hall := buildTree_ok_induct h (fun q => ∀ m ∈ q, m.complete = true)
    (fun _ _ hp hq m hm => hq m (hp.symm.subset hm))
    (fun a b rest f _ hq m hm => by
      rcases List.mem_cons.mp hm with rfl | hm
      · simp [Node.complete, Slot.complete, Slot.present, hq a, hq b]
      · exact hq m (by simp [hm]))
    (fun m hm => by
      obtain ⟨y, -, rfl⟩ := List.mem_map.mp hm
      rfl)
  exact hall n (List.mem_singleton_self n)

/-- A merge keeps the sum of the frequencies in the queue, so the root has all of it (R108). -/
theorem buildTree_freq : n.freq.toNat = (allSyms.map fun y => (countAt t y).toNat).sum := by
  have hall := buildTree_ok_induct h (fun q => freqSum q = freqSum (leavesOf t))
    (fun _ _ hp hq => (freqSum_perm hp).symm.trans hq)
    (fun a b rest f hf hq => by simpa [hf, Nat.add_assoc] using hq) rfl
  simpa [freqSum_leavesOf] using hall

theorem buildTree_leaves_length : n.leaves.length = (keysOf t).length := by
  simpa using (buildTree_leaves_perm h).length_eq

end Built

theorem buildTree_of_fits {t : Cells Freq} (hne : keysOf t ≠ [])
    (hsum : (allSyms.map fun y => (countAt t y).toNat).sum < 2 ^ 32) :
    ∃ n, buildTree t = .ok n ∧ n.branches + 1 = (keysOf t).length ∧ n.size + 1 = 2 * (keysOf t).length := by
  obtain ⟨n, hn, -, hbranches⟩ := buildTree_leaves hne hsum
  refine ⟨n, hn, hbranches, ?_⟩
  rw [Node.size_eq, buildTree_leaves_length hn]
  omega

/-- No Leaf lies deeper than there are Branches, one fewer than the keys (R108). -/
theorem buildTree_depth {t : Cells Freq} {n : Node} (hbranches : n.branches + 1 = (keysOf t).length) :
    ∀ p ∈ n.leaves, p.1.length + 1 ≤ (keysOf t).length := fun p hp =>
  hbranches ▸ Nat.succ_le_succ (n.depth_le_branches p hp)

/-- Settles O36: a merge by the two extracts it makes; the tree by the inductions over the merge loop. -/
theorem builtTreeProperties : Obligations.BuiltTreeProperties := by
  refine ⟨fun h h1 h2 a b ha hb => ?_, fun t hne hsum => ?_⟩
  · rcases mergeStep_of_extract ha hb with ⟨hover, hm⟩ | ⟨hfits, hm⟩
    · exact ⟨fun hf => absurd hf (Nat.not_lt.mpr hover), fun _ => hm, fun ho => merged_order ho ha hb⟩
    · exact ⟨fun _ => hm, fun hv => absurd hfits (Nat.not_lt.mpr hv), fun ho => merged_order ho ha hb⟩
  · obtain ⟨n, hn, hbranches, hsize⟩ := buildTree_of_fits hne hsum
    have hchain := buildTree_chain hn
    rw [foldl_pqInsert_leavesOf] at hchain
    have hdepth := buildTree_depth hbranches
    have hkeys := keysOf_length_le t
    exact ⟨n, hn, hchain, buildTree_leaves_perm hn, buildTree_leaves_length hn, hbranches, hsize, buildTree_complete hn,
      buildTree_sumOk hn, buildTree_lighterLeft hn, buildTree_freq hn, hdepth,
      fun p hp => Nat.le_of_succ_le_succ ((hdepth p hp).trans hkeys)⟩

/-! ### `BUILDTREE` (R107) -/

/-- The state `BUILDTREE` tests and leaves: the tree in its register, the queue empty. -/
def State.treeBuilt (s : State) (rd : NReg) (n : Node) : State := (s.setReg rd (.node n)).setHeap []

theorem State.treeBuilt_eq (s : State) (rd : NReg) (n : Node) :
    ((s.setReg rd .absent).setHeap []).setReg rd (.node n) = s.treeBuilt rd n := by
  simp only [State.treeBuilt, State.setReg, State.setHeap, NodeRegs.set_set_same]

/-- `Live` of that state: what the other registers hold, and the tree (R24). -/
theorem State.treeBuilt_live (s : State) (rd : NReg) (n : Node) :
    (s.treeBuilt rd n).live = (s.regs.set rd .absent).live + n.size := by
  have hlive := (s.regs.set rd .absent).live_set rd (.node n)
  simpa [State.treeBuilt, State.live] using hlive

section Buildtree

variable {s : State} (rd : NReg)

theorem execBuildtree_of_no_keys (hk : keysOf s.ft = []) :
    execBuildtree rd s = .next (((s.setReg rd .absent).setHeap []).endWith .emptyInput) := by
  simp only [execBuildtree, if_pos hk, State.conclude_error]

variable (hk : keysOf s.ft ≠ [])
include hk

theorem execBuildtree_of_error {x : Completion} (hx : buildTree s.ft = .error x) :
    execBuildtree rd s = .next (((s.setReg rd .absent).setHeap []).endWith x) := by
  simp only [execBuildtree, if_neg hk, hx, State.conclude_error]

theorem execBuildtree_of_tree {n : Node} (hn : buildTree s.ft = .ok n) :
    execBuildtree rd s = .next (((s.setReg rd .absent).setHeap []).conclude (s.treeBuilt rd n).checkLive) := by
  simp only [execBuildtree, if_neg hk, hn, State.treeBuilt_eq]

end Buildtree

/-- Settles O37: the tree exists and has two Nodes for each key less one, so the node-limit test is on `room`. -/
theorem buildtreeLeavesTheTree : Obligations.BuildtreeLeavesTheTree := by
  intro s rd total room
  have hbuilt (hk : keysOf s.ft ≠ []) (hfits : total < 2 ^ 32) :
      ∃ n, buildTree s.ft = .ok n ∧ (s.treeBuilt rd n).live = room := by
    obtain ⟨n, hn, -, hsize⟩ := buildTree_of_fits hk hfits
    exact ⟨n, hn, by rw [State.treeBuilt_live]; omega⟩
  refine ⟨fun hk hfits hroom => ?_, fun hk hfail => ?_, fun hzero => ?_⟩
  · obtain ⟨n, hn, hlive⟩ := hbuilt hk hfits
    exact ⟨n, hn, (execBuildtree_of_tree rd hk hn).trans
      (congrArg _ (State.conclude_checkLive_of_le _ (hlive.trans_le hroom)))⟩
  · rcases Nat.lt_or_ge total (2 ^ 32) with hfits | hover
    · obtain ⟨n, hn, hlive⟩ := hbuilt hk hfits
      have hroom : Config.nodeCap < room := hfail.resolve_left (Nat.not_le.mpr hfits)
      exact (execBuildtree_of_tree rd hk hn).trans
        (congrArg _ (State.conclude_checkLive_of_lt _ (hlive ▸ hroom)))
    · exact (execBuildtree_of_error rd hk (buildTree_overflow s.ft hover)).trans
        (congrArg _ (State.endWith_of_fatal rfl _))
  · exact (execBuildtree_of_no_keys rd ((keysOf_eq_nil s.ft).mpr hzero)).trans
      (congrArg _ (State.endWith_of_not_fatal rfl _))

end Sys2Proof.Machine
end

section
/-! PROOFS. The code table extractor (spec/42_code_extractor.md R111, R112, R114, R115): which fault it raises, what its
table holds, the state `BUILDCODE` leaves, and the table it gives back of a reconstructed tree. -/

namespace Sys2Proof.Machine

/-! ### When the extractor raises (R111; spec/60_exceptions.md R168) -/

theorem buildCode_of_repeated {n : Node} (hrep : ¬ (n.leaves.map (·.2.1)).Nodup)
    (hlen : ∀ p ∈ n.leaves, p.1.length ≤ Config.maxCodeLen) : buildCode n = .error .illegalOperation := by
  cases h : buildCode n with
  | ok c =>
    obtain ⟨hnodup, -, -⟩ := buildCode_ok h
    exact absurd hnodup hrep
  | error x =>
    rcases buildCode_error h with ⟨rfl, -⟩ | ⟨-, p, hp, hdeep⟩
    · rfl
    · exact absurd (hlen p hp) (Nat.not_le.mpr hdeep)

theorem buildCode_of_deep {n : Node} (hnodup : (n.leaves.map (·.2.1)).Nodup)
    (hdeep : ∃ p ∈ n.leaves, Config.maxCodeLen < p.1.length) : buildCode n = .error .capacityExceeded := by
  cases h : buildCode n with
  | ok c =>
    obtain ⟨-, hlen, -⟩ := buildCode_ok h
    obtain ⟨p, hp, hlong⟩ := hdeep
    exact absurd (hlen p hp) (Nat.not_le.mpr hlong)
  | error x =>
    rcases buildCode_error h with ⟨-, hrep⟩ | ⟨rfl, -⟩
    · exact absurd hnodup hrep
    · rfl

section FirstFault

variable {n : Node} {before after : List (Code × Sym × Freq)} {p : Code × Sym × Freq}
  (hleaves : n.leaves = before ++ p :: after) (hnodup : (before.map (·.2.1)).Nodup)
  (hlen : ∀ q ∈ before, q.1.length ≤ 255)
include hleaves hnodup hlen

/-- Past Leaves without a fault the walk goes on with a table that has exactly their symbols (R111). -/
theorem buildCode_eq_walkLeaves :
    ∃ d, (∀ y, (codeAt d y).isSome = true ↔ y ∈ before.map (·.2.1)) ∧ buildCode n = walkLeaves [] (p :: after) d := by
  obtain ⟨d, hd, hsyms⟩ := walkLeaves_of_distinct hnodup hlen [] fun _ _ => rfl
  refine ⟨d, fun y => (hsyms y).trans (by simp), ?_⟩
  rw [buildCode, walkNode_eq_walkLeaves, hleaves, walkLeaves_append, hd]

theorem buildCode_of_first_repeated (hp : p.2.1 ∈ before.map (·.2.1)) : buildCode n = .error .illegalOperation := by
  obtain ⟨d, hsyms, hwalk⟩ := buildCode_eq_walkLeaves hleaves hnodup hlen
  rw [hwalk, walkLeaves, if_pos ((hsyms _).mpr hp)]

theorem buildCode_of_first_deep (hp : p.2.1 ∉ before.map (·.2.1)) (hdeep : Config.maxCodeLen < p.1.length) :
    buildCode n = .error .capacityExceeded := by
  obtain ⟨d, hsyms, hwalk⟩ := buildCode_eq_walkLeaves hleaves hnodup hlen
  rw [hwalk, walkLeaves, if_neg (mt (hsyms _).mp hp), if_pos (by simpa using hdeep)]

end FirstFault

/-! ### `BUILDCODE` (R112) -/

section Buildcode

variable {s : State} {ra : NReg}

theorem execBuildcode_of_absent (hr : s.reg ra = .absent) :
    execBuildcode ra s = .next ((s.setCt []).endWith .emptyInput) := by
  simp only [execBuildcode, hr, State.conclude_error]

variable {n : Node} (hr : s.reg ra = .node n)
include hr

theorem execBuildcode_of_error {x : Completion} (hx : buildCode n = .error x) :
    execBuildcode ra s = .next ((s.setCt []).endWith x) := by
  simp only [execBuildcode, hr, hx, State.conclude_error]

theorem execBuildcode_of_ok {c : CodeTable} (hc : buildCode n = .ok c) :
    execBuildcode ra s = .next ((s.writeCodes c).endWith .ok) := by
  simp only [execBuildcode, hr, hc, State.conclude_ok]

/-- The state `BUILDCODE` leaves when the extractor raises a fatal code (R112, R163). -/
theorem exec_buildcode_of_fatal {x : Completion} (hx : buildCode n = .error x) (hfatal : x.isFatal = true) :
    exec (.buildcode ra) s = .next { s with ct := [], status := ⟨x, true, false⟩ } :=
  (execBuildcode_of_error hr hx).trans (congrArg _ (State.endWith_of_fatal hfatal _))

end Buildcode

/-- Settles O39: an absent register, one kind of fault alone, and the first fault of the walk over the Leaves. -/
theorem buildcodeRaises : Obligations.BuildcodeRaises := by
  intro s ra
  refine ⟨fun hr => ?_, fun n hr => ⟨fun hrep hlen => ?_, fun hnodup hdeep => ?_,
    fun before after p hleaves hnodup hlen => ⟨fun hp => ?_, fun hp hdeep => ?_⟩⟩⟩
  · exact (execBuildcode_of_absent hr).trans (congrArg _ (State.endWith_of_not_fatal rfl _))
  · exact exec_buildcode_of_fatal hr (buildCode_of_repeated hrep hlen) rfl
  · exact exec_buildcode_of_fatal hr (buildCode_of_deep hnodup hdeep) rfl
  · exact exec_buildcode_of_fatal hr (buildCode_of_first_repeated hleaves hnodup hlen hp) rfl
  · exact exec_buildcode_of_fatal hr (buildCode_of_first_deep hleaves hnodup hlen hp hdeep) rfl

/-! ### What the extractor's table holds (R114) -/

section Extracted

variable {n : Node} {c : CodeTable} (hc : buildCode n = .ok c)
include hc

/-- No code is longer than a code may be (R114 (d)). -/
theorem buildCode_length_le {y : Sym} {b : Code} (hy : codeAt c y = some b) : b.length ≤ Config.maxCodeLen := by
  obtain ⟨-, hlen, hcode⟩ := buildCode_ok hc
  obtain ⟨f, hf⟩ := (hcode y b).mp hy
  exact hlen _ hf

/-- Codes of two symbols are the paths to two Leaves, and these part at some Branch (R114 (b)). -/
theorem buildCode_prefixFree : prefixFree c := by
  obtain ⟨-, -, hcode⟩ := buildCode_ok hc
  intro x y b d hxy hx hy hprefix
  obtain ⟨f, hf⟩ := (hcode x b).mp hx
  obtain ⟨g, hg⟩ := (hcode y d).mp hy
  have hsymm : Std.Symm fun p q : Code × Sym × Freq => ¬ Clash p.1 q.1 := ⟨fun _ _ hpq hqp => hpq hqp.symm⟩
  exact n.leaves_pairwise.forall hf hg (by simp [hxy]) (.inl hprefix)

/-- In a tree with a Branch at its root no path is empty (R114 (c)). -/
theorem buildCode_length_pos (hsize : 2 ≤ n.size) {y : Sym} {b : Code} (hy : codeAt c y = some b) :
    1 ≤ b.length := by
  obtain ⟨-, -, hcode⟩ := buildCode_ok hc
  obtain ⟨f, hf⟩ := (hcode y b).mp hy
  cases n with
  | leaf z g => simp at hsize
  | branch g l r =>
    rcases mem_leaves_branch.mp hf with ⟨q, -, hq⟩ | ⟨q, -, hq⟩ <;>
    · obtain ⟨rfl, -⟩ := Prod.mk.inj hq
      exact Nat.succ_pos _

end Extracted

/-- Settles O38: the extractor raises nothing, and what it stores is read back as the code it stored. -/
theorem buildcodeRecordsThePaths : Obligations.BuildcodeRecordsThePaths := by
  intro s ra n hr hnodup hlen
  obtain ⟨c, hc⟩ := buildCode_of_distinct hnodup hlen
  obtain ⟨-, -, hcode⟩ := buildCode_ok hc
  refine ⟨_, execBuildcode_of_ok hr hc, State.endWith_of_not_fatal rfl _, fun y b => ?_⟩
  have hread : ((s.writeCodes c).endWith .ok).codeOf y.toNat = codeAt c y :=
    State.codeOf_of_written rfl (fun _ _ => buildCode_length_le hc) y
  rw [hread, hcode]

/-- The frequency table of "abracadabra" (spec/41_node_and_tree_builder.md R107). -/
def abracadabraCounts : Cells Freq := [(0x61, 5), (0x62, 2), (0x63, 1), (0x64, 1), (0x72, 2)]

theorem keysOf_abracadabraCounts : keysOf abracadabraCounts = [0x61, 0x62, 0x63, 0x64, 0x72] := by decide +kernel

/-- The codes of "abracadabra" (R112). -/
theorem buildCode_abracadabra :
    (buildTree abracadabraCounts >>= buildCode) =
      .ok [(0x61, [false]), (0x62, [true, false]), (0x63, [true, true, true, false]), (0x64, [true, true, true, true]),
        (0x72, [true, true, false])] := by
  decide +kernel

/-- Settles O40: the properties one by one; the tree of "abracadabra" has more than one Leaf. -/
theorem extractedCodesArePrefixFree : Obligations.ExtractedCodesArePrefixFree := by
  refine ⟨fun n c hc => ?_, ?_⟩
  · obtain ⟨hnodup, -, hcode⟩ := buildCode_ok hc
    exact ⟨hnodup, hcode, buildCode_prefixFree hc, fun hsize _ _ => buildCode_length_pos hc hsize,
      fun _ _ => buildCode_length_le hc⟩
  · obtain ⟨n, hn, -, hsize⟩ := buildTree_of_fits (t := abracadabraCounts) (by simp [keysOf_abracadabraCounts])
      (by decide +kernel)
    simp only [keysOf_abracadabraCounts, List.length_cons, List.length_nil] at hsize
    have hcodes := buildCode_abracadabra
    rw [hn] at hcodes
    have htwo : 2 ≤ n.size := by omega
    exact ⟨n, _, _, _, _, hn, hcodes, fun _ _ => buildCode_length_pos hcodes htwo, rfl, rfl, rfl, by decide, by decide⟩

/-! ### The extractor on a reconstructed tree (R115) -/

/-- The Leaves of a reconstructed tree are the table's entries at their codes (spec/44_tree_reconstructor.md R127). -/
theorem mem_leaves_treeFromCode {c : CodeTable} {n : Node} (h : treeFromCode c = .ok n) (b : Code) (y : Sym) (f : Freq) :
    (b, y, f) ∈ n.leaves ↔ f = 0 ∧ codeAt c y = some b := by
  rw [(treeFromCode_leaves h).mem_iff, ← mem_entriesOf]
  simp only [List.mem_map, Prod.exists, Prod.mk.injEq]
  constructor
  · rintro ⟨z, d, hz, rfl, rfl, rfl⟩
    exact ⟨rfl, hz⟩
  · rintro ⟨rfl, hy⟩
    exact ⟨y, b, hy, rfl, rfl, rfl⟩

theorem treeFromCode_leaves_nodup {c : CodeTable} {n : Node} (h : treeFromCode c = .ok n) :
    (n.leaves.map (·.2.1)).Nodup := by
  have hsyms : (n.leaves.map (·.2.1)).Perm ((entriesOf c).map (·.1)) := by
    simpa [Function.comp_def] using (treeFromCode_leaves h).map (·.2.1)
  exact hsyms.nodup_iff.mpr (entriesOf_nodup c)

/-- Settles O45: the Leaves of the reconstructed tree are the entries, so their paths are the codes. -/
theorem extractorInvertsReconstructor : Obligations.ExtractorInvertsReconstructor := by
  intro c n hn hlen
  have hleaf := mem_leaves_treeFromCode hn
  obtain ⟨d, hd⟩ := buildCode_of_distinct (treeFromCode_leaves_nodup hn)
    fun p hp => hlen p.2.1 p.1 ((hleaf p.1 p.2.1 p.2.2).mp hp).2
  obtain ⟨-, -, hcode⟩ := buildCode_ok hd
  refine ⟨d, hd, fun y => Option.ext fun b => ?_⟩
  rw [hcode]
  simp only [hleaf, exists_eq_left]

end Sys2Proof.Machine
end

section
/-! PROOFS. The encoder (spec/43_encoder.md R117 to R121): the state `ENCODE` leaves, its three stages, the length of
what it writes, the way back through `DECODE`, and the texts on which the whole-pipeline commands complete. -/

namespace Sys2Proof.Machine

/-! ### The input as a text -/

theorem State.inputBytes_length_lt (s : State) : s.inputBytes.length < 2 ^ 32 := by
  rw [State.inputBytes_length]
  exact s.ilen.isLt

theorem State.inputBytes_ne_nil {s : State} (h0 : s.ilen ≠ 0) : s.inputBytes ≠ [] := by
  rw [ne_eq, ← List.length_eq_zero_iff, State.inputBytes_length]
  exact fun h => h0 (BitVec.eq_of_toNat_eq h)

/-! ### The codes of a text -/

section TextCodes

variable {b : List Byte} {n : Node} {c : CodeTable} (hn : buildTree (freqTable b) = .ok n)
include hn

theorem keysOf_freqTable_ne_nil : keysOf (freqTable b) ≠ [] :=
  fun hk => nomatch (buildTree_of_no_keys hk).symm.trans hn

/-- A tree of a text has at most 256 Leaves, so at most 511 Nodes (spec/41_node_and_tree_builder.md R108). -/
theorem buildTree_size_le (hb : b.length < 2 ^ 32) : n.size ≤ 511 := by
  obtain ⟨m, hm, -, hsize⟩ := buildTree_of_fits (keysOf_freqTable_ne_nil hn) (by rwa [sum_countAt_freqTable hb])
  cases hm.symm.trans hn
  have hkeys := keysOf_length_le (freqTable b)
  omega

/-- The symbols with a code are those of the text, so that every lookup of R117 finds an entry. -/
theorem codeAt_isSome_iff_mem (hc : buildCode n = .ok c) (hb : b.length < 2 ^ 32) (y : Sym) :
    (codeAt c y).isSome = true ↔ y ∈ b := by
  have hne : b ≠ [] := by
    rintro rfl
    exact keysOf_freqTable_ne_nil hn (by decide)
  obtain ⟨n', c', hn', hc', hsyms⟩ := exists_codes_of_text hne hb
  cases hn'.symm.trans hn
  cases hc'.symm.trans hc
  exact hsyms y

end TextCodes

/-- The encoded length, symbol by symbol of the alphabet (spec/43_encoder.md R120 (a)). -/
theorem encodeBits_length (c : CodeTable) (b : List Byte) :
    (encodeBits c b).length = (allSyms.map fun y => b.count y * ((codeAt c y).getD []).length).sum := by
  rw [sum_count_mul, encodeBits, List.length_flatMap]

/-- No symbol of a text takes more bits than a code may have. -/
theorem encodeBits_length_le {n : Node} {c : CodeTable} (hc : buildCode n = .ok c) (b : List Byte) :
    (encodeBits c b).length ≤ b.length * 255 := by
  rw [encodeBits, List.length_flatMap]
  refine (List.sum_le_card_nsmul _ Config.maxCodeLen fun x hx => ?_).trans_eq (by simp [Config.maxCodeLen])
  obtain ⟨y, -, rfl⟩ := List.mem_map.mp hx
  cases hy : codeAt c y with
  | none => exact Nat.zero_le _
  | some d => exact buildCode_length_le hc hy

/-! ### `ENCODE` (R118) -/

/-- The state `ENCODE` leaves, before `STATUS`, for the tree and the codes of its input (R118). -/
def State.encoded (s : State) (n : Node) (c : CodeTable) : State :=
  (((s.clearEncoding.setFt (freqTable s.inputBytes)).setReg .n0 (.node n)).writeCodes c).writeBits
    (encodeBits c s.inputBytes)

/-- `ENCODE` of an input that is a text (R118): the payload, or a limit is passed. -/
theorem execEncode_of_codes {s : State} (h0 : s.ilen ≠ 0) (h1 : s.ilen.toNat ≤ Config.ibufCap) {n : Node}
    {c : CodeTable} (hn : buildTree (freqTable s.inputBytes) = .ok n) (hc : buildCode n = .ok c) :
    execEncode s = .next (
      if (s.encoded n c).live ≤ Config.nodeCap ∧ (encodeBits c s.inputBytes).length ≤ Config.bitCap then
        (s.encoded n c).endWith .ok
      else s.clearEncoding.endWith .capacityExceeded) := by
  have hlive : ((s.clearEncoding.setFt (freqTable s.inputBytes)).setReg .n0 (.node n)).live =
    (s.encoded n c).live := rfl
  simp only [execEncode, State.textOperand_of_fits h0 h1, s.encodeStages_of_codes hn hc, hlive]
  by_cases hfit : (s.encoded n c).live ≤ Config.nodeCap ∧ (encodeBits c s.inputBytes).length ≤ Config.bitCap
  · rw [if_pos hfit, if_pos hfit]
    rfl
  · rw [if_neg hfit, if_neg hfit]
    rfl

theorem execEncode_of_textOperand_error {s : State} {x : Completion} (hx : s.textOperand = .error x) :
    execEncode s = .next (s.clearEncoding.endWith x) := by
  simp only [execEncode, hx, State.conclude_error]

/-- An `ENCODE` that succeeds leaves the payload of its text (R118), within the limits. -/
theorem execEncode_ok {s t : State} (h : exec .encode s = .next t) (hok : t.status.code = .ok) :
    ∃ n c, s.ilen ≠ 0 ∧ s.ilen.toNat ≤ Config.ibufCap ∧ buildTree (freqTable s.inputBytes) = .ok n ∧
      buildCode n = .ok c ∧ (s.encoded n c).live ≤ Config.nodeCap ∧
      (encodeBits c s.inputBytes).length ≤ Config.bitCap ∧ t = (s.encoded n c).endWith .ok := by
  rcases execEncode_cases s with ⟨x, hx, he⟩ | ⟨n, c, h0, h1, hn, hc, hlive, hbits, he⟩ <;> cases he.symm.trans h
  · have hxok : x = .ok := hok
    subst hxok
    rcases hx with hx | hx | ⟨h0, -, hx⟩
    · cases hx
    · cases hx
    · obtain ⟨n, c, hn, hc, -⟩ := exists_codes_of_text (State.inputBytes_ne_nil h0) s.inputBytes_length_lt
      rw [s.encodeStages_of_codes hn hc] at hx
      split at hx <;> cases hx
  · exact ⟨n, c, h0, h1, hn, hc, hlive, hbits, rfl⟩

/-- Settles O46: the text's tree and codes exist, and the two limits are all that is left to test. -/
theorem encodeLeavesThePayload : Obligations.EncodeLeavesThePayload := by
  intro s
  refine ⟨fun hlong => ?_, fun hempty => ?_, fun h0 h1 => ?_⟩
  · have hx : s.textOperand = .error .capacityExceeded := if_pos hlong
    exact (execEncode_of_textOperand_error hx).trans (congrArg _ (State.endWith_of_fatal rfl _))
  · have hx : s.textOperand = .error .emptyInput := by simp [State.textOperand, hempty]
    exact (execEncode_of_textOperand_error hx).trans (congrArg _ (State.endWith_of_not_fatal rfl _))
  · obtain ⟨n, c, hn, hc, -⟩ := exists_codes_of_text (State.inputBytes_ne_nil h0) s.inputBytes_length_lt
    refine ⟨n, c, hn, hc, ?_⟩
    intro b r
    have hr : (s.encoded n c).endWith .ok = { r with status := ⟨.ok, s.status.fatal, false⟩ } :=
      State.endWith_of_not_fatal rfl _
    have hfailed : s.clearEncoding.endWith .capacityExceeded =
        { failureState .encode s with status := ⟨.capacityExceeded, true, false⟩ } := State.endWith_of_fatal rfl _
    rw [← hr, ← hfailed]
    exact execEncode_of_codes h0 h1 hn hc

/-! ### The three stages (R119) -/

/-- `BUILDTREE` where the tree exists and keeps within the node limit (R107). -/
theorem execBuildtree_of_room {s : State} (rd : NReg) (hk : keysOf s.ft ≠ []) {n : Node} (hn : buildTree s.ft = .ok n)
    (hlive : (s.treeBuilt rd n).live ≤ Config.nodeCap) :
    execBuildtree rd s = .next ((s.treeBuilt rd n).endWith .ok) := by
  rw [execBuildtree_of_tree rd hk hn, State.checkLive_of_le hlive, State.conclude_ok]

/-- Settles O47: each stage finds what the one before left, and the node-limit test is the one `ENCODE` makes. -/
theorem encodeIsItsThreeStages : Obligations.EncodeIsItsThreeStages := by
  intro s t ht hok
  obtain ⟨n, c, h0, h1, hn, hc, hlive, -, rfl⟩ := execEncode_ok ht hok
  refine ⟨_, _, _, execFreq_of_fits h0 h1, execBuildtree_of_room .n0 (keysOf_freqTable_ne_nil hn) hn hlive,
    execBuildcode_of_ok (ra := .n0) rfl hc, rfl, ?_⟩
  simp only [State.endWith_of_not_fatal (x := .ok) rfl]
  rfl

/-! ### The encoded length (R120) -/

section Encoded

variable {n : Node} {c : CodeTable} (s : State)

/-- The number of bits a host reads after a successful `ENCODE`. -/
theorem State.encoded_bitn (hbits : (encodeBits c s.inputBytes).length ≤ Config.bitCap) :
    ((s.encoded n c).endWith .ok).bitn.toNat = (encodeBits c s.inputBytes).length :=
  (BitVec.toNat_ofNat ..).trans (Nat.mod_eq_of_lt (hbits.trans_lt (by decide)))

/-- Commands read the codes `ENCODE` stored as they were. -/
theorem State.encoded_codeOf (hc : buildCode n = .ok c) (y : Sym) :
    ((s.encoded n c).endWith .ok).codeOf y.toNat = codeAt c y :=
  State.codeOf_of_written rfl (fun _ _ => buildCode_length_le hc) y

end Encoded

/-- Settles O48: the table's counts are the text's, and the codes read back are those the bits were made of. -/
theorem encodedLengthIsTheWeightedSum : Obligations.EncodedLengthIsTheWeightedSum := by
  intro s t ht hok
  obtain ⟨n, c, -, -, -, hc, -, hbits, rfl⟩ := execEncode_ok ht hok
  rw [s.encoded_bitn hbits, encodeBits_length]
  refine congrArg List.sum (List.map_congr_left fun y _ => ?_)
  rw [s.encoded_codeOf hc, ← countAt_freqTable_toNat s.inputBytes_length_lt]
  rfl

/-! ### Back through `DECODE` (R121) -/

/-- The reconstructor looks at a table's present entries alone (spec/44_tree_reconstructor.md R124). -/
theorem treeFromCode_congr {c d : CodeTable} (h : ∀ y, codeAt c y = codeAt d y) : treeFromCode c = treeFromCode d :=
  congrArg treeFromEntries (entriesOf_congr h)

/-- The codes of a tree give back a tree no larger: it has the same Leaves at the same places and no Branch without one
below it (spec/42_code_extractor.md R115). -/
theorem treeFromCode_of_buildCode {n : Node} {c : CodeTable} (hc : buildCode n = .ok c) (hne : entriesOf c ≠ []) :
    ∃ m, treeFromCode c = .ok m ∧ m.size ≤ n.size := by
  rcases treeFromCode_cases hne with ⟨m, hm, -, -, hpopulated, -⟩ | ⟨-, hclash⟩
  · refine ⟨m, hm, Node.size_le_of_leaves m (.node n) hpopulated fun ⟨b, y, f⟩ hleaf => ?_⟩
    obtain ⟨-, -, hcode⟩ := buildCode_ok hc
    obtain ⟨-, hy⟩ := (mem_leaves_treeFromCode hm b y f).mp hleaf
    exact (hcode y b).mp hy
  · exact absurd (buildCode_prefixFree hc) hclash

/-- Decoding the encoding of a list without the sentinel gives the list, where two or more symbols have codes
(spec/45_decoder.md R135 (a)). -/
theorem decodeWalk_encodeBits {c : CodeTable} {n : Node} {l : List Sym} (hn : treeFromCode c = .ok n)
    (htwo : 2 ≤ (entriesOf c).length) (hl : ∀ y ∈ l, (codeAt c y).isSome) (hs : Config.sentinel ∉ l) :
    decodeWalk n (encodeBits c l) false = .ok l := by
  have hleaves : 2 ≤ n.leaves.length := by rwa [(treeFromCode_leaves hn).length_eq, List.length_map]
  obtain ⟨g, left, right, rfl⟩ := Node.branch_of_two_leaves hleaves
  have hwalk := walkBits_encode (require := false)
    (fun y b hy => ⟨0, (mem_leaves_treeFromCode hn b y 0).mpr ⟨rfl, hy⟩⟩) l hl hs [] []
  simpa [decodeWalk, walkBits] using hwalk

/-- `DECODE` where nothing is raised (R134). -/
theorem execDecode_of_walk {s : State} {n : Node} {out : List Sym} (hne : entriesOf s.codes ≠ [])
    (hbits : s.bitn.toNat ≤ Config.bitCap) (hn : treeFromCode s.codes = .ok n)
    (hlive : (s.clearDecoding.setReg .n0 (.node n)).live ≤ Config.nodeCap)
    (hwalk : decodeWalk n s.inputBits false = .ok out) (hout : out.length ≤ Config.obufCap) :
    execDecode s = .next (((s.clearDecoding.setReg .n0 (.node n)).writeOut out).endWith .ok) := by
  simp only [execDecode, State.decodeStages, if_neg hne, if_neg (Nat.not_lt.mpr hbits), hn, State.checkLive_of_le hlive,
    hwalk, if_neg (Nat.not_lt.mpr hout), State.conclude_ok]

/-- Replacing the tree of a register by a smaller one keeps within the node limit (spec/10_state.md R24). -/
theorem NodeRegs.live_set_le (regs : NodeRegs) (r : NReg) {v w : Slot} (h : v.size ≤ w.size) :
    (regs.set r v).live ≤ (regs.set r w).live := by
  have hv := regs.live_set r v
  have hw := regs.live_set r w
  omega

/-- Settles O51: `DECODE` finds the codes and the bits `ENCODE` left, rebuilds a tree that fits where the first one did,
and walks it along the encoding of the text. -/
theorem encodeThenDecodeReturnsTheText : Obligations.EncodeThenDecodeReturnsTheText := by
  intro s t ht hok hs htwo
  obtain ⟨n, c, -, h1, hn, hc, hlive, hbits, rfl⟩ := execEncode_ok ht hok
  have hsyms := codeAt_isSome_iff_mem hn hc s.inputBytes_length_lt
  have hentries : 2 ≤ (entriesOf c).length := by
    rw [entriesOf_length_of_text s.inputBytes_length_lt hsyms]
    exact htwo
  have hne : entriesOf c ≠ [] := List.ne_nil_of_length_pos (by omega)
  obtain ⟨m, hm, hsize⟩ := treeFromCode_of_buildCode hc hne
  generalize ht' : (s.encoded n c).endWith .ok = t
  have hcodes : ∀ y, codeAt t.codes y = codeAt c y := fun y => by
    rw [State.codeAt_codes, ← ht', s.encoded_codeOf hc]
  have hbitn : t.bitn.toNat = (encodeBits c s.inputBytes).length := by rw [← ht', s.encoded_bitn hbits]
  have hwalk : decodeWalk m t.inputBits false = .ok s.inputBytes := by
    rw [State.inputBits_of_written (by rw [← ht']; rfl) hbitn]
    exact decodeWalk_encodeBits hm hentries (fun y hy => (hsyms y).mpr hy) hs
  have hroom : (t.clearDecoding.setReg .n0 (.node m)).live ≤ Config.nodeCap := by
    rw [← ht']
    exact (s.regs.live_set_le .n0 (v := .node m) (w := .node n) hsize).trans hlive
  have hout : s.inputBytes.length ≤ Config.obufCap := by rwa [State.inputBytes_length]
  refine ⟨_, execDecode_of_walk (by rwa [entriesOf_congr hcodes]) (hbitn.trans_le hbits)
    ((treeFromCode_congr hcodes).trans hm) hroom hwalk hout, rfl, State.output_of_written rfl ?_⟩
  exact (BitVec.toNat_ofNat ..).trans (Nat.mod_eq_of_lt s.inputBytes_length_lt)

/-! ### Texts on which the whole-pipeline commands complete (R118, R142) -/

/-- A text's tree fits where 511 Nodes do: this is the `Live` that `ENCODE` and `COMPRESS` test, since they leave the
queue empty (spec/10_state.md R24). -/
theorem live_set_buildTree_le {b : List Byte} {n : Node} (hn : buildTree (freqTable b) = .ok n) (hb : b.length < 2 ^ 32)
    {regs : NodeRegs} (hroom : regs.live + 511 ≤ Config.nodeCap) : (regs.set .n0 (.node n)).live ≤ Config.nodeCap := by
  have hset := regs.live_set .n0 (.node n)
  have hsize := buildTree_size_le hn hb
  rw [Slot.size_node] at hset
  omega

/-- The code lengths of an alphabet together. -/
theorem sum_entriesOf_length_le {n : Node} {c : CodeTable} (hc : buildCode n = .ok c) :
    ((entriesOf c).map fun e => e.2.length).sum ≤ (entriesOf c).length * 255 := by
  refine (List.sum_le_card_nsmul _ Config.maxCodeLen fun x hx => ?_).trans_eq (by simp [Config.maxCodeLen])
  obtain ⟨⟨y, d⟩, he, rfl⟩ := List.mem_map.mp hx
  exact buildCode_length_le hc ((mem_entriesOf c y d).mp he)

/-- Settles O60: 1025 codes of 255 bits fit `BITS`, a container of them and of 255 codes fits `OBUF`, and a tree has at
most 511 Nodes. -/
theorem pipelineCommandsComplete : Obligations.PipelineCommandsComplete := by
  intro s h0 hlen hroom
  have h1 : s.ilen.toNat ≤ Config.ibufCap := hlen.trans (by decide)
  refine ⟨?_, fun hs hk => ?_⟩
  · obtain ⟨n, c, hn, hc, -⟩ := exists_codes_of_text (State.inputBytes_ne_nil h0) s.inputBytes_length_lt
    have hlive : (s.encoded n c).live ≤ Config.nodeCap :=
      live_set_buildTree_le (regs := s.regs) hn s.inputBytes_length_lt hroom
    have hbits : (encodeBits c s.inputBytes).length ≤ Config.bitCap := by
      have hle := encodeBits_length_le hc s.inputBytes
      rw [State.inputBytes_length] at hle
      rw [Config.bitCap]
      omega
    exact ⟨_, (execEncode_of_codes h0 h1 hn hc).trans (congrArg _ (if_pos ⟨hlive, hbits⟩)), rfl⟩
  · obtain ⟨n, c, hn, hc, hsyms⟩ := exists_codes_of_sentinelText h1
    have hl := sentinelText_length_lt h1
    have hlive : (s.compressed (s.inputBytes ++ [Config.sentinel]) n c).live ≤ Config.nodeCap :=
      live_set_buildTree_le (regs := s.regs) hn hl hroom
    have hbits : (encodeBits c (s.inputBytes ++ [Config.sentinel])).length ≤ 1025 * 255 := by
      have hle := encodeBits_length_le hc (s.inputBytes ++ [Config.sentinel])
      rw [List.length_append, State.inputBytes_length, List.length_singleton] at hle
      exact hle.trans (Nat.mul_le_mul_right _ (Nat.succ_le_succ hlen))
    have hout : (container c (encodeBits c (s.inputBytes ++ [Config.sentinel]))).length ≤ Config.obufCap := by
      have hcodes := sum_entriesOf_length_le hc
      rw [← entriesOf_length_of_text hl hsyms] at hk
      rw [container_length, Config.obufCap]
      omega
    exact ⟨_, (execCompress_of_codes h0 h1 hs rfl hk hn hc).trans
      (congrArg _ (if_pos ⟨hlive, hbits.trans (by decide), hout⟩)), rfl⟩

end Sys2Proof.Machine
end

section
/-! PROOFS. The tree reconstructor (spec/44_tree_reconstructor.md R124 to R128): when it raises, the tree it makes and
how large that is, and the state `TREEFROMCODE` leaves. -/

namespace Sys2Proof.Machine

/-! ### When the reconstructor raises (R125) -/

section Raises

variable {c : CodeTable} (hne : entriesOf c ≠ [])
include hne

theorem treeFromCode_of_prefixFree (h : prefixFree c) : ∃ n, treeFromCode c = .ok n := by
  rcases treeFromCode_cases hne with ⟨n, hn, -⟩ | ⟨-, hclash⟩
  · exact ⟨n, hn⟩
  · exact absurd h hclash

theorem treeFromCode_of_not_prefixFree (h : ¬ prefixFree c) : treeFromCode c = .error .structuralInconsistency := by
  rcases treeFromCode_cases hne with ⟨-, -, -, hfree, -⟩ | ⟨herr, -⟩
  · exact absurd hfree h
  · exact herr

end Raises

/-- Settles O41: the reconstructor's two cases, each under its condition. -/
theorem reconstructorRaisesExactlyWhenNotPrefixFree : Obligations.ReconstructorRaisesExactlyWhenNotPrefixFree :=
  fun _ hne => ⟨treeFromCode_of_prefixFree hne, treeFromCode_of_not_prefixFree hne⟩

/-! ### The reconstructed tree (R127, R128) -/

section Reconstructed

variable {c : CodeTable} {n : Node} (hn : treeFromCode c = .ok n)
include hn

/-- No Branch is left without a child (R127 (b)): every Branch lies on the way to an entry's Leaf. -/
theorem treeFromCode_noEmptyBranch (hne : entriesOf c ≠ []) : n.noEmptyBranch = true := by
  rcases treeFromCode_cases hne with ⟨m, hm, -, -, hpopulated, -⟩ | ⟨herr, -⟩
  · cases hm.symm.trans hn
    exact Node.noEmptyBranch_of_populated _ hpopulated
  · cases herr.symm.trans hn

/-- Each entry adds at most one Node for each bit of its code; the root stands before the first (R128). -/
theorem treeFromCode_size_le_sum : n.size ≤ 1 + (allSyms.map fun y => ((codeAt c y).getD []).length).sum := by
  rw [← sum_entriesOf_length]
  by_cases hne : entriesOf c = []
  · simp only [treeFromCode, hne, treeFromEntries, insertCodes, Except.ok.injEq] at hn
    subst hn
    exact Nat.le_add_right _ _
  · rcases treeFromCode_cases hne with ⟨m, hm, -, -, -, hsize⟩ | ⟨herr, -⟩
    · cases hm.symm.trans hn
      exact hsize
    · cases herr.symm.trans hn

/-- 256 codes of 255 bits, and the root (R128). -/
theorem treeFromCode_size_le (hlen : ∀ y b, codeAt c y = some b → b.length ≤ 255) : n.size ≤ 65281 := by
  have hcode (y : Sym) : ((codeAt c y).getD []).length ≤ 255 := by
    cases hy : codeAt c y with
    | none => exact Nat.zero_le _
    | some b => exact hlen y b hy
  have hsum := List.sum_le_card_nsmul (allSyms.map fun y => ((codeAt c y).getD []).length) 255
    (List.forall_mem_map.mpr fun y _ => hcode y)
  rw [List.length_map, allSyms_length, smul_eq_mul] at hsum
  exact (treeFromCode_size_le_sum hn).trans (Nat.add_le_add_left hsum 1)

end Reconstructed

/-- Settles O42: the properties of the tree one by one. -/
theorem reconstructedTreeProperties : Obligations.ReconstructedTreeProperties :=
  fun _ _ hn => ⟨mem_leaves_treeFromCode hn, treeFromCode_noEmptyBranch hn, treeFromCode_zeroFreq hn,
    treeFromCode_size_le hn⟩

/-! ### `TREEFROMCODE` (R126) -/

/-- A command reads no code of more than 255 bits: the stored length is a byte (spec/10_state.md R29). -/
theorem State.codeOf_length_le {s : State} {k : Nat} {b : Code} (h : s.codeOf k = some b) : b.length ≤ 255 := by
  obtain ⟨n, -, rfl⟩ := Option.map_eq_some_iff.mp h
  exact (List.length_take_le _ _).trans (Nat.le_of_lt_succ n.isLt)

/-- Clearing a register before it is written leaves no trace. -/
theorem State.setReg_setReg_same (s : State) (r : NReg) (v w : Slot) : (s.setReg r v).setReg r w = s.setReg r w := by
  simp only [State.setReg, NodeRegs.set_set_same]

/-- The node-limit test `TREEFROMCODE` makes once there is a tree (R126). -/
theorem execTreefromcode_of_tree {s : State} (rd : NReg) {n : Node} (hne : entriesOf s.codes ≠ [])
    (hn : treeFromCode s.codes = .ok n) :
    execTreefromcode rd s = .next ((s.setReg rd .absent).conclude (s.setReg rd (.node n)).checkLive) := by
  simp only [execTreefromcode, if_neg hne, hn, State.setReg_setReg_same]

/-- Settles O43: the tree exists, is small since codes are, and the node-limit test is on `Live` with the tree in its
register. -/
theorem treefromcodeLeavesTheTree : Obligations.TreefromcodeLeavesTheTree := by
  intro s rd hne hfree
  obtain ⟨n, hn⟩ := treeFromCode_of_prefixFree hne hfree
  have hlen (y : Sym) (b : Code) (hy : codeAt s.codes y = some b) : b.length ≤ 255 :=
    State.codeOf_length_le ((s.codeAt_codes y).symm.trans hy)
  refine ⟨n, hn, treeFromCode_size_le hn hlen, fun hroom => ?_⟩
  rw [← State.live_setReg_cleared, State.setReg_setReg_same] at hroom
  exact (execTreefromcode_of_tree rd hne hn).trans (congrArg _ (State.conclude_checkLive_of_le _ hroom))

end Sys2Proof.Machine
end

section
/-! PROOFS. The decoder (spec/45_decoder.md R131 to R136): what the walk gives, that it inverts the encoding, and the
state `DECODE` leaves. -/

namespace Sys2Proof.Machine

/-! ### Encoded lists in front of further bits (R135) -/

theorem encodeBits_append (c : CodeTable) (l l' : List Sym) :
    encodeBits c (l ++ l') = encodeBits c l ++ encodeBits c l' := List.flatMap_append

section Encoded

variable {c : CodeTable} {n : Node} {l : List Sym} (hn : treeFromCode c = .ok n) (htwo : 2 ≤ (entriesOf c).length)
include hn htwo

/-- Two entries are two Leaves, so the root is a Branch (spec/44_tree_reconstructor.md R127). -/
theorem treeFromCode_branch : ∃ g left right, n = .branch g left right := by
  refine Node.branch_of_two_leaves ?_
  rwa [(treeFromCode_leaves hn).length_eq, List.length_map]

variable (hl : ∀ y ∈ l, (codeAt c y).isSome) (hs : Config.sentinel ∉ l)
include hl hs

/-- The sentinel's code ends the walk, whatever bits follow it (R132, R135 (b)). -/
theorem decodeWalk_encodeBits_sentinel (hcode : (codeAt c Config.sentinel).isSome) (bs : Bits) (require : Bool) :
    decodeWalk n (encodeBits c (l ++ [Config.sentinel]) ++ bs) require = .ok l := by
  have hleaf (y : Sym) (b : Code) (hy : codeAt c y = some b) : (b, y, 0) ∈ n.leaves :=
    (mem_leaves_treeFromCode hn b y 0).mpr ⟨rfl, hy⟩
  obtain ⟨g, left, right, rfl⟩ := treeFromCode_branch hn htwo
  obtain ⟨d, hd⟩ := Option.isSome_iff_exists.mp hcode
  have hsentinel : encodeBits c [Config.sentinel] = d := by simp [encodeBits, hd]
  rw [encodeBits_append, hsentinel, List.append_assoc, decodeWalk,
    walkBits_encode (fun y b hy => ⟨0, hleaf y b hy⟩) l hl hs, walkBits_code (hleaf _ d hd), if_pos rfl,
    List.append_nil, List.reverse_reverse]

end Encoded

/-- Settles O50: a list with a sentinel in it is a list without one, the sentinel, and symbols whose bits the walk does
not look at. -/
theorem decodeWalkInvertsEncodeBits : Obligations.DecodeWalkInvertsEncodeBits := by
  intro c n l hn htwo hl
  refine ⟨decodeWalk_encodeBits hn htwo hl, fun hcode hs => decodeWalk_encodeBits_sentinel hn htwo hl hs hcode, ?_⟩
  by_cases hmem : Config.sentinel ∈ l
  · obtain ⟨before, after, rfl, hs⟩ := List.eq_append_cons_of_mem hmem
    have hbefore : (before ++ Config.sentinel :: after).takeWhile (fun y => y ≠ Config.sentinel) = before := by
      rw [List.takeWhile_append_of_pos fun y hy => by simpa using ne_of_mem_of_not_mem hy hs,
        List.takeWhile_cons_of_neg (by simp), List.append_nil]
    rw [hbefore, List.append_cons, encodeBits_append]
    exact decodeWalk_encodeBits_sentinel hn htwo (fun y hy => hl y (List.mem_append_left _ hy)) hs (hl _ hmem) _ _
  · rw [List.takeWhile_eq_self_iff.mpr fun y hy => by simpa using ne_of_mem_of_not_mem hy hmem]
    exact decodeWalk_encodeBits hn htwo hl hmem

/-! ### What the walk gives (R131 to R133, R136) -/

theorem decodeWalk_leaf (y : Sym) (f : Freq) (b : Bits) (require : Bool) :
    decodeWalk (.leaf y f) b require = if b = [] ∧ require = false then .ok [] else .error .malformedBitstream := by
  cases b <;> cases require <;> rfl

section Walk

variable {g : Freq} {l r : Slot} {ps : List (Code × Sym)} {require : Bool}
  (hps : ∀ p ∈ ps, p.2 ≠ Config.sentinel ∧ ∃ f, (p.1, p.2, f) ∈ (Node.branch g l r).leaves)
include hps

/-- After the codes of Leaves that are no sentinel the walk is at the root again and has their symbols (R131). -/
theorem decodeWalk_codes (tail : Bits) :
    decodeWalk (.branch g l r) (ps.flatMap (·.1) ++ tail) require =
      walkBits (.branch g l r) require (.branch g l r) true tail (ps.map (·.2)).reverse := by
  rw [decodeWalk, walkBits_codes ps hps, List.append_nil]

/-- A move to an absent child is malformed (R136 (i)). -/
theorem decodeWalk_of_absent_child {m : Node} {q : Bits} {d : Bool} (hm : m.kind = .branch)
    (hq : Slot.follow (.node (.branch g l r)) q = .node m) (hd : m.child d = .absent) (rest : Bits) :
    decodeWalk (.branch g l r) (ps.flatMap (·.1) ++ (q ++ d :: rest)) require = .error .malformedBitstream := by
  rw [decodeWalk_codes hps, walkBits_follow q hm hq, walkBits, hd]

/-- Bits that end away from the root are malformed (R136 (ii)). -/
theorem decodeWalk_of_end_below_root {m : Node} {q : Bits} (hm : m.kind = .branch)
    (hq : Slot.follow (.node (.branch g l r)) q = .node m) (hne : q ≠ []) :
    decodeWalk (.branch g l r) (ps.flatMap (·.1) ++ q) require = .error .malformedBitstream := by
  have hbelow : (true && q.isEmpty) = false := by simpa using hne
  rw [decodeWalk_codes hps, ← List.append_nil q, walkBits_follow q hm hq, hbelow, walkBits,
    if_pos Bool.not_false]

/-- Bits that end at the root give the symbols, unless the sentinel is required (R131, R136 (iv)). -/
theorem decodeWalk_of_end_at_root :
    decodeWalk (.branch g l r) (ps.flatMap (·.1) ++ []) require =
      if require then .error .malformedBitstream else .ok (ps.map (·.2)) := by
  rw [decodeWalk_codes hps, walkBits, if_neg (by decide), List.reverse_reverse]

/-- The sentinel's code gives the symbols before it (R132). -/
theorem decodeWalk_of_sentinel {q : Code} {f : Freq} (hq : (q, Config.sentinel, f) ∈ (Node.branch g l r).leaves)
    (rest : Bits) : decodeWalk (.branch g l r) (ps.flatMap (·.1) ++ (q ++ rest)) require = .ok (ps.map (·.2)) := by
  rw [decodeWalk_codes hps, walkBits_code hq, if_pos rfl, List.reverse_reverse]

end Walk

/-! ### The stages `DECODE` and `DECOMPRESS` share, where they raise (R134, R148) -/

section Stages

variable {s : State} {c : CodeTable} {n : Node} {b : Bits} {require : Bool}

theorem State.decodeStages_of_tree_error {x : Completion} (hx : treeFromCode c = .error x) :
    s.decodeStages c b require = .error x := by
  simp only [State.decodeStages, hx]

variable (hn : treeFromCode c = .ok n)
include hn

theorem State.decodeStages_of_live (hlive : Config.nodeCap < (s.clearDecoding.setReg .n0 (.node n)).live) :
    s.decodeStages c b require = .error .capacityExceeded := by
  simp only [State.decodeStages, hn, State.checkLive_of_lt hlive]

variable (hlive : (s.clearDecoding.setReg .n0 (.node n)).live ≤ Config.nodeCap)
include hlive

theorem State.decodeStages_of_walk_error {x : Completion} (hx : decodeWalk n b require = .error x) :
    s.decodeStages c b require = .error x := by
  simp only [State.decodeStages, hn, State.checkLive_of_le hlive, hx]

theorem State.decodeStages_of_long_output {out : List Sym} (hwalk : decodeWalk n b require = .ok out)
    (hout : Config.obufCap < out.length) : s.decodeStages c b require = .error .capacityExceeded := by
  simp only [State.decodeStages, hn, State.checkLive_of_le hlive, hwalk, if_pos hout]

end Stages

/-! ### `DECODE` (R134) -/

/-- `Live` with the rebuilt tree in `N0` is what the node-limit test of `DECODE` looks at (spec/10_state.md R24). -/
theorem State.live_clearDecoding_setReg (s : State) (n : Node) :
    (s.clearDecoding.setReg .n0 (.node n)).live = (s.regs.set .n0 (.node n)).live + heapLive s.heap := rfl

section Decode

variable {s : State}

theorem execDecode_of_no_entries (h : entriesOf s.codes = []) :
    execDecode s = .next (s.clearDecoding.endWith .emptyInput) := by
  simp only [execDecode, if_pos h, State.conclude_error]

variable (hne : entriesOf s.codes ≠ [])
include hne

theorem execDecode_of_long_bits (hbits : Config.bitCap < s.bitn.toNat) :
    execDecode s = .next (s.clearDecoding.endWith .capacityExceeded) := by
  simp only [execDecode, if_neg hne, if_pos hbits, State.conclude_error]

variable (hbits : s.bitn.toNat ≤ Config.bitCap)
include hbits

theorem execDecode_of_stages_error {x : Completion} (hx : s.decodeStages s.codes s.inputBits false = .error x) :
    execDecode s = .next (s.clearDecoding.endWith x) := by
  simp only [execDecode, if_neg hne, if_neg (Nat.not_lt.mpr hbits), hx, State.conclude_error]

/-- The state `DECODE` leaves when its stages raise a fatal code (R134, R163). -/
theorem exec_decode_of_fatal {x : Completion} (hx : s.decodeStages s.codes s.inputBits false = .error x)
    (hfatal : x.isFatal = true) :
    exec .decode s = .next { failureState .decode s with status := ⟨x, true, false⟩ } :=
  (execDecode_of_stages_error hne hbits hx).trans (congrArg _ (State.endWith_of_fatal hfatal _))

/-- The state `DECODE` leaves when nothing is raised (R134). -/
theorem exec_decode_of_walk {n : Node} {out : List Sym} (hn : treeFromCode s.codes = .ok n)
    (hlive : (s.clearDecoding.setReg .n0 (.node n)).live ≤ Config.nodeCap)
    (hwalk : decodeWalk n s.inputBits false = .ok out) (hout : out.length ≤ Config.obufCap) :
    ∃ t, exec .decode s = .next t ∧
      t = { s with regs := s.regs.set .n0 (.node n), obuf := t.obuf, olen := BitVec.ofNat 32 out.length,
                   status := ⟨.ok, s.status.fatal, false⟩ } ∧
      t.output = out := by
  refine ⟨_, execDecode_of_walk hne hbits hn hlive hwalk hout, State.endWith_of_not_fatal rfl _,
    State.output_of_written rfl ?_⟩
  exact (BitVec.toNat_ofNat ..).trans (Nat.mod_eq_of_lt (hout.trans_lt (by decide)))

end Decode

/-- Settles O49: the tests of `DECODE` in their order, then the ends of the walk on a Leaf and on a Branch. -/
theorem decodeLeavesTheOutput : Obligations.DecodeLeavesTheOutput := by
  refine ⟨?_, decodeWalk_leaf, ?_⟩
  · intro s failed
    refine ⟨fun hnone => ?_, fun hne => ⟨fun hlong => ?_, fun hbits => ⟨fun hclash => ?_, fun n hn => ?_⟩⟩⟩
    · have hnil : entriesOf s.codes = [] := (entriesOf_eq_nil _).mpr fun y => (s.codeAt_codes y).trans (hnone y)
      exact (execDecode_of_no_entries hnil).trans (congrArg _ (State.endWith_of_not_fatal rfl _))
    · exact (execDecode_of_long_bits hne hlong).trans (congrArg _ (State.endWith_of_fatal rfl _))
    · have herr := treeFromCode_of_not_prefixFree hne hclash
      exact exec_decode_of_fatal hne hbits (State.decodeStages_of_tree_error herr) rfl
    · rw [← s.live_clearDecoding_setReg]
      refine ⟨fun hlive => ?_, fun hlive => ⟨fun x hx => ?_, fun out hwalk => ⟨fun hout => ?_, ?_⟩⟩⟩
      · exact exec_decode_of_fatal hne hbits (State.decodeStages_of_live hn hlive) rfl
      · cases decodeWalk_error hx
        exact exec_decode_of_fatal hne hbits (State.decodeStages_of_walk_error hn hlive hx) rfl
      · exact exec_decode_of_fatal hne hbits (State.decodeStages_of_long_output hn hlive hwalk hout) rfl
      · exact exec_decode_of_walk hne hbits hn hlive hwalk
  · intro g l r ps tail require n hps walk
    refine ⟨?_, fun m hm hne hq => decodeWalk_of_end_below_root hps hm hq hne, ?_, ?_⟩
    · rintro q rest d m hm hq hd rfl
      exact decodeWalk_of_absent_child hps hm hq hd rest
    · rintro rfl
      exact decodeWalk_of_end_at_root hps
    · rintro q rest f hq rfl
      exact decodeWalk_of_sentinel hps hq rest

end Sys2Proof.Machine
end

section
/-! PROOFS. The container codec's commands (spec/46_container_codec.md R141, R142, R147, R148, R151): what `COMPRESS`
refuses, what `DECOMPRESS` leaves and when it raises, and the way back from the one through the other. -/

namespace Sys2Proof.Machine

/-! ### What `COMPRESS` refuses (R141) -/

theorem execCompress_of_textOperand_error {s : State} {x : Completion} (hx : s.textOperand = .error x) :
    execCompress s = .next (s.clearCompress.endWith x) := by
  simp only [execCompress, hx, State.conclude_error]

/-- A text the container has no place for: the sentinel in it, or too many symbols for the count byte (R141). -/
theorem execCompress_of_unrepresentable {s : State} (h0 : s.ilen ≠ 0) (h1 : s.ilen.toNat ≤ Config.ibufCap)
    (h : Config.sentinel ∈ s.inputBytes ∨
      Config.maxCount < (keysOf (freqTable (s.inputBytes ++ [Config.sentinel]))).length) :
    execCompress s = .next (s.clearCompress.endWith .unrepresentable) := by
  simp only [execCompress, State.textOperand_of_fits h0 h1]
  by_cases hs : Config.sentinel ∈ s.inputBytes
  · rw [if_pos (List.contains_iff_mem.mpr hs), State.conclude_error]
  · rw [if_neg (mt List.contains_iff_mem.mp hs), if_pos (h.resolve_left hs), State.conclude_error]

/-- Settles O54: the tests of the text operand, then the two of the text itself. -/
theorem compressRefusals : Obligations.CompressRefusals := by
  intro s
  refine ⟨fun hlong => ?_, fun hempty => ?_, fun h0 h1 h => ?_⟩
  · have hx : s.textOperand = .error .capacityExceeded := if_pos hlong
    exact (execCompress_of_textOperand_error hx).trans (congrArg _ (State.endWith_of_fatal rfl _))
  · have hx : s.textOperand = .error .emptyInput := by simp [State.textOperand, hempty]
    exact (execCompress_of_textOperand_error hx).trans (congrArg _ (State.endWith_of_not_fatal rfl _))
  · exact (execCompress_of_unrepresentable h0 h1 h).trans (congrArg _ (State.endWith_of_fatal rfl _))

/-! ### What a parsed container is (R145, R147) -/

/-- What parses as a container begins with the magic and a count byte. -/
theorem parseContainer_ok {l : List Byte} {p : CodeTable × Bits} (h : parseContainer l = .ok p) :
    ∃ nb body, l = Config.magic0 :: Config.magic1 :: nb :: body ∧ parseBody nb.toNat body = .ok p := by
  unfold parseContainer at h
  split at h
  · next m0 m1 rest =>
    split at h
    · cases h
    · next hmagic =>
      simp only [ne_eq, Bool.or_eq_true, decide_eq_true_eq, not_or, not_not] at hmagic
      obtain ⟨rfl, rfl⟩ := hmagic
      split at h
      · cases h
      · exact ⟨_, _, rfl, h⟩
  · cases h

/-- The magic is looked at before anything else (R147). -/
theorem parseContainer_of_bad_magic {l : List Byte}
    (h : l.length < 2 ∨ l[0]? ≠ some Config.magic0 ∨ l[1]? ≠ some Config.magic1) :
    parseContainer l = .error .formatMismatch := by
  match l with
  | [] | [_] => rfl
  | m0 :: m1 :: rest =>
    have hmagic : m0 ≠ Config.magic0 ∨ m1 ≠ Config.magic1 := by simpa using h
    exact if_pos (by simpa using hmagic)

/-- The bits after the codes of a parsed container stand in its bytes. -/
theorem parseContainer_rest_length {l : List Byte} {c : CodeTable} {rest : Bits}
    (h : parseContainer l = .ok (c, rest)) : rest.length ≤ 8 * l.length := by
  obtain ⟨nb, body, rfl, hbody⟩ := parseContainer_ok h
  rcases parseBody_eq nb.toNat body with ⟨-, herr⟩ | ⟨-, hok⟩
  · cases herr.symm.trans hbody
  · cases hok.symm.trans hbody
    simp only [List.length_drop, unpack_length, List.length_cons]
    omega

/-- The bits of a container that fits `IBUF` fit `BITS` (R148). -/
theorem State.rest_length_le_bitCap {s : State} {c : CodeTable} {rest : Bits} (hi : s.ilen.toNat ≤ Config.ibufCap)
    (h : parseContainer s.inputBytes = .ok (c, rest)) : rest.length ≤ Config.bitCap := by
  have hrest := parseContainer_rest_length h
  rw [State.inputBytes_length] at hrest
  exact hrest.trans (Nat.mul_le_mul_left 8 hi)

/-! ### `DECOMPRESS` (R148) -/

/-- The stages `DECODE` and `DECOMPRESS` share, where they raise nothing. -/
theorem State.decodeStages_of_output {s : State} {c : CodeTable} {n : Node} {b : Bits} {require : Bool} {out : List Sym}
    (hn : treeFromCode c = .ok n) (hlive : (s.clearDecoding.setReg .n0 (.node n)).live ≤ Config.nodeCap)
    (hwalk : decodeWalk n b require = .ok out) (hout : out.length ≤ Config.obufCap) :
    s.decodeStages c b require = .ok ((s.clearDecoding.setReg .n0 (.node n)).writeOut out) := by
  simp only [State.decodeStages, hn, State.checkLive_of_le hlive, hwalk, if_neg (Nat.not_lt.mpr hout)]

/-- `Live` with the rebuilt tree in `N0` is what the node-limit test of `DECOMPRESS` looks at (spec/10_state.md R24). -/
theorem State.live_clearDecompress_setReg (s : State) (n : Node) :
    (s.clearDecompress.clearDecoding.setReg .n0 (.node n)).live = (s.regs.set .n0 (.node n)).live + heapLive s.heap := rfl

theorem execDecompress_of_long {s : State} (h : Config.ibufCap < s.ilen.toNat) :
    execDecompress s = .next (s.clearDecompress.endWith .capacityExceeded) := by
  simp only [execDecompress, if_pos h, State.conclude_error]

/-- A `DECOMPRESS` that ends in a fatal code has its destinations cleared and `FATAL` set (R163, R164). -/
theorem exec_decompress_of_fatal {s : State} {x : Completion}
    (h : execDecompress s = .next (s.clearDecompress.endWith x)) (hfatal : x.isFatal = true) :
    exec .decompress s = .next { failureState .decompress s with status := ⟨x, true, false⟩ } :=
  h.trans (congrArg _ (State.endWith_of_fatal hfatal _))

section Decompress

variable {s : State} {c : CodeTable} {rest : Bits} (hi : s.ilen.toNat ≤ Config.ibufCap)
  (hp : parseContainer s.inputBytes = .ok (c, rest))
include hi hp

theorem execDecompress_of_stages_error {x : Completion} (hx : s.clearDecompress.decodeStages c rest true = .error x) :
    execDecompress s = .next (s.clearDecompress.endWith x) := by
  have hbits := State.rest_length_le_bitCap hi hp
  simp only [execDecompress, if_neg (Nat.not_lt.mpr hi), hp, if_neg (Nat.not_lt.mpr hbits), hx, State.conclude_error]

theorem execDecompress_of_stages_ok {t : State} (ht : s.clearDecompress.decodeStages c rest true = .ok t) :
    execDecompress s = .next (((t.writeCodes c).writeBits rest).endWith .ok) := by
  have hbits := State.rest_length_le_bitCap hi hp
  simp only [execDecompress, if_neg (Nat.not_lt.mpr hi), hp, if_neg (Nat.not_lt.mpr hbits), ht, State.conclude_ok]

end Decompress

/-- Settles O56: the stages give the tree and the text, and the table and the bits are written after them. -/
theorem decompressLeavesTheText : Obligations.DecompressLeavesTheText := by
  intro s c rest n out hi hp _ hn hlive hwalk hout
  have hstages := State.decodeStages_of_output hn ((s.live_clearDecompress_setReg n).trans_le hlive) hwalk hout
  refine ⟨_, execDecompress_of_stages_ok hi hp hstages, State.endWith_of_not_fatal rfl _, State.output_of_written rfl ?_⟩
  exact (BitVec.toNat_ofNat ..).trans (Nat.mod_eq_of_lt (hout.trans_lt (by decide)))

/-- Settles O57: the tests in their order, the last four those of the stages shared with `DECODE`. -/
theorem decompressTestsTheMagicFirst : Obligations.DecompressTestsTheMagicFirst := by
  intro s failed
  refine ⟨fun hlong => exec_decompress_of_fatal (execDecompress_of_long hlong) rfl, fun hi => ⟨fun hmagic => ?_,
    fun x hx => ?_, fun c rest hp => ⟨State.rest_length_le_bitCap hi hp, fun hclash => ?_, fun n hn => ?_⟩⟩⟩
  · exact exec_decompress_of_fatal (execDecompress_of_parse_error hi (parseContainer_of_bad_magic hmagic)) rfl
  · have hfatal : x.isFatal = true := by rcases parseContainer_error hx with rfl | rfl <;> rfl
    exact exec_decompress_of_fatal (execDecompress_of_parse_error hi hx) hfatal
  · have hne : entriesOf c ≠ [] := fun hnil => hclash (prefixFree_of_no_entries hnil)
    have herr := treeFromCode_of_not_prefixFree hne hclash
    exact exec_decompress_of_fatal (execDecompress_of_stages_error hi hp (State.decodeStages_of_tree_error herr)) rfl
  · rw [← s.live_clearDecompress_setReg]
    refine ⟨fun hlive => ?_, fun hlive => ⟨fun x hx => ?_, fun out hwalk hout => ?_⟩⟩
    · exact exec_decompress_of_fatal (execDecompress_of_stages_error hi hp (State.decodeStages_of_live hn hlive)) rfl
    · cases decodeWalk_error hx
      exact exec_decompress_of_fatal
        (execDecompress_of_stages_error hi hp (State.decodeStages_of_walk_error hn hlive hx)) rfl
    · exact exec_decompress_of_fatal
        (execDecompress_of_stages_error hi hp (State.decodeStages_of_long_output hn hlive hwalk hout)) rfl

/-! ### Back through `DECOMPRESS` (R151) -/

/-- The text of a `COMPRESS` that succeeds is one it does not refuse (R141, R142). -/
theorem execCompress_accepts {s t : State} (h : exec .compress s = .next t) (hok : t.status.code = .ok) :
    s.ilen ≠ 0 ∧ s.ilen.toNat ≤ Config.ibufCap ∧ Config.sentinel ∉ s.inputBytes ∧
      (keysOf (freqTable (s.inputBytes ++ [Config.sentinel]))).length ≤ Config.maxCount := by
  obtain ⟨hlong, hempty, hunrepresentable⟩ := compressRefusals s
  have h1 : s.ilen.toNat ≤ Config.ibufCap := by
    by_contra hc
    cases (hlong (Nat.lt_of_not_le hc)).symm.trans h
    cases hok
  have h0 : s.ilen ≠ 0 := by
    intro hc
    cases (hempty hc).symm.trans h
    cases hok
  have hfits : ¬ (Config.sentinel ∈ s.inputBytes ∨
      255 < (keysOf (freqTable (s.inputBytes ++ [Config.sentinel]))).length) := by
    intro hc
    cases (hunrepresentable h0 h1 hc).symm.trans h
    cases hok
  rw [not_or] at hfits
  exact ⟨h0, h1, hfits.1, Nat.le_of_not_lt hfits.2⟩

section Compressed

variable {s : State} {l : List Byte} {n : Node} {c : CodeTable}
  (hout : (container c (encodeBits c l)).length ≤ Config.obufCap)
include hout

theorem State.compressed_olen :
    ((s.compressed l n c).endWith .ok).olen.toNat = (container c (encodeBits c l)).length :=
  (BitVec.toNat_ofNat ..).trans (Nat.mod_eq_of_lt (hout.trans_lt (by decide)))

/-- A host reads back the container `COMPRESS` wrote (R142). -/
theorem State.compressed_output : ((s.compressed l n c).endWith .ok).output = container c (encodeBits c l) :=
  State.output_of_written rfl (State.compressed_olen hout)

end Compressed

/-- A text with two symbols in it has two or more. -/
theorem two_le_keysOf_freqTable {b : List Byte} (hb : b.length < 2 ^ 32) {y z : Sym} (hy : y ∈ b) (hz : z ∈ b)
    (hne : y ≠ z) : 2 ≤ (keysOf (freqTable b)).length := by
  have hsub : [y, z] ⊆ keysOf (freqTable b) := by
    simp only [List.cons_subset, List.nil_subset, and_true, mem_keysOf_freqTable hb]
    exact ⟨hy, hz⟩
  exact (List.subperm_of_subset (by simpa using hne) hsub).length_le

/-- A text's tree has two Nodes for each symbol less one (spec/41_node_and_tree_builder.md R108). -/
theorem buildTree_size_succ {b : List Byte} {n : Node} (hn : buildTree (freqTable b) = .ok n) (hb : b.length < 2 ^ 32) :
    n.size + 1 = 2 * (keysOf (freqTable b)).length := by
  obtain ⟨m, hm, -, hsize⟩ := buildTree_of_fits (keysOf_freqTable_ne_nil hn) (by rwa [sum_countAt_freqTable hb])
  cases hm.symm.trans hn
  exact hsize

/-- The container of a text with the sentinel behind it parses to the text's codes and bits, the codes rebuild a tree no
larger than the text's, and the walk stops at the sentinel, before the padding (R135 (b), R151). -/
theorem exists_decoded_container {b l : List Byte} {n : Node} {c : CodeTable} (hl : l = b ++ [Config.sentinel])
    (hlen : l.length < 2 ^ 32) (hn : buildTree (freqTable l) = .ok n) (hc : buildCode n = .ok c)
    (hs : Config.sentinel ∉ b) (htwo : 2 ≤ (keysOf (freqTable l)).length)
    (hmax : (keysOf (freqTable l)).length ≤ Config.maxCount) :
    ∃ d rest m, parseContainer (container c (encodeBits c l)) = .ok (d, rest) ∧ treeFromCode d = .ok m ∧
      m.size ≤ 511 ∧ decodeWalk m rest true = .ok b := by
  have hsyms := codeAt_isSome_iff_mem hn hc hlen
  have hsize := buildTree_size_succ hn hlen
  rw [← entriesOf_length_of_text hlen hsyms] at hsize htwo hmax
  have hne : entriesOf c ≠ [] := List.ne_nil_of_length_pos (by omega)
  obtain ⟨d, k, hd, -, hcodes⟩ := parseContainer_container hne hmax
    (fun y e hy => ⟨buildCode_length_pos hc (by omega) hy, buildCode_length_le hc hy⟩) (encodeBits c l)
  obtain ⟨m, hm, hmn⟩ := treeFromCode_of_buildCode hc hne
  refine ⟨d, _, m, hd, (treeFromCode_congr hcodes).trans hm, hmn.trans (buildTree_size_le hn hlen), ?_⟩
  subst hl
  exact decodeWalk_encodeBits_sentinel hm htwo (fun y hy => (hsyms y).mpr (List.mem_append_left _ hy)) hs
    ((hsyms _).mpr (List.mem_append_right _ (List.mem_singleton_self _))) _ true

/-- Settles O59: the container is within the input's capacity, and what is decoded from it is what `DECOMPRESS` leaves. -/
theorem compressThenDecompressReturnsTheText : Obligations.CompressThenDecompressReturnsTheText := by
  intro s t u ht hok hilen hin hroom
  obtain ⟨h0, h1, hs, hmax⟩ := execCompress_accepts ht hok
  obtain ⟨l, n, c, rfl, hl, hn, hc, -, -, hout, rfl⟩ := execCompress_ok ht hok
  obtain ⟨y, hy⟩ := List.exists_mem_of_ne_nil _ (State.inputBytes_ne_nil h0)
  have htwo := two_le_keysOf_freqTable hl (List.mem_append_left _ hy) (List.mem_append_right _ (List.mem_singleton_self _))
    (ne_of_mem_of_not_mem hy hs)
  obtain ⟨d, rest, m, hp, hm, hsize, hwalk⟩ := exists_decoded_container rfl hl hn hc hs htwo hmax
  rw [← State.compressed_output hout, ← hin] at hp
  have hi : u.ilen.toNat ≤ Config.ibufCap := by rwa [hilen, State.compressed_olen hout]
  have hlive : (u.regs.set .n0 (.node m)).live + heapLive u.heap ≤ Config.nodeCap := by
    have hset := u.live_setReg_cleared .n0 m
    rw [State.setReg_setReg_same, State.live, State.setReg_regs, State.setReg_heap] at hset
    omega
  have htext : s.inputBytes.length ≤ Config.obufCap := by rwa [State.inputBytes_length]
  obtain ⟨v, hv, hstate, hv_out⟩ := decompressLeavesTheText u d rest m s.inputBytes hi hp
    (State.rest_length_le_bitCap hi hp) hm hlive hwalk htext
  exact ⟨v, hv, by rw [hstate], hv_out⟩

end Sys2Proof.Machine
end

section
/-! PROOFS. How commands and steps end: every step gives a next state (spec/70_reset_and_hazards.md R174 to R177, R185,
R188); a command raises one of its codes and leaves its failure state, or succeeds (spec/60_exceptions.md R158, R163,
R164); its frame over node registers, queue, `RES` and `ARG` (R183); `CLRSTAT` (spec/47_system.md R153). -/

namespace Sys2Proof.Machine

/-! ### Every step gives a next state -/

/-- No arm of the dispatch answers a fault or a refusal (R188). -/
theorem exec_next (i : Instr) (s : State) : ∃ t, exec i s = .next t := by
  cases i <;> exact ⟨_, rfl⟩

theorem issue_next (w : Word) (s : State) : ∃ t, issue w s = .next t := by
  unfold issue
  split
  · exact exec_next _ _
  · exact ⟨_, rfl⟩

theorem takeStep_next (m : Move) (s : State) : ∃ t, takeStep m s = .next t := by
  unfold takeStep
  split
  · split
    · exact ⟨_, rfl⟩
    · exact issue_next _ _
  all_goals exact ⟨_, rfl⟩

theorem step_of_no_host {s : State} (h : s.host = []) : step s = .next s := by
  simp only [step, stepHost, h]

/-- Settles O8: an idle step keeps the state, and every move gives a next state. -/
theorem everyStepGivesANextState : Obligations.EveryStepGivesANextState := by
  intro s
  cases h : s.host with
  | nil => exact ⟨s, step_of_no_host h⟩
  | cons m rest => rw [step_of_host h]; exact takeStep_next m _

/-- Settles O10: the move is a hardware reset, or there is none. -/
theorem hardResetAndIdleSteps : Obligations.HardResetAndIdleSteps := by
  refine ⟨fun s rest h => ?_, fun s h => step_of_no_host h⟩
  rw [step_of_host h]
  rfl

/-! ### `CLRSTAT` -/

/-- Settles O18: the sticky flag of every other command is R159's. -/
theorem clrstatClearsOnlyStatus : Obligations.ClrstatClearsOnlyStatus := by
  refine ⟨by decide, fun s => rfl, fun i s t hc hr hfatal ht => ?_⟩
  obtain ⟨-, -, hsticky⟩ := fatalFlagIsSticky i s t ht
  rw [hsticky hc hr, hfatal, Bool.true_or]

/-! ### What the shared stages raise (R158) -/

theorem buildTree_error {t : Cells Freq} {x : Completion} (h : buildTree t = .error x) :
    x = .emptyInput ∨ x = .capacityExceeded := by
  by_cases hk : keysOf t = []
  · cases (buildTree_of_no_keys hk).symm.trans h
    exact .inl rfl
  · rcases Nat.lt_or_ge (allSyms.map fun y => (countAt t y).toNat).sum (2 ^ 32) with hfits | hover
    · obtain ⟨n, hn, -⟩ := buildTree_of_fits hk hfits
      cases hn.symm.trans h
    · cases (buildTree_overflow t hover).symm.trans h
      exact .inr rfl

/-- A built tree's Leaves carry distinct symbols (R108). -/
theorem buildTree_leaves_nodup {t : Cells Freq} {n : Node} (h : buildTree t = .ok n) : (n.leaves.map (·.2.1)).Nodup := by
  have hperm := (buildTree_leaves_perm h).map Prod.fst
  simp only [List.map_map, Function.comp_def, List.map_id'] at hperm
  exact hperm.nodup_iff.mpr (keysOf_nodup t)

/-- The symbols of a built tree are distinct, so its extraction does not raise `IllegalOperation`. -/
theorem State.encodeStages_error {s : State} {b : List Byte} {x : Completion} (h : s.encodeStages b = .error x) :
    x = .emptyInput ∨ x = .capacityExceeded := by
  rcases s.encodeStages_cases b with ⟨y, hy, hwhy⟩ | ⟨n, c, -, -, -, -, hok⟩
  · cases hy.symm.trans h
    rcases hwhy with htree | hcap | ⟨n, hn, hcode⟩
    · exact buildTree_error htree
    · exact .inr hcap
    · rcases buildCode_error hcode with ⟨-, hrep⟩ | ⟨hcap, -⟩
      · exact absurd (buildTree_leaves_nodup hn) hrep
      · exact .inr hcap
  · cases hok.symm.trans h

theorem State.decodeStages_error {s : State} {c : CodeTable} {b : Bits} {require : Bool} {x : Completion}
    (h : s.decodeStages c b require = .error x) :
    x = .structuralInconsistency ∨ x = .capacityExceeded ∨ x = .malformedBitstream := by
  rcases s.decodeStages_cases c b require with ⟨y, hy, hwhy⟩ | ⟨n, out, -, -, -, -, hok⟩
  · cases hy.symm.trans h
    rcases hwhy with htree | hcap | ⟨n, -, hwalk⟩
    · exact .inl (treeFromCode_error htree)
    · exact .inr (.inl hcap)
    · exact .inr (.inr (decodeWalk_error hwalk))
  · cases hok.symm.trans h

/-! ### The frame of a command over node registers, queue, `RES` and `ARG` (R183) -/

/-- What command `i` leaves of node registers, queue, `RES` and `ARG` as it was in `s`, which is all its row of R183 does
not name; and the model's own fields. -/
structure KeepsRegs (i : Instr) (s u : State) : Prop where
  reg : ∀ r, writesReg i r = false → u.reg r = s.reg r
  heap : writesQueue i = false → u.heap = s.heap
  report : writesReport i = false → u.res.kind = s.res.kind ∧ u.res.sym = s.res.sym ∧ u.res.freq = s.res.freq
  count : i ≠ .pqSize → u.res.count = s.res.count
  arg : u.arg = s.arg
  host : u.host = s.host
  port : u.port = s.port
  draws : u.draws = s.draws

namespace KeepsRegs

theorem refl (i : Instr) (s : State) : KeepsRegs i s s :=
  ⟨fun _ _ => rfl, fun _ => rfl, fun _ => ⟨rfl, rfl, rfl⟩, fun _ => rfl, rfl, rfl, rfl, rfl⟩

section Updates

variable {i : Instr} {s u : State} (h : KeepsRegs i s u)
include h

/-! The updates of what the frame speaks of: each is kept where the command's row names what it writes. -/

theorem setReg {r : NReg} (hw : writesReg i r = true) (v : Slot) : KeepsRegs i s (u.setReg r v) :=
  { h with
    reg := fun q hq => by
      have hne : q ≠ r := by
        rintro rfl
        exact Bool.false_ne_true (hq.symm.trans hw)
      rw [State.reg_setReg, if_neg hne, h.reg q hq] }

theorem setHeap (hw : writesQueue i = true) (q : List Node) : KeepsRegs i s (u.setHeap q) :=
  { h with heap := fun hq => absurd (hq.symm.trans hw) Bool.false_ne_true }

theorem reportSlot (hw : writesReport i = true) (v : Slot) : KeepsRegs i s (u.report v) := by
  cases v <;> exact { h with report := fun hr => absurd (hr.symm.trans hw) Bool.false_ne_true }

theorem setCount (hi : i = .pqSize) (n : Word) : KeepsRegs i s (u.setCount n) :=
  { h with count := fun hne => absurd hi hne }

/-! The updates of everything else. -/

theorem setFt (t : Cells Freq) : KeepsRegs i s (u.setFt t) := { h with }
theorem writeCodes (c : CodeTable) : KeepsRegs i s (u.writeCodes c) := { h with }
theorem writeBits (b : Bits) : KeepsRegs i s (u.writeBits b) := { h with }
theorem writeOut (b : List Byte) : KeepsRegs i s (u.writeOut b) := { h with }
theorem endWith (x : Completion) : KeepsRegs i s (u.endWith x) := { h with }

/-! The cleared destinations of the whole-pipeline commands. -/

theorem clearEncoding (hr : writesReg i .n0 = true) (hq : writesQueue i = true) : KeepsRegs i s u.clearEncoding :=
  { (h.setReg hr .absent).setHeap hq [] with }

theorem clearDecoding (hr : writesReg i .n0 = true) : KeepsRegs i s u.clearDecoding := { h.setReg hr .absent with }

theorem clearCompress (hr : writesReg i .n0 = true) (hq : writesQueue i = true) : KeepsRegs i s u.clearCompress :=
  { h.clearEncoding hr hq with }

theorem clearDecompress (hr : writesReg i .n0 = true) : KeepsRegs i s u.clearDecompress := { h.clearDecoding hr with }

end Updates

end KeepsRegs

/-! ### A command raises, or it succeeds (R163, R164) -/

theorem failureState_status (i : Instr) (s : State) : (failureState i s).status = s.status := by
  cases i <;> rfl

/-- The destinations R164 clears are all in the command's row of R183. -/
theorem failureState_keepsRegs (i : Instr) (s : State) : KeepsRegs i s (failureState i s) := by
  have hrefl := KeepsRegs.refl i s
  cases i with
  | pqExtractmin rd => exact (hrefl.setReg (r := rd) (by simp [writesReg]) .absent).reportSlot rfl .absent
  | pqPeekmin => exact hrefl.reportSlot rfl .absent
  | freq => exact hrefl.setFt []
  | buildtree rd => exact (hrefl.setReg (r := rd) (by simp [writesReg]) .absent).setHeap rfl []
  | buildcode ra => exact hrefl.writeCodes []
  | treefromcode rd => exact hrefl.setReg (by simp [writesReg]) .absent
  | encode => exact hrefl.clearEncoding rfl rfl
  | decode => exact hrefl.clearDecoding rfl
  | compress => exact hrefl.clearCompress rfl rfl
  | decompress => exact hrefl.clearDecompress rfl
  | clrstat | reset | pqClear | pqInsert _ | pqSize | ndLeaf _ _ | ndBranch _ _ _ | ndInfo _ => exact hrefl

/-- How every command but `CLRSTAT` and `RESET` ends: with a code R158 lists it under, in its failure state, or with
success and its frame kept. -/
theorem exec_raises_or_succeeds {i : Instr} (s : State) (hc : i ≠ .clrstat) (hr : i ≠ .reset) :
    (∃ x ∈ raises i, exec i s = .next ((failureState i s).endWith x)) ∨
    ∃ u, exec i s = .next (u.endWith .ok) ∧ KeepsRegs i s u := by
  have hrefl := KeepsRegs.refl i s
  cases i with
  | clrstat => exact absurd rfl hc
  | reset => exact absurd rfl hr
  | pqClear => exact .inr ⟨_, rfl, hrefl.setHeap rfl []⟩
  | pqInsert ra =>
    rcases execPqInsert_cases ra s with ⟨x, hx, he⟩ | ⟨n, -, -, he⟩
    · refine .inl ⟨x, ?_, he⟩
      rcases hx with ⟨rfl, -⟩ | ⟨rfl, -⟩ <;> simp [raises]
    · exact .inr ⟨_, he, (hrefl.setHeap rfl _).setReg (by simp [writesReg]) _⟩
  | pqExtractmin rd =>
    rcases execPqExtractmin_cases rd s with ⟨-, he⟩ | ⟨m, q, -, he⟩
    · exact .inl ⟨.queueEmpty, by simp [raises], he⟩
    · exact .inr ⟨_, he, ((hrefl.setHeap rfl _).setReg (by simp [writesReg]) _).reportSlot rfl _⟩
  | pqPeekmin =>
    rcases execPqPeekmin_cases s with ⟨-, he⟩ | ⟨m, q, -, he⟩
    · exact .inl ⟨.queueEmpty, by simp [raises], he⟩
    · exact .inr ⟨_, he, hrefl.reportSlot rfl _⟩
  | pqSize => exact .inr ⟨_, rfl, hrefl.setCount rfl _⟩
  | ndLeaf rd y =>
    rcases execNdLeaf_cases rd y s with he | ⟨-, he⟩
    · exact .inl ⟨.capacityExceeded, by simp [raises], he⟩
    · exact .inr ⟨_, he, hrefl.setReg (by simp [writesReg]) _⟩
  | ndBranch rd ra rb =>
    rcases execNdBranch_cases rd ra rb s with ⟨x, hx, he⟩ | ⟨a, b, -, -, -, -, -, he⟩
    · exact .inl ⟨x, by simpa [raises] using hx, he⟩
    · have hra := hrefl.setReg (r := ra) (by simp [writesReg]) .absent
      have hrb := hra.setReg (r := rb) (by simp [writesReg]) .absent
      exact .inr ⟨_, he, hrb.setReg (by simp [writesReg]) _⟩
  | ndInfo ra => exact .inr ⟨_, rfl, hrefl.reportSlot rfl _⟩
  | freq =>
    rcases execFreq_cases s with ⟨x, hx, he⟩ | ⟨-, -, he⟩
    · exact .inl ⟨x, by simpa [raises] using hx, he⟩
    · exact .inr ⟨_, he, hrefl.setFt _⟩
  | buildtree rd =>
    rcases execBuildtree_cases rd s with ⟨x, hx, he⟩ | ⟨n, -, -, -, he⟩
    · refine .inl ⟨x, ?_, he⟩
      rcases hx with ⟨rfl, -⟩ | rfl | ⟨-, htree⟩
      · simp [raises]
      · simp [raises]
      · simpa [raises] using buildTree_error htree
    · have hrd : writesReg (.buildtree rd) rd = true := by simp [writesReg]
      exact .inr ⟨_, he, ((hrefl.setReg hrd .absent).setHeap rfl []).setReg hrd _⟩
  | buildcode ra =>
    rcases execBuildcode_cases ra s with ⟨x, hx, he⟩ | ⟨n, c, -, -, he⟩
    · refine .inl ⟨x, ?_, he⟩
      rcases hx with ⟨rfl, -⟩ | ⟨n, -, hcode⟩
      · simp [raises]
      · rcases buildCode_error hcode with ⟨rfl, -⟩ | ⟨rfl, -⟩ <;> simp [raises]
    · exact .inr ⟨_, he, hrefl.writeCodes c⟩
  | treefromcode rd =>
    rcases execTreefromcode_cases rd s with ⟨x, hx, he⟩ | ⟨n, -, -, -, he⟩
    · refine .inl ⟨x, ?_, he⟩
      rcases hx with ⟨rfl, -⟩ | rfl | ⟨-, htree⟩
      · simp [raises]
      · simp [raises]
      · simp [raises, treeFromCode_error htree]
    · have hrd : writesReg (.treefromcode rd) rd = true := by simp [writesReg]
      exact .inr ⟨_, he, (hrefl.setReg hrd .absent).setReg hrd _⟩
  | encode =>
    rcases execEncode_cases s with ⟨x, hx, he⟩ | ⟨n, c, -, -, -, -, -, -, he⟩
    · refine .inl ⟨x, ?_, he⟩
      rcases hx with rfl | rfl | ⟨-, -, hstages⟩
      · simp [raises]
      · simp [raises]
      · simpa [raises] using State.encodeStages_error hstages
    · have htree := ((hrefl.clearEncoding rfl rfl).setFt (freqTable s.inputBytes)).setReg (r := .n0) rfl (.node n)
      exact .inr ⟨_, he, (htree.writeCodes c).writeBits _⟩
  | decode =>
    rcases execDecode_cases s with ⟨x, hx, he⟩ | ⟨n, out, -, -, -, -, -, -, he⟩
    · refine .inl ⟨x, ?_, he⟩
      rcases hx with rfl | rfl | ⟨-, hstages⟩
      · simp [raises]
      · simp [raises]
      · rcases State.decodeStages_error hstages with rfl | rfl | rfl <;> simp [raises]
    · exact .inr ⟨_, he, ((hrefl.clearDecoding rfl).setReg rfl _).writeOut out⟩
  | compress =>
    rcases execCompress_cases s with ⟨x, hx, he⟩ | ⟨n, c, -, -, -, -, -, -, -, -, -, he⟩
    · refine .inl ⟨x, ?_, he⟩
      rcases hx with rfl | rfl | rfl | ⟨-, hstages⟩
      · simp [raises]
      · simp [raises]
      · simp [raises]
      · rcases State.encodeStages_error hstages with rfl | rfl <;> simp [raises]
    · have hcleared := (hrefl.clearCompress rfl rfl).clearEncoding rfl rfl
      exact .inr ⟨_, he, ((((hcleared.setFt _).setReg rfl _).writeCodes c).writeBits _).writeOut _⟩
  | decompress =>
    rcases execDecompress_cases s with ⟨x, hx, he⟩ | ⟨c, rest, n, out, -, -, -, -, -, -, -, he⟩
    · refine .inl ⟨x, ?_, he⟩
      rcases hx with rfl | hparse | ⟨c, rest, -, hstages⟩
      · simp [raises]
      · rcases parseContainer_error hparse with rfl | rfl <;> simp [raises]
      · rcases State.decodeStages_error hstages with rfl | rfl | rfl <;> simp [raises]
    · have hcleared := (hrefl.clearDecompress rfl).clearDecoding rfl
      exact .inr ⟨_, he, (((hcleared.setReg rfl _).writeOut out).writeCodes c).writeBits rest⟩

/-- A command that ends in any code but success raised it: it is one of the command's codes, and the state is the
command's failure state (R158, R164). -/
theorem exec_failed {i : Instr} {s t : State} (ht : exec i s = .next t) (hfailed : t.status.code ≠ .ok) :
    t.status.code ∈ raises i ∧ t = (failureState i s).endWith t.status.code := by
  by_cases hc : i = .clrstat
  · subst hc; cases ht
    exact absurd rfl hfailed
  by_cases hr : i = .reset
  · subst hr; cases ht
    exact absurd rfl hfailed
  rcases exec_raises_or_succeeds s hc hr with ⟨x, hx, he⟩ | ⟨u, he, -⟩
  · cases he.symm.trans ht
    exact ⟨hx, rfl⟩
  · cases he.symm.trans ht
    exact absurd rfl hfailed

/-- Settles O22: a failed command ends in its failure state, which has the `STATUS` it began with (R159, R163). -/
theorem failedCommandsLeaveDestinationsCleared : Obligations.FailedCommandsLeaveDestinationsCleared := by
  intro i s t ht hfailed
  obtain ⟨-, hstate⟩ := exec_failed ht hfailed
  calc t = (failureState i s).setStatus ((failureState i s).status.ending t.status.code) := hstate
    _ = (failureState i s).setStatus (s.status.ending t.status.code) := by rw [failureState_status]

/-- Settles O23: a code that is not success was raised. -/
theorem commandsRaiseOnlyTheirCodes : Obligations.CommandsRaiseOnlyTheirCodes := by
  intro i s t ht
  by_cases hok : t.status.code = .ok
  · exact .inl hok
  · obtain ⟨hraised, -⟩ := exec_failed ht hok
    exact .inr hraised

/-- The frame of a command that is not `RESET`, whatever code it ends with; of `CLRSTAT` too, which writes nothing but
`STATUS`. -/
theorem exec_keepsRegs {i : Instr} {s t : State} (hr : i ≠ .reset) (ht : exec i s = .next t) : KeepsRegs i s t := by
  by_cases hc : i = .clrstat
  · subst hc; cases ht
    exact { KeepsRegs.refl .clrstat s with }
  rcases exec_raises_or_succeeds s hc hr with ⟨x, -, he⟩ | ⟨u, he, hu⟩
  · cases he.symm.trans ht
    exact (failureState_keepsRegs i s).endWith x
  · cases he.symm.trans ht
    exact hu.endWith .ok

/-- Settles O24: the frame of every command but `RESET`, which writes all of it but the model's own fields. -/
theorem registersAndQueueFrame : Obligations.RegistersAndQueueFrame := by
  intro i s t ht
  by_cases hr : i = .reset
  · subst hr; cases ht
    exact ⟨nofun, nofun, nofun, fun _ h => absurd rfl h, fun h => absurd rfl h, rfl, rfl, rfl⟩
  obtain ⟨hreg, hheap, hreport, hcount, harg, hhost, hport, hdraws⟩ := exec_keepsRegs hr ht
  exact ⟨hreg, hheap, hreport, fun h _ => hcount h, fun _ => harg, hhost, hport, hdraws⟩

end Sys2Proof.Machine
end
